-- ==== Sys2Proof/Word.lean ====
section
/-! DEFINITION. The widths of the block's values (rules R5, R20) and their plainest operations.
Every value is unsigned and bit 0 is its least significant bit (rule R10). -/

namespace Sys2Proof

/-- One byte of the entropy bytes, of a word key or of the text (rules R24, R28, R30). -/
abbrev Byte := BitVec 8

/-- One 32-bit word of the register window (rule R50). -/
abbrev Word := BitVec 32

/-- The 128-bit entropy, one IPv6 address (rule R23). -/
abbrev Entropy := BitVec 128

/-- The 4-bit checksum (rule R25). -/
abbrev Checksum := BitVec 4

/-- An 11-bit word index (rule R26). -/
abbrev Index := BitVec 11

/-- The 132-bit packed value: entropy, then checksum (rule R151). -/
abbrev Packed := BitVec 132

/-- The 17 implemented bits of `STATUS` (rules R20, R34). -/
abbrev StatusBits := BitVec 17

/-- The sixteen entropy bytes, byte 0 the most significant (rule R24). -/
abbrev EntropyBytes := Vector Byte 16

/-- A word key: the `WORD_MAX = 8` bytes `b[0..7]` (rule R80). -/
abbrev WordKey := Vector Byte 8

/-- The all-zero word key (rule R38). -/
def zeroKey : WordKey := Vector.replicate 8 0

end Sys2Proof
end

