-- ==== Sys2Proof/Config.lean ====
section
/-! DEFINITION. The implementation parameters of rule R5 that are fixed, and the one that is OPEN
and that a run needs: the configured wordlist. `BASE` is left out: every offset is relative to it
(rule R50; DESIGN CHOICE, log entry 4). `HASH256` is SHA-256 (rule R133) and stands in Machine/Hash.lean. -/

namespace Sys2Proof.Config

/-- Entries of a correctly sized wordlist (rule R5). -/
def wlSize : Nat := 2048

/-- Words of a mnemonic (rule R5). -/
def nWords : Nat := 12

/-- Hextet groups of an address (rule R5). -/
def nGroups : Nat := 8

/-- Bytes of a word key (rule R5). -/
def wordMax : Nat := 8

/-- Bytes of the text buffer (rule R5). -/
def textMax : Nat := 64

/-- Bytes of the register window (rule R50). -/
def windowBytes : Nat := 0x200

/-- The constant the `ID` register reads as (rule R31). -/
def idValue : Word := 0x49503653

/-- The constant the `PARAM` register reads as: `TEXT_MAX`, `WORD_MAX`, `WL_SIZE` (rule R32); the same for
every wordlist (DEDUCED, log entry 9). -/
def paramValue : Word := BitVec.ofNat 8 textMax ++ BitVec.ofNat 8 wordMax ++ BitVec.ofNat 16 wlSize

/-- The wordlist this block is configured with before reset is released (rules R6, R263): OPEN, so
an opaque constant with no value that a proof could use. `State.reset` holds it. What a law needs
of a wordlist is a hypothesis of that law (`Wordlist.valid`, rule R6; U5 of 93). -/
opaque wordlist : List WordKey

end Sys2Proof.Config
end

