-- ==== Sys2Proof/Syntax.lean ====
section
/-! DEFINITION. The command set (rule R72), and the accesses of the host that carry a command or an
operand to the block (rules R52, R55, R56, R58, R260). -/

namespace Sys2Proof

/-- The eighteen commands (rule R72). A command word carries no operand: every source and
destination is fixed by the opcode (rule R71). -/
inductive Instr where
  | nop | parse | render | e2b | b2e | cksum | pack | unpack | verify | idx2w | w2idx | lookup
  | wordat | genw | gete | enc | dec | clr
deriving DecidableEq, Repr

/-- Why a command word is no command (rule R70). -/
inductive IllegalWord where
  /-- Bits 31:8 are not zero. -/
  | reservedBits
  /-- Bits 31:8 are zero and bits 7:0 are no opcode of rule R72. -/
  | unknownOpcode
deriving DecidableEq, Repr

/-- The data registers, the block's general registers (rules R20, R21). -/
inductive DataReg where
  | ent | bytes | chk | idx | nwords | kidx | key | word | text | textLen
deriving DecidableEq, Repr

/-- Every listed 32-bit word of the register window (rule R52). -/
inductive WindowReg where
  | id | param | cmd | status
  | ent (j : Fin 4)
  | byt (j : Fin 4)
  | chk | nwords | kidx | textLen
  | key (j : Fin 2)
  | idx (k : Fin 12)
  | text (j : Fin 16)
  | word (k : Fin 12) (j : Fin 2)
deriving DecidableEq, Repr

/-- One access of a host at the port: its offset from `BASE` and its width in bytes, so that an
access rule R58 refuses can be written down too. Only a 4-byte access has data the block looks at. -/
inductive Access where
  | read (off bytes : Nat)
  | write (off bytes : Nat) (v : Word)
deriving DecidableEq, Repr

/-- What can happen to the block: a host access or a pulse of its reset input (rules R7, R260). -/
inductive PortEvent where
  | access (a : Access)
  | reset
deriving DecidableEq, Repr

end Sys2Proof
end

