-- ==== Sys2Proof/Machine/State.lean ====
section
/-! DEFINITION. The machine's state: the registers of rule R20, the configured wordlist that the
wordlist memory holds (rule R36), and the model's own picture of the port (rules R60, R7). -/

namespace Sys2Proof.Machine

/-- The state of one block. The first twelve fields are exactly the tuple of rule R20.
`wl` is configuration, not state of the block: no command and no access writes it (rule R36); it
stands here so that every statement holds for every wordlist (DESIGN CHOICE, log entry 1). `port` and `reply` are
the model's own, the outside of the block's one port (rule R60; DESIGN CHOICE, log entry 2). -/
structure State where
  /-- `ENT`, the entropy (rule R23) -/
  ent : Entropy
  /-- `BYTES[0..15]`, the entropy bytes (rule R24) -/
  bytes : EntropyBytes
  /-- `CHK`, a checksum (rule R25) -/
  chk : Checksum
  /-- `IDX[0..11]`, the word indices, `IDX[0]` the most significant slice (rule R26) -/
  idx : Vector Index 12
  /-- `NWORDS`, the count the host's tokenizer found (rule R27) -/
  nwords : BitVec 8
  /-- `KIDX`, the index operand or result of WORDAT and LOOKUP (rule R28) -/
  kidx : Index
  /-- `KEY`, the key operand or result of LOOKUP and WORDAT (rule R28) -/
  key : WordKey
  /-- `WORD[0..11]`, the mnemonic (rule R29) -/
  word : Vector WordKey 12
  /-- `TEXT[0..63]`, the text buffer (rule R30) -/
  text : Vector Byte 64
  /-- `TEXT_LEN`, 7 bits, legal values 0..64 (rule R30) -/
  textLen : BitVec 7
  /-- `CMD`, the last command word written (rule R33) -/
  cmd : Word
  /-- `STATUS`, the outcome of the last command (rule R34) -/
  status : StatusBits
  /-- `WL`, the wordlist memory's contents, `WL_SIZE = wl.length` (rules R6, R36) -/
  wl : List WordKey
  /-- the model's own: accesses and resets that will reach the port, oldest first (rule R60) -/
  port : List PortEvent
  /-- the model's own: the data the port returned for the latest event, none if it was no read -/
  reply : Option Word
deriving DecidableEq, Repr

/-- The bus errors the block answers with. No command raises one: every command completes (rule R9).
The model gives such an access no step (rules R58, R59, R244; log entry 5), which is safe: a claim
about a host that makes one is not provable. -/
inductive Fault where
  /-- Raised by the port for an access that is not 4 bytes wide (rule R58). Safe. -/
  | busWidth
  /-- Raised by the port for an access whose offset is no multiple of 4 (rule R58). Safe. -/
  | busAlignment
  /-- Raised by the port for an access to a reserved offset (rule R59). Safe. -/
  | busReserved
deriving DecidableEq, Repr

/-- Why the model has no step. -/
inductive Refusal where
  /-- Raised by the dispatch for a command without a meaning yet, under its mnemonic; this model has
  none. Safe. -/
  | notModelled (mnemonic : String)
  /-- Raised by the port for an access outside the window, which is not an access to this block
  (rule R59). Safe. -/
  | outsideWindow
deriving DecidableEq, Repr

/-- The state after reset: every register of rule R20 is zero and the wordlist is the configured one
(rule R38). Nothing waits at the port and nothing was read (log entry 2). -/
def State.reset : State where
  ent := 0
  bytes := Vector.replicate 16 0
  chk := 0
  idx := Vector.replicate 12 0
  nwords := 0
  kidx := 0
  key := zeroKey
  word := Vector.replicate 12 zeroKey
  text := Vector.replicate 64 0
  textLen := 0
  cmd := 0
  status := 0
  wl := Config.wordlist
  port := []
  reply := none

/-! ## One update per field; their lemmas stand in Laws/State.lean -/

/-- Write `ENT`. -/
def State.setEnt (s : State) (v : Entropy) : State := { s with ent := v }

/-- Write all of `BYTES`. -/
def State.setBytes (s : State) (v : EntropyBytes) : State := { s with bytes := v }

/-- Write `CHK`. -/
def State.setChk (s : State) (v : Checksum) : State := { s with chk := v }

/-- Write all of `IDX`. -/
def State.setIdx (s : State) (v : Vector Index 12) : State := { s with idx := v }

/-- Write `NWORDS`. -/
def State.setNwords (s : State) (v : BitVec 8) : State := { s with nwords := v }

/-- Write `KIDX`. -/
def State.setKidx (s : State) (v : Index) : State := { s with kidx := v }

/-- Write `KEY`. -/
def State.setKey (s : State) (v : WordKey) : State := { s with key := v }

/-- Write all of `WORD`. -/
def State.setWord (s : State) (v : Vector WordKey 12) : State := { s with word := v }

/-- Write all of `TEXT`. -/
def State.setText (s : State) (v : Vector Byte 64) : State := { s with text := v }

/-- Write `TEXT_LEN`. -/
def State.setTextLen (s : State) (v : BitVec 7) : State := { s with textLen := v }

/-- Write `CMD`. -/
def State.setCmd (s : State) (v : Word) : State := { s with cmd := v }

/-- Write `STATUS`. -/
def State.setStatus (s : State) (v : StatusBits) : State := { s with status := v }

/-- Replace what waits at the port. -/
def State.setPort (s : State) (v : List PortEvent) : State := { s with port := v }

/-- Replace the latest reply of the port. -/
def State.setReply (s : State) (v : Option Word) : State := { s with reply := v }

end Sys2Proof.Machine
end

