-- ==== Sys2Proof/Machine/Chars.lean ====
section
/-! DEFINITION. Character classes, case folding, hex digits (rules R76 to R79) and word keys
(rules R80, R81). -/

namespace Sys2Proof.Machine

/-- The classes the character decoder sorts a byte into (rule R76). -/
inductive CharClass where
  | ws | colon | digit | hexLc | hexUc | other
deriving DecidableEq, Repr

/-- The byte `:`, the separator of groups (rule R79). -/
def colonByte : Byte := 0x3A

/-- The class of a byte (rule R76). -/
def charClass (b : Byte) : CharClass :=
  let n := b.toNat
  if (0x09 ≤ n ∧ n ≤ 0x0D) ∨ n = 0x20 then .ws
  else if n = 0x3A then .colon
  else if 0x30 ≤ n ∧ n ≤ 0x39 then .digit
  else if 0x61 ≤ n ∧ n ≤ 0x66 then .hexLc
  else if 0x41 ≤ n ∧ n ≤ 0x46 then .hexUc
  else .other

/-- Is the byte of class `WS`? -/
def isWs (b : Byte) : Bool := charClass b == .ws

/-- Is the byte a digit of a group, class `DIGIT` or `HEXLC`? (rule R104) -/
def isHexDigit (b : Byte) : Bool := charClass b == .digit || charClass b == .hexLc

/-- Case folding of the 26 ASCII capitals (rule R78). -/
def lower (b : Byte) : Byte := if 0x41 ≤ b.toNat ∧ b.toNat ≤ 0x5A then b + 0x20 else b

/-- The value of a hex digit; rule R77 defines it for `DIGIT` and `HEXLC` only, and it is asked for
no other byte. -/
def hexVal (b : Byte) : Nat := if charClass b = .digit then b.toNat - 0x30 else b.toNat - 0x61 + 10

/-- The value of a group's digits, `sum of hexval(di) * 16^(n-i)` (rule R77). -/
def groupVal : List Byte → Nat
  | [] => 0
  | d :: ds => hexVal d * 16 ^ ds.length + groupVal ds

/-- The byte RENDER writes for a hex digit (rule R79). -/
def digitByte (d : BitVec 4) : Byte :=
  if d.toNat < 10 then BitVec.ofNat 8 (0x30 + d.toNat) else BitVec.ofNat 8 (0x61 + d.toNat - 10)

/-- The key with its ASCII capitals folded, as the CAM compares it (rule R159). -/
def foldKey (k : WordKey) : WordKey := Vector.ofFn fun j => lower k[j]

/-- The key of a word of 1 to 8 bytes: its bytes, then 0x00 (rule R80). A longer word has no key
(rule R81) and neither has the empty one. -/
def keyOf (w : List Byte) : Option WordKey :=
  if 1 ≤ w.length ∧ w.length ≤ 8 then some (Vector.ofFn fun j : Fin 8 => w.getD j 0) else none

/-- The word of a canonical key: its bytes before the first 0x00, or all 8 (rule R80). -/
def wordOf (k : WordKey) : List Byte := k.toList.takeWhile (· != 0)

end Sys2Proof.Machine
end

