-- ==== Sys2Proof/WellFormed.lean ====
section
/-! DEFINITION. Well-formedness: of a command word, of a word key, of a wordlist, of an access's
width and place. Commands have no fields (rule R71), so every `Instr` is well formed. -/

namespace Sys2Proof

/-- Every command is well formed: it carries no operand (rule R71). -/
def Instr.wf : Instr → Bool
  | .nop | .parse | .render | .e2b | .b2e | .cksum | .pack | .unpack | .verify | .idx2w | .w2idx
  | .lookup | .wordat | .genw | .gete | .enc | .dec | .clr => true

/-- A command word is well formed when its reserved bits are zero and its opcode is one of the
eighteen (rules R70, R74). -/
def CommandWord.wf (v : Word) : Bool := v.toNat / 256 == 0 && v.toNat % 256 ≤ 0x11

/-- Is the byte one of `a` to `z`? (rule R80) -/
def Byte.isLowerLetter (b : Byte) : Bool := 0x61 ≤ b.toNat && b.toNat ≤ 0x7A

/-- A canonical word key: one or more lowercase letters, then only 0x00 bytes (rule R80). -/
def WordKey.canonical (k : WordKey) : Bool :=
  match k.toList.dropWhile Byte.isLowerLetter with
  | [] => true
  | pad => pad.length < 8 && pad.all (· == 0)

/-- The invariants (a), (b), (c) of a wordlist (rule R6). -/
structure Wordlist.valid (wl : List WordKey) : Prop where
  /-- (a) it has `WL_SIZE = 2048` entries -/
  size : wl.length = Config.wlSize
  /-- (b) every entry is a canonical word key -/
  keys : ∀ k ∈ wl, k.canonical = true
  /-- (c) no two entries are equal -/
  unique : wl.Nodup

/-- An access of the one legal width and alignment that starts inside the window (rules R50, R58).
Whether its offset is a listed one is the register map's matter (rule R52). -/
def Access.wf : Access → Bool
  | .read off bytes | .write off bytes _ => bytes == 4 && off % 4 == 0 && off < Config.windowBytes

end Sys2Proof
end

