-- ==== Sys2Proof/Decode.lean ====
section
/-! DEFINITION. Decoding a command word (rules R70, R72, R74) and, written from the same table,
encoding one; the register map, offset to word and back (rule R52). -/

namespace Sys2Proof

/-! ## Command words -/

/-- Field `OP` of a command word, bits 7:0 (rule R70). -/
def opField (v : Word) : BitVec 8 := v.extractLsb' 0 8

/-- Field `RSV` of a command word, bits 31:8 (rule R70). -/
def rsvField (v : Word) : BitVec 24 := v.extractLsb' 8 24

/-- The opcode map, read by opcode (rule R72). -/
def decodeOp (op : Nat) : Option Instr :=
  match op with
  | 0x00 => some .nop
  | 0x01 => some .parse
  | 0x02 => some .render
  | 0x03 => some .e2b
  | 0x04 => some .b2e
  | 0x05 => some .cksum
  | 0x06 => some .pack
  | 0x07 => some .unpack
  | 0x08 => some .verify
  | 0x09 => some .idx2w
  | 0x0A => some .w2idx
  | 0x0B => some .lookup
  | 0x0C => some .wordat
  | 0x0D => some .genw
  | 0x0E => some .gete
  | 0x0F => some .enc
  | 0x10 => some .dec
  | 0x11 => some .clr
  | _ => none

/-- Decode a command word: illegal if a reserved bit is set or the opcode is none of rule R72
(rules R70, R74). -/
def decode (v : Word) : Except IllegalWord Instr :=
  if rsvField v ≠ 0 then .error .reservedBits
  else
    match decodeOp (opField v).toNat with
    | some i => .ok i
    | none => .error .unknownOpcode

/-- The full 32-bit command word of a command, column `match` of the opcode map (rule R72). -/
def encode : Instr → Word
  | .nop => 0x00000000
  | .parse => 0x00000001
  | .render => 0x00000002
  | .e2b => 0x00000003
  | .b2e => 0x00000004
  | .cksum => 0x00000005
  | .pack => 0x00000006
  | .unpack => 0x00000007
  | .verify => 0x00000008
  | .idx2w => 0x00000009
  | .w2idx => 0x0000000A
  | .lookup => 0x0000000B
  | .wordat => 0x0000000C
  | .genw => 0x0000000D
  | .gete => 0x0000000E
  | .enc => 0x0000000F
  | .dec => 0x00000010
  | .clr => 0x00000011

/-- The command word that a table row of `nbits` bits with value `w` stands for: the bits above
`nbits` are zero. -/
def tableWord (nbits w : Nat) : Word := BitVec.ofNat 32 (w % 2 ^ nbits)

/-- What the decoder reads from a table row's word; none where it refuses. -/
def decodeTableWord (nbits w : Nat) : Option Instr :=
  match decode (tableWord nbits w) with
  | .ok i => some i
  | .error _ => none

/-! ## The register map (rule R52) -/

/-- The offset of a word of the window (rule R52). -/
def WindowReg.offset : WindowReg → Nat
  | .id => 0x000
  | .param => 0x004
  | .cmd => 0x008
  | .status => 0x00C
  | .ent j => 0x010 + 4 * j
  | .byt j => 0x020 + 4 * j
  | .chk => 0x030
  | .nwords => 0x034
  | .kidx => 0x038
  | .textLen => 0x03C
  | .key j => 0x040 + 4 * j
  | .idx k => 0x080 + 4 * k
  | .text j => 0x0C0 + 4 * j
  | .word k j => 0x100 + 8 * k + 4 * j

/-- The word of the window at an offset; none at a reserved offset, at an offset that is no multiple
of 4 and outside the window (rules R52, R59). -/
def WindowReg.ofOffset (off : Nat) : Option WindowReg :=
  if off % 4 ≠ 0 then none
  else if off = 0x000 then some .id
  else if off = 0x004 then some .param
  else if off = 0x008 then some .cmd
  else if off = 0x00C then some .status
  else if h : off < 0x020 then some (.ent ⟨(off - 0x010) / 4, by omega⟩)
  else if h : off < 0x030 then some (.byt ⟨(off - 0x020) / 4, by omega⟩)
  else if off = 0x030 then some .chk
  else if off = 0x034 then some .nwords
  else if off = 0x038 then some .kidx
  else if off = 0x03C then some .textLen
  else if h : off < 0x048 then some (.key ⟨(off - 0x040) / 4, by omega⟩)
  else if off < 0x080 then none
  else if h : off < 0x0B0 then some (.idx ⟨(off - 0x080) / 4, by omega⟩)
  else if off < 0x0C0 then none
  else if h : off < 0x100 then some (.text ⟨(off - 0x0C0) / 4, by omega⟩)
  else if h : off < 0x160 then
    some (.word ⟨(off - 0x100) / 8, by omega⟩ ⟨(off - 0x100) / 4 % 2, by omega⟩)
  else none

end Sys2Proof
end

