-- ==== Sys2Proof/Machine/Operands.lean ====
section
/-! DEFINITION. The operand forms: the fields of the wide registers (rules R23, R53, R54, R151) and a
host's read and write of each word of the window (rules R52, R55 to R57, R30 to R34). -/

namespace Sys2Proof.Machine

/-! ## Fields -/

/-- Group `g` of an address, 0 the leftmost: `ENT[127-16g : 112-16g]` (rule R23). -/
def entGroup (e : Entropy) (g : Nat) : BitVec 16 := e.extractLsb' (112 - 16 * g) 16

/-- Byte `i` of the entropy, 0 the most significant: `ENT[127-8i : 120-8i]` (rule R53). -/
def entByte (e : Entropy) (i : Nat) : Byte := e.extractLsb' (120 - 8 * i) 8

/-- Word `j` of the entropy, 0 the most significant (rule R52). -/
def entWord (e : Entropy) (j : Nat) : Word := e.extractLsb' (96 - 32 * j) 32

/-- The entropy with word `j` replaced (rule R52). -/
def setEntWord (e : Entropy) (j : Nat) (v : Word) : Entropy :=
  let w (i : Nat) : Word := if i = j then v else entWord e i
  w 0 ++ w 1 ++ w 2 ++ w 3

/-- Slice `k` of the packed value, 0 the most significant: `P[131-11k : 121-11k]` (rule R151). -/
def slice (p : Packed) (k : Nat) : Index := p.extractLsb' (121 - 11 * k) 11

/-- Byte `m` of a 32-bit word's four lanes, lane 0 in bits 31:24 (rule R54). -/
def lane (v : Word) (m : Nat) : Byte := v.extractLsb' (24 - 8 * m) 8

/-- Element `i` of a byte array; it is asked for no index past the end. -/
def byteAt {n : Nat} (a : Vector Byte n) (i : Nat) : Byte := a[i]?.getD 0

/-- Word `j` of a byte array: bytes `4j .. 4j+3`, the lowest index in bits 31:24 (rule R54). -/
def laneWord {n : Nat} (a : Vector Byte n) (j : Nat) : Word :=
  byteAt a (4 * j) ++ byteAt a (4 * j + 1) ++ byteAt a (4 * j + 2) ++ byteAt a (4 * j + 3)

/-- A byte array with its word `j` replaced (rule R54). -/
def setLaneWord {n : Nat} (a : Vector Byte n) (j : Nat) (v : Word) : Vector Byte n :=
  Vector.ofFn fun i => if i.val / 4 = j then lane v (i.val % 4) else a[i]

/-- What a write of `v` stores in `TEXT_LEN`: `min(v, 64)` (rule R30). -/
def clampTextLen (v : Word) : BitVec 7 := BitVec.ofNat 7 (min v.toNat Config.textMax)

/-- The text: the bytes `TEXT[0] .. TEXT[TEXT_LEN-1]` (rule R30). -/
def State.textString (s : State) : List Byte := s.text.toList.take s.textLen.toNat

/-! ## The window -/

/-- A host read of a listed word: its contents, zero in bits that hold no state (rules R52, R55). -/
def readReg (r : WindowReg) (s : State) : Word :=
  match r with
  | .id => Config.idValue
  | .param => Config.paramValue
  | .cmd => s.cmd
  | .status => s.status.setWidth 32
  | .ent j => entWord s.ent j
  | .byt j => laneWord s.bytes j
  | .chk => s.chk.setWidth 32
  | .nwords => s.nwords.setWidth 32
  | .kidx => s.kidx.setWidth 32
  | .textLen => s.textLen.setWidth 32
  | .key j => laneWord s.key j
  | .idx k => s.idx[k].setWidth 32
  | .text j => laneWord s.text j
  | .word k j => laneWord s.word[k] j

/-- What a host write stores: the implemented bits (rules R56, R57), `min(v, 64)` for `TEXT_LEN`
(rule R30), nothing at `ID`, `PARAM` and `STATUS` (rules R31, R32, R34). At `CMD` it stores the word
(rule R33); executing it is the port's part. -/
def writeReg (r : WindowReg) (v : Word) (s : State) : State :=
  match r with
  | .id | .param | .status => s
  | .cmd => s.setCmd v
  | .ent j => s.setEnt (setEntWord s.ent j v)
  | .byt j => s.setBytes (setLaneWord s.bytes j v)
  | .chk => s.setChk (v.extractLsb' 0 4)
  | .nwords => s.setNwords (v.extractLsb' 0 8)
  | .kidx => s.setKidx (v.extractLsb' 0 11)
  | .textLen => s.setTextLen (clampTextLen v)
  | .key j => s.setKey (setLaneWord s.key j v)
  | .idx k => s.setIdx (s.idx.set k (v.extractLsb' 0 11))
  | .text j => s.setText (setLaneWord s.text j v)
  | .word k j => s.setWord (s.word.set k (setLaneWord s.word[k] j v))

end Sys2Proof.Machine
end

