-- ==== Sys2Proof/Machine/Flags.lean ====
section
/-! DEFINITION. `STATUS`, the block's only flags (rules R34, R35): its fields, how it is composed, and
every cause an error reports with its codes (rules R231, R232). -/

namespace Sys2Proof.Machine

/-- `STATUS = ERR | SUB << 4 | INFO << 8 | HIT << 16` (rule R232). -/
def mkStatus (err sub : BitVec 4) (info : BitVec 8) (hit : BitVec 1) : StatusBits :=
  err.setWidth 17 ||| sub.setWidth 17 <<< 4 ||| info.setWidth 17 <<< 8 ||| hit.setWidth 17 <<< 16

/-- Field `ERR`, bits 3:0 (rule R34). -/
def statusErr (st : StatusBits) : BitVec 4 := st.extractLsb' 0 4

/-- Field `SUB`, bits 7:4 (rule R34). -/
def statusSub (st : StatusBits) : BitVec 4 := st.extractLsb' 4 4

/-- Field `INFO`, bits 15:8 (rule R34). -/
def statusInfo (st : StatusBits) : BitVec 8 := st.extractLsb' 8 8

/-- Field `HIT`, bit 16 (rule R34). -/
def statusHit (st : StatusBits) : BitVec 1 := st.extractLsb' 16 1

/-- `STATUS` of a command that succeeds: all zero (rules R231, R232). -/
def statusOk : StatusBits := mkStatus 0 0 0 0

/-- `STATUS` of LOOKUP: `ERR = OK`, `HIT` as the CAM found (rule R163). -/
def statusLookup (hit : Bool) : StatusBits := mkStatus 0 0 0 (BitVec.ofBool hit)

/-- Every cause of an error, one row of rule R232's table each, with the number its `INFO` names. -/
inductive Cause where
  /-- AddressFormat/EMPTY: the text is empty after trimming -/
  | empty
  /-- AddressFormat/MULTI_DCOLON: more than one `::` -/
  | multiDColon
  /-- AddressFormat/TOO_MANY_GROUPS: more than 8 groups, how many -/
  | tooManyGroups (n : Nat)
  /-- AddressFormat/TOO_FEW_GROUPS: no `::` and fewer than 8 groups, how many -/
  | tooFewGroups (n : Nat)
  /-- AddressFormat/BAD_GROUP: the first group that does not match, 0 the leftmost -/
  | badGroup (i : Nat)
  /-- SentenceFormat/WORD_COUNT: `NWORDS` when it is not 12 -/
  | wordCount (n : BitVec 8)
  /-- SentenceFormat/UNKNOWN_WORD: the first slot whose key is no entry -/
  | unknownWord (k : Nat)
  /-- Checksum: the recomputed checksum differs from the claimed one -/
  | checksum
  /-- InternalInvariant: the first slot whose index is not below `WL_SIZE` -/
  | internalInvariant (k : Nat)
  /-- IllegalCommand: bits 7:0 of the word written -/
  | illegalCommand (op : BitVec 8)
deriving DecidableEq, Repr

/-- The code of the error's kind (rule R231). -/
def Cause.err : Cause → BitVec 4
  | .empty | .multiDColon | .tooManyGroups _ | .tooFewGroups _ | .badGroup _ => 1
  | .wordCount _ | .unknownWord _ => 2
  | .checksum => 3
  | .internalInvariant _ => 4
  | .illegalCommand _ => 5

/-- The sub-cause within the kind (rule R232). -/
def Cause.sub : Cause → BitVec 4
  | .empty => 1
  | .multiDColon => 2
  | .tooManyGroups _ => 3
  | .tooFewGroups _ => 4
  | .badGroup _ => 5
  | .wordCount _ => 1
  | .unknownWord _ => 2
  | .checksum | .internalInvariant _ | .illegalCommand _ => 0

/-- The number that names the offender (rule R232); the group count saturates at 255 (rule R100). -/
def Cause.info : Cause → BitVec 8
  | .empty | .multiDColon | .checksum => 0
  | .tooManyGroups n => BitVec.ofNat 8 (min n 255)
  | .tooFewGroups n => BitVec.ofNat 8 n
  | .badGroup i => BitVec.ofNat 8 i
  | .wordCount n => n
  | .unknownWord k => BitVec.ofNat 8 k
  | .internalInvariant k => BitVec.ofNat 8 k
  | .illegalCommand op => op

/-- What `raise` writes to `STATUS`, with `HIT = 0` (rule R240). -/
def Cause.status (c : Cause) : StatusBits := mkStatus c.err c.sub c.info 0

end Sys2Proof.Machine
end

