-- ==== Sys2Proof/Machine/Ops.lean ====
section
/-! DEFINITION. The operations every command shares: which registers it reads and writes (rule R72),
raising an error (rule R240), ending a command (rules R9, R34), and reset (rules R260, R261). -/

namespace Sys2Proof.Machine

/-- Column `sources` of the opcode map (rule R72). -/
def sources : Instr → List DataReg
  | .nop | .clr => []
  | .parse | .enc => [.text, .textLen]
  | .render | .e2b | .genw => [.ent]
  | .b2e | .cksum => [.bytes]
  | .pack | .verify => [.ent, .chk]
  | .unpack | .idx2w => [.idx]
  | .w2idx | .gete | .dec => [.word, .nwords]
  | .lookup => [.key]
  | .wordat => [.kidx]

/-- Column `destinations` of the opcode map, the data registers of it (rule R72). -/
def dests : Instr → List DataReg
  | .nop | .verify => []
  | .parse | .b2e => [.ent]
  | .render => [.text, .textLen]
  | .e2b => [.bytes]
  | .cksum => [.chk]
  | .pack | .w2idx => [.idx]
  | .unpack => [.ent, .chk]
  | .idx2w => [.word]
  | .lookup => [.kidx]
  | .wordat => [.key]
  | .genw => [.bytes, .chk, .idx, .word]
  | .gete => [.idx, .ent, .chk]
  | .enc => [.ent, .bytes, .chk, .idx, .word]
  | .dec => [.idx, .ent, .chk, .text, .textLen]
  | .clr => [.ent, .bytes, .chk, .idx, .nwords, .kidx, .key, .word, .text, .textLen]

/-- Write one data register to zero (rules R201, R240). -/
def zeroReg (s : State) : DataReg → State
  | .ent => s.setEnt 0
  | .bytes => s.setBytes (Vector.replicate 16 0)
  | .chk => s.setChk 0
  | .idx => s.setIdx (Vector.replicate 12 0)
  | .nwords => s.setNwords 0
  | .kidx => s.setKidx 0
  | .key => s.setKey zeroKey
  | .word => s.setWord (Vector.replicate 12 zeroKey)
  | .text => s.setText (Vector.replicate 64 0)
  | .textLen => s.setTextLen 0

/-- Write each listed register to zero. -/
def zeroRegs (ds : List DataReg) (s : State) : State := ds.foldl zeroReg s

/-- `raise K(sub, info)`, the block's trap entry, on the state as it was when the command began:
every destination is written to zero whether or not a part of the command had written it, every
other register keeps its value, `STATUS` takes the report (rule R240). There is no handler, nothing
is saved, and there is no return: the report stays until the next command (rule R241). -/
def raise (ds : List DataReg) (c : Cause) (s : State) : State :=
  (zeroRegs ds s).setStatus c.status

/-- The end of a command that began in `s`: `OK` over the state its steps reached, or the one error
they stopped at (rules R9, R180, R240). -/
def finish (i : Instr) (r : Except Cause State) (s : State) : State :=
  match r with
  | .ok t => t.setStatus statusOk
  | .error c => raise (dests i) c s

/-- A command from its steps: it always completes (rules R9, R273). -/
def command (i : Instr) (steps : State → Except Cause State) (s : State) :
    Host.Outcome State Fault Refusal :=
  .next (finish i (steps s) s)

/-- The reset input released: every register of rule R20 zero, the wordlist untouched (rules R38,
R260, R261). What waits at the port comes after it. -/
def resetBlock (s : State) : State :=
  { State.reset with wl := s.wl, port := s.port }

end Sys2Proof.Machine
end

