-- ==== Sys2Proof/Machine/Address.lean ====
section
/-! DEFINITION. The address parser: `parse_fn` (rules R100 to R105), `render_fn` (rules R107, R108) and
the commands PARSE and RENDER (rules R106, R109). -/

namespace Sys2Proof.Machine

/-! ## The parse function -/

/-- Step 1: remove the longest start and the longest end made of `WS` bytes (rule R101). -/
def trim (s : List Byte) : List Byte := ((s.dropWhile isWs).reverse.dropWhile isWs).reverse

/-- The ordinary string split, from the left and without overlap (rules R100, R102). `cur` is the
current piece, newest byte first; `skip` bytes of a separator are still to be passed over. -/
def splitFrom (sep : List Byte) : List Byte → List Byte → Nat → List (List Byte)
  | [], cur, _ => [cur.reverse]
  | _ :: rest, cur, skip + 1 => splitFrom sep rest cur skip
  | b :: rest, cur, 0 =>
    if sep.isPrefixOf (b :: rest) then cur.reverse :: splitFrom sep rest [] (sep.length - 1)
    else splitFrom sep rest (b :: cur) 0

/-- `split(x, sep)` (rule R100). -/
def split (x sep : List Byte) : List (List Byte) := splitFrom sep x [] 0

/-- Step 4: split one side on `:` and drop the empty tokens (rule R103). -/
def groupTokens (side : List Byte) : List (List Byte) :=
  (split side [colonByte]).filter fun x => !x.isEmpty

/-- Does the group match `[0-9a-f]{1,4}`? (rule R104) -/
def groupOk (g : List Byte) : Bool := 1 ≤ g.length && g.length ≤ 4 && g.all isHexDigit

/-- Step 7: fold the groups, most significant first (rule R105). -/
def foldGroups (g : List (List Byte)) : Entropy :=
  g.foldl (fun v x => (v <<< 16) ||| BitVec.ofNat 128 (groupVal x)) 0

/-- Steps 5 to 7 on the tokens of the two sides (rules R103 to R105). -/
def assembleGroups (hasDc : Bool) (l r : List (List Byte)) : Except Cause Entropy :=
  let n := l.length + r.length
  if 8 < n then .error (.tooManyGroups n)
  else if !hasDc && n != 8 then .error (.tooFewGroups n)
  else
    let g := l ++ List.replicate (8 - n) [0x30] ++ r
    match g.findIdx? fun x => !groupOk x with
    | some i => .error (.badGroup i)
    | none => .ok (foldGroups g)

/-- Steps 3 to 7 on the trimmed, lowercased text (rules R102 to R105). -/
def parseLowered (u : List Byte) : Except Cause Entropy :=
  match split u [colonByte, colonByte] with
  | [side] => assembleGroups false (groupTokens side) []
  | [left, right] => assembleGroups true (groupTokens left) (groupTokens right)
  | _ => .error .multiDColon

/-- `parse_fn`, of a byte string of any length (rule R100). -/
def parseFn (s : List Byte) : Except Cause Entropy :=
  if (trim s).isEmpty then .error .empty else parseLowered ((trim s).map lower)

/-! ## The render function -/

/-- `hex_min(g)`: the digits of a group without leading zeros, `0` for zero (rule R107). -/
def hexMin (g : BitVec 16) : List Byte :=
  if g = 0 then [digitByte 0]
  else ([3, 2, 1, 0].dropWhile fun j => g.extractLsb' (4 * j) 4 == 0).map
    fun j => digitByte (g.extractLsb' (4 * j) 4)

/-- `render_fn`: eight groups, most significant first, joined by `:` (rules R107, R108). -/
def renderFn (v : Entropy) : List Byte :=
  [colonByte].intercalate ((List.range 8).map fun i => hexMin (entGroup v i))

/-! ## The commands -/

/-- `ENT <- parse_fn(TEXT[0 .. TEXT_LEN-1])` or its error (rule R106). -/
def parseStep (s : State) : Except Cause State :=
  match parseFn s.textString with
  | .ok v => .ok (s.setEnt v)
  | .error c => .error c

/-- PARSE (rule R106). -/
def execParse (s : State) : Host.Outcome State Fault Refusal := command .parse parseStep s

/-- `TEXT, TEXT_LEN <- render_fn(ENT)`, 0x00 past the string (rule R109). -/
def renderStep (s : State) : Except Cause State :=
  let r := renderFn s.ent
  .ok ((s.setText (Vector.ofFn fun i : Fin 64 => r.getD i 0)).setTextLen (BitVec.ofNat 7 r.length))

/-- RENDER (rule R109). -/
def execRender (s : State) : Host.Outcome State Fault Refusal := command .render renderStep s

end Sys2Proof.Machine
end

