-- ==== Sys2Proof/Machine/Bytes.lean ====
section
/-! DEFINITION. The entropy/byte codec: the two functions (rule R120) and E2B, B2E (rules R121, R122). -/

namespace Sys2Proof.Machine

/-- `to_bytes(v)`: `B[i] = v[127-8i : 120-8i]` (rule R120). -/
def toBytes (v : Entropy) : EntropyBytes := Vector.ofFn fun i => entByte v i

/-- `from_bytes(B)`: `v := 0; for i in 0..15: v := (v << 8) | B[i]` (rule R120). -/
def fromBytes (b : EntropyBytes) : Entropy :=
  b.toList.foldl (fun v x => (v <<< 8) ||| x.setWidth 128) 0

/-- `BYTES <- to_bytes(ENT)` (rule R121). -/
def e2bStep (s : State) : Except Cause State := .ok (s.setBytes (toBytes s.ent))

/-- E2B (rule R121). -/
def execE2b (s : State) : Host.Outcome State Fault Refusal := command .e2b e2bStep s

/-- `ENT <- from_bytes(BYTES)` (rule R122). -/
def b2eStep (s : State) : Except Cause State := .ok (s.setEnt (fromBytes s.bytes))

/-- B2E (rule R122). -/
def execB2e (s : State) : Host.Outcome State Fault Refusal := command .b2e b2eStep s

end Sys2Proof.Machine
end

