-- ==== Sys2Proof/Machine/Hash.lean ====
section
/-! DEFINITION. The hash wrapper: the one message block of a 16-byte message (rule R134) and the
SHA-256 compression of it (rule R135). `HASH256` is SHA-256 by rule R133. -/

namespace Sys2Proof.Machine

/-- `rotr(x, n)` on 32 bits (rule R135). -/
def rotr (x : Word) (n : Nat) : Word := (x >>> n) ||| (x <<< (32 - n))

/-- The eight working variables (rule R135). -/
structure Working where
  a : Word
  b : Word
  c : Word
  d : Word
  e : Word
  f : Word
  g : Word
  h : Word
deriving DecidableEq, Repr

/-- The initial values `H[0..7]` (rule R135). -/
def initialHash : Working where
  a := 0x6a09e667
  b := 0xbb67ae85
  c := 0x3c6ef372
  d := 0xa54ff53a
  e := 0x510e527f
  f := 0x9b05688c
  g := 0x1f83d9ab
  h := 0x5be0cd19

/-- The round constants `K[0..63]` (rule R135). -/
def roundConstants : List Word :=
  [0x428a2f98, 0x71374491, 0xb5c0fbcf, 0xe9b5dba5, 0x3956c25b, 0x59f111f1, 0x923f82a4, 0xab1c5ed5] ++
  [0xd807aa98, 0x12835b01, 0x243185be, 0x550c7dc3, 0x72be5d74, 0x80deb1fe, 0x9bdc06a7, 0xc19bf174] ++
  [0xe49b69c1, 0xefbe4786, 0x0fc19dc6, 0x240ca1cc, 0x2de92c6f, 0x4a7484aa, 0x5cb0a9dc, 0x76f988da] ++
  [0x983e5152, 0xa831c66d, 0xb00327c8, 0xbf597fc7, 0xc6e00bf3, 0xd5a79147, 0x06ca6351, 0x14292967] ++
  [0x27b70a85, 0x2e1b2138, 0x4d2c6dfc, 0x53380d13, 0x650a7354, 0x766a0abb, 0x81c2c92e, 0x92722c85] ++
  [0xa2bfe8a1, 0xa81a664b, 0xc24b8b70, 0xc76c51a3, 0xd192e819, 0xd6990624, 0xf40e3585, 0x106aa070] ++
  [0x19a4c116, 0x1e376c08, 0x2748774c, 0x34b0bcb5, 0x391c0cb3, 0x4ed8aa4a, 0x5b9cca4f, 0x682e6ff3] ++
  [0x748f82ee, 0x78a5636f, 0x84c87814, 0x8cc70208, 0x90befffa, 0xa4506ceb, 0xbef9a3f7, 0xc67178f2]

/-- The wrapper's message block `W[0..15]` (rule R134). -/
def messageBlock (b : EntropyBytes) : List Word :=
  [laneWord b 0, laneWord b 1, laneWord b 2, laneWord b 3,
   0x80000000, 0, 0, 0, 0, 0, 0, 0, 0, 0, 0, 0x00000080]

/-- `s0` of the message schedule (rule R135). -/
def smallSigma0 (x : Word) : Word := rotr x 7 ^^^ rotr x 18 ^^^ (x >>> 3)

/-- `s1` of the message schedule (rule R135). -/
def smallSigma1 (x : Word) : Word := rotr x 17 ^^^ rotr x 19 ^^^ (x >>> 10)

/-- `n` more words of the message schedule, the newest word first: with `W[t-1]` at the head,
`W[t] := W[t-16] + s0 + W[t-7] + s1` (rule R135). -/
def extendSchedule : Nat → List Word → List Word
  | 0, w => w
  | n + 1, w =>
    extendSchedule n
      ((w.getD 15 0 + smallSigma0 (w.getD 14 0) + w.getD 6 0 + smallSigma1 (w.getD 1 0)) :: w)

/-- The message schedule `W[0..63]` of a block (rule R135). -/
def schedule (block : List Word) : List Word := (extendSchedule 48 block.reverse).reverse

/-- One round with its constant `K[t]` and schedule word `W[t]` (rule R135). -/
def hashRound (v : Working) (k w : Word) : Working :=
  let s1 := rotr v.e 6 ^^^ rotr v.e 11 ^^^ rotr v.e 25
  let ch := (v.e &&& v.f) ^^^ (~~~v.e &&& v.g)
  let t1 := v.h + s1 + ch + k + w
  let s0 := rotr v.a 2 ^^^ rotr v.a 13 ^^^ rotr v.a 22
  let maj := (v.a &&& v.b) ^^^ (v.a &&& v.c) ^^^ (v.b &&& v.c)
  let t2 := s0 + maj
  { a := t1 + t2, b := v.a, c := v.b, d := v.c, e := v.d + t1, f := v.e, g := v.f, h := v.g }

/-- The rounds, in order (rule R135). -/
def hashRounds : List (Word × Word) → Working → Working
  | [], v => v
  | kw :: rest, v => hashRounds rest (hashRound v kw.1 kw.2)

/-- The working variables after round 63 (rule R135). -/
def compressed (b : EntropyBytes) : Working :=
  hashRounds (roundConstants.zip (schedule (messageBlock b))) initialHash

/-- The digest words `Dw[0..7]` (rule R135). -/
def digestWords (b : EntropyBytes) : List Word :=
  let h := initialHash
  let v := compressed b
  [h.a + v.a, h.b + v.b, h.c + v.c, h.d + v.d, h.e + v.e, h.f + v.f, h.g + v.g, h.h + v.h]

/-- `HASH256`: the digest bytes, each digest word most significant byte first (rules R133, R135). -/
def hash256 (b : EntropyBytes) : Vector Byte 32 :=
  Vector.ofFn fun i => lane ((digestWords b).getD (i.val / 4) 0) (i.val % 4)

end Sys2Proof.Machine
end

