-- ==== Sys2Proof/Machine/Checksum.lean ====
section
/-! DEFINITION. The checksum engine: `cksum4` (rules R130, R131) and CKSUM (rule R136). -/

namespace Sys2Proof.Machine

/-- `cksum4(B)`: the high nibble of the first digest byte, `D[0][7:4]` (rules R130, R131). -/
def cksum4 (b : EntropyBytes) : Checksum := (byteAt (hash256 b) 0).extractLsb' 4 4

/-- `CHK <- cksum4(BYTES)` (rule R136). -/
def cksumStep (s : State) : Except Cause State := .ok (s.setChk (cksum4 s.bytes))

/-- CKSUM (rule R136). -/
def execCksum (s : State) : Host.Outcome State Fault Refusal := command .cksum cksumStep s

end Sys2Proof.Machine
end

