-- ==== Sys2Proof/Machine/Codec.lean ====
section
/-! DEFINITION. The mnemonic codec: PACK, UNPACK (rules R151 to R153), VERIFY (rules R156, R157), the
wordlist's two ports (rules R36, R158, R159) and IDX2W, W2IDX, LOOKUP, WORDAT (rules R160 to R164). -/

namespace Sys2Proof.Machine

/-! ## Slices -/

/-- The packed value `P = ENT ‖ CHK` (rule R151). -/
def packed (e : Entropy) (c : Checksum) : Packed := e ++ c

/-- `IDX[k] <- slice k of ENT ‖ CHK` (rule R152). -/
def packStep (s : State) : Except Cause State :=
  .ok (s.setIdx (Vector.ofFn fun k => slice (packed s.ent s.chk) k))

/-- PACK (rule R152). -/
def execPack (s : State) : Host.Outcome State Fault Refusal := command .pack packStep s

/-- `acc := 0; for k in 0..11: acc := (acc << 11) | IDX[k]` (rule R153). -/
def foldIndices (v : Vector Index 12) : Packed :=
  v.toList.foldl (fun acc x => (acc <<< 11) ||| x.setWidth 132) 0

/-- `CHK <- acc[3:0]; ENT <- acc[131:4]` (rule R153). -/
def unpackStep (s : State) : Except Cause State :=
  let acc := foldIndices s.idx
  .ok ((s.setChk (acc.extractLsb' 0 4)).setEnt (acc.extractLsb' 4 128))

/-- UNPACK (rule R153). -/
def execUnpack (s : State) : Host.Outcome State Fault Refusal := command .unpack unpackStep s

/-! ## The checksum comparison -/

/-- `verify_fn(e, c)` (rule R156). -/
def verifyFn (e : Entropy) (c : Checksum) : Bool := cksum4 (toBytes e) == c

/-- No destination; Checksum on a mismatch (rule R157). -/
def verifyStep (s : State) : Except Cause State :=
  if verifyFn s.ent s.chk then .ok s else .error .checksum

/-- VERIFY (rule R157). -/
def execVerify (s : State) : Host.Outcome State Fault Refusal := command .verify verifyStep s

/-! ## The wordlist ports -/

/-- The read port `WL[i]`, asked for `i < WL_SIZE` only (rules R11, R36). -/
def wlAt (wl : List WordKey) (i : Index) : WordKey := wl.getD i.toNat zeroKey

/-- The match port `cam(k)`: the lowest index whose entry equals the folded key in all 8 bytes; none
is a miss (rules R158, R159). The index has 11 bits, enough for the 2048 entries of rule R5 (log entry 10:
a longer list is no configuration of the block). -/
def cam (wl : List WordKey) (k : WordKey) : Option Index :=
  (wl.findIdx? fun e => e == foldKey k).map (BitVec.ofNat 11)

/-- InternalInvariant at the lowest slot with `IDX[k] >= WL_SIZE`, else `WORD[k] <- WL[IDX[k]]`
(rule R160). -/
def idx2wStep (s : State) : Except Cause State :=
  match s.idx.toList.findIdx? fun i => decide (s.wl.length ≤ i.toNat) with
  | some k => .error (.internalInvariant k)
  | none => .ok (s.setWord (Vector.ofFn fun k => wlAt s.wl s.idx[k]))

/-- IDX2W (rule R160). -/
def execIdx2w (s : State) : Host.Outcome State Fault Refusal := command .idx2w idx2wStep s

/-- WORD_COUNT, then UNKNOWN_WORD at the lowest slot that misses, else `IDX[k] <- cam(WORD[k])`
(rule R161). -/
def w2idxStep (s : State) : Except Cause State :=
  if s.nwords.toNat ≠ Config.nWords then .error (.wordCount s.nwords)
  else
    match s.word.toList.findIdx? fun w => (cam s.wl w).isNone with
    | some k => .error (.unknownWord k)
    | none => .ok (s.setIdx (Vector.ofFn fun k => (cam s.wl s.word[k]).getD 0))

/-- W2IDX (rule R161). -/
def execW2idx (s : State) : Host.Outcome State Fault Refusal := command .w2idx w2idxStep s

/-- `KIDX` and `HIT` from `cam(KEY)`; a miss is an answer, not an error (rule R163). -/
def lookupEffect (s : State) : State :=
  match cam s.wl s.key with
  | some i => (s.setKidx i).setStatus (statusLookup true)
  | none => (s.setKidx 0).setStatus (statusLookup false)

/-- LOOKUP (rule R163), the one command that may set `HIT` (rule R34). -/
def execLookup (s : State) : Host.Outcome State Fault Refusal := .next (lookupEffect s)

/-- `KEY <- WL[KIDX]`, or InternalInvariant (rule R164). -/
def wordatStep (s : State) : Except Cause State :=
  if s.wl.length ≤ s.kidx.toNat then .error (.internalInvariant 0)
  else .ok (s.setKey (wlAt s.wl s.kidx))

/-- WORDAT (rule R164). -/
def execWordat (s : State) : Host.Outcome State Fault Refusal := command .wordat wordatStep s

end Sys2Proof.Machine
end

