-- ==== Sys2Proof/Machine/Composite.lean ====
section
/-! DEFINITION. The composite commands: the steps of their rules in order, each on the registers as the
steps before it left them, ended by the first error (rules R180 to R184). -/

namespace Sys2Proof.Machine

/-- E2B, CKSUM, PACK, IDX2W (rule R181). -/
def genwSteps (s : State) : Except Cause State :=
  e2bStep s >>= cksumStep >>= packStep >>= idx2wStep

/-- GENW (rule R181). -/
def execGenw (s : State) : Host.Outcome State Fault Refusal := command .genw genwSteps s

/-- W2IDX, UNPACK, VERIFY (rule R182). -/
def geteSteps (s : State) : Except Cause State := w2idxStep s >>= unpackStep >>= verifyStep

/-- GETE (rule R182). -/
def execGete (s : State) : Host.Outcome State Fault Refusal := command .gete geteSteps s

/-- PARSE, then the steps of GENW (rule R183). -/
def encSteps (s : State) : Except Cause State := parseStep s >>= genwSteps

/-- ENC (rule R183). -/
def execEnc (s : State) : Host.Outcome State Fault Refusal := command .enc encSteps s

/-- The steps of GETE, then RENDER (rule R184). -/
def decSteps (s : State) : Except Cause State := geteSteps s >>= renderStep

/-- DEC (rule R184). -/
def execDec (s : State) : Host.Outcome State Fault Refusal := command .dec decSteps s

end Sys2Proof.Machine
end

