-- ==== Sys2Proof/Machine/System.lean ====
section
/-! DEFINITION. NOP, CLR and the illegal command (rules R200 to R202). -/

namespace Sys2Proof.Machine

/-- NOP: `STATUS <- OK` and nothing else (rule R200). -/
def execNop (s : State) : Host.Outcome State Fault Refusal := command .nop .ok s

/-- CLR: every data register `<- 0`; `CMD` keeps its word (rule R201). -/
def execClr (s : State) : Host.Outcome State Fault Refusal :=
  command .clr (fun t => .ok (zeroRegs (dests .clr) t)) s

/-- The illegal command `v`: `raise IllegalCommand(0, v[7:0])`, no destination (rules R74, R202). -/
def execIllegal (v : Word) (s : State) : Host.Outcome State Fault Refusal :=
  .next (raise [] (.illegalCommand (v.extractLsb' 0 8)) s)

end Sys2Proof.Machine
end

