-- ==== Sys2Proof/Machine/Dispatch.lean ====
section
/-! DEFINITION. One arm per command (rule R72). -/

namespace Sys2Proof.Machine

/-- The effect of a command on the registers as they stand when its word is in `CMD`. -/
def exec (i : Instr) (s : State) : Host.Outcome State Fault Refusal :=
  match i with
  | .nop => Sys2Proof.Machine.execNop s
  | .parse => Sys2Proof.Machine.execParse s
  | .render => Sys2Proof.Machine.execRender s
  | .e2b => Sys2Proof.Machine.execE2b s
  | .b2e => Sys2Proof.Machine.execB2e s
  | .cksum => Sys2Proof.Machine.execCksum s
  | .pack => Sys2Proof.Machine.execPack s
  | .unpack => Sys2Proof.Machine.execUnpack s
  | .verify => Sys2Proof.Machine.execVerify s
  | .idx2w => Sys2Proof.Machine.execIdx2w s
  | .w2idx => Sys2Proof.Machine.execW2idx s
  | .lookup => Sys2Proof.Machine.execLookup s
  | .wordat => Sys2Proof.Machine.execWordat s
  | .genw => Sys2Proof.Machine.execGenw s
  | .gete => Sys2Proof.Machine.execGete s
  | .enc => Sys2Proof.Machine.execEnc s
  | .dec => Sys2Proof.Machine.execDec s
  | .clr => Sys2Proof.Machine.execClr s

end Sys2Proof.Machine
end

