-- ==== Sys2Proof/Machine/Port.lean ====
section
/-! DEFINITION. The port: one event at a time, each complete before the next (rules R60, R62). -/

namespace Sys2Proof.Machine

/-- The command word `v` written to `CMD`, which already holds it: decoded, then executed, or
reported as illegal (rules R33, R70, R74). -/
def runCommandWord (v : Word) (s : State) : Host.Outcome State Fault Refusal :=
  match decode v with
  | .ok i => exec i s
  | .error _ => execIllegal v s

/-- The word of the window an access of `bytes` bytes at offset `off` names, handed to `k`; refused by
a bus error unless it is an aligned 32-bit access at a listed offset (rules R58, R59). An access
outside the window is not an access to this block (rule R59). -/
def atWindow (off bytes : Nat) (k : WindowReg → Host.Outcome State Fault Refusal) :
    Host.Outcome State Fault Refusal :=
  if Config.windowBytes ≤ off then .refused .outsideWindow
  else if bytes ≠ 4 then .fault .busWidth
  else if off % 4 ≠ 0 then .fault .busAlignment
  else
    match WindowReg.ofOffset off with
    | none => .fault .busReserved
    | some r => k r

/-- A host read: it returns the word and changes no register (rule R55). -/
def serveRead (off bytes : Nat) (s : State) : Host.Outcome State Fault Refusal :=
  atWindow off bytes fun r => .next (s.setReply (some (readReg r s)))

/-- A host write: it stores, and at `CMD` it executes as one transition (rules R56, R62). -/
def serveWrite (off bytes : Nat) (v : Word) (s : State) : Host.Outcome State Fault Refusal :=
  atWindow off bytes fun r =>
    let t := (writeReg r v s).setReply none
    if r = .cmd then runCommandWord v t else .next t

/-- One event at the port (rules R7, R60, R260). -/
def serve (e : PortEvent) (s : State) : Host.Outcome State Fault Refusal :=
  match e with
  | .access (.read off bytes) => serveRead off bytes s
  | .access (.write off bytes v) => serveWrite off bytes v s
  | .reset => .next (resetBlock s)

/-- The event that writes a command word to `CMD` (rule R70). -/
def commandWrite (v : Word) : PortEvent := .access (.write WindowReg.cmd.offset 4 v)

end Sys2Proof.Machine
end

