-- ==== Sys2Proof/Machine/Step.lean ====
section
/-! DEFINITION. One step: the oldest event at the port, or, where none waits, nothing (rules R7, R60).
There is no program counter and nothing is fetched (rule R22). -/

namespace Sys2Proof.Machine

/-- One step of the machine: take the oldest event off the port and serve it. With no event the
block waits (rule R261). -/
def step (s : State) : Host.Outcome State Fault Refusal :=
  match s.port with
  | [] => .next s
  | e :: rest => serve e (s.setPort rest)

/-- `s` with the host's write of the row's command word to `CMD` as the next event at the port: that
is how a command comes to run (rule R33; log entry 3). -/
def State.withFetchWord (s : State) (nbits w : Nat) : State :=
  s.setPort (commandWrite (tableWord nbits w) :: s.port)

end Sys2Proof.Machine
end

