-- ==== Sys2Proof/Machine/Driver.lean ====
section
/-! DEFINITION. Host software around the block: the host program notation and its pseudo-instructions
(rules R82, R83), running a host program, and the source's public operations as host sequences
(rule R186). These rules bind the host; no step of the block reads a definition of this file
(DESIGN CHOICE, log entry 11). -/

namespace Sys2Proof.Machine

/-! ## Notation -/

/-- `WR <reg>, <value>` (rule R82). -/
def wr (r : WindowReg) (v : Word) : PortEvent := .access (.write r.offset 4 v)

/-- `RD <reg>` (rule R82). -/
def rd (r : WindowReg) : PortEvent := .access (.read r.offset 4)

/-- `CMD <mnemonic>` (rule R82). -/
def cmdLine (i : Instr) : PortEvent := wr .cmd (encode i)

/-- `LDENT <v128>` (rule R83). -/
def ldEnt (v : Entropy) : List PortEvent := (List.finRange 4).map fun j => wr (.ent j) (entWord v j)

/-- `LDBYTES <16 bytes>` (rule R83). -/
def ldBytes (b : EntropyBytes) : List PortEvent :=
  (List.finRange 4).map fun j => wr (.byt j) (laneWord b j)

/-- Word `j` of a text of any length, 0x00 past its end (rule R83). -/
def textWord (t : List Byte) (j : Nat) : Word :=
  t.getD (4 * j) 0 ++ t.getD (4 * j + 1) 0 ++ t.getD (4 * j + 2) 0 ++ t.getD (4 * j + 3) 0

/-- `LDTEXT "<s>"`: the words that hold the text, then its length (rule R83). A text of more than 64
bytes cannot be loaded (rule R269). -/
def ldText (t : List Byte) : Option (List PortEvent) :=
  if t.length ≤ Config.textMax then
    some (((List.finRange 16).filter fun j => 4 * j.val < t.length).map
        (fun j => wr (.text j) (textWord t j.val)) ++
      [wr .textLen (BitVec.ofNat 32 t.length)])
  else none

/-- The two writes of a key to `WORD[k]`. -/
def ldWordKey (k : Fin 12) (key : WordKey) : List PortEvent :=
  (List.finRange 2).map fun j => wr (.word k j) (laneWord key j)

/-- `LDWORD <k>, "<w>"` (rule R83). -/
def ldWord (k : Fin 12) (w : List Byte) : Option (List PortEvent) := (keyOf w).map (ldWordKey k)

/-- The two writes of a key to `KEY`. -/
def ldKeyKey (key : WordKey) : List PortEvent :=
  (List.finRange 2).map fun j => wr (.key j) (laneWord key j)

/-- `LDKEY "<w>"` (rule R83). -/
def ldKey (w : List Byte) : Option (List PortEvent) := (keyOf w).map ldKeyKey

/-- `LDIDX <k>, <v>` (rule R83). -/
def ldIdx (k : Fin 12) (v : Word) : List PortEvent := [wr (.idx k) v]

/-- Twelve `LDWORD`, then `WR NWORDS` (rule R186). -/
def ldMnemonic (keys : Vector WordKey 12) (n : BitVec 8) : List PortEvent :=
  (List.finRange 12).flatMap (fun k => ldWordKey k keys[k]) ++ [wr .nwords (n.setWidth 32)]

/-! ## Running a host program -/

/-- Serve everything that waits at the port, oldest first: as many steps as there are events. -/
def runPort (s : State) : Host.Outcome State Fault Refusal := Sys2Proof.core.run s.port.length s

/-! ## The source's public operations (rule R186) -/

/-- Read the entropy, word by word. -/
def rdEnt : List PortEvent := (List.finRange 4).map fun j => rd (.ent j)

/-- Read the text length, then the text. -/
def rdText : List PortEvent := rd .textLen :: (List.finRange 16).map fun j => rd (.text j)

/-- Read the twelve words. -/
def rdWords : List PortEvent :=
  (List.finRange 12).flatMap fun k => (List.finRange 2).map fun j => rd (.word k j)

/-- `ip6ToBigInt(address)`. -/
def ip6ToBigIntProgram (t : List Byte) : Option (List PortEvent) :=
  (ldText t).map fun ld => ld ++ [cmdLine .parse, rd .status] ++ rdEnt

/-- `bigIntToIp6(value)`. -/
def bigIntToIp6Program (v : Entropy) : List PortEvent := ldEnt v ++ [cmdLine .render] ++ rdText

/-- `generateWords(entropy)`. -/
def generateWordsProgram (v : Entropy) : List PortEvent :=
  ldEnt v ++ [cmdLine .genw, rd .status] ++ rdWords

/-- `getEntropyFromWords(words)`. -/
def getEntropyFromWordsProgram (keys : Vector WordKey 12) (n : BitVec 8) : List PortEvent :=
  ldMnemonic keys n ++ [cmdLine .gete, rd .status] ++ rdEnt

/-- `ip6ToSentence(address)` up to the words the host formats. -/
def ip6ToSentenceProgram (t : List Byte) : Option (List PortEvent) :=
  (ldText t).map fun ld => ld ++ [cmdLine .enc, rd .status] ++ rdWords

/-- `sentenceToIp6(sentence)` from the words the host's tokenizer found; the tokenizer itself, which asks
the block, stands in Machine/Sentence.lean. -/
def sentenceToIp6Program (keys : Vector WordKey 12) (n : BitVec 8) : List PortEvent :=
  ldMnemonic keys n ++ [cmdLine .dec, rd .status] ++ rdText

end Sys2Proof.Machine
end

