-- ==== Sys2Proof/Machine/Sentence.lean ====
section
/-! DEFINITION. The Sentence Formatter, host software around the block: a sentence scheme and the
reference one (rules R211 to R213, R218), and the inverse direction, in which the host asks the block about
one token after another, loads and counts the accepted words and has them decoded (rules R214 to
R216). These rules bind the host; no step of the block reads a definition of this file (DESIGN CHOICE,
log entry 11). -/

namespace Sys2Proof.Machine

/-! ## Schemes -/

/-- A scheme of the host's choice (rules R211, R213). It is no part of the block's state. -/
structure Scheme where
  /-- one sentence from the words, in slot order -/
  format : List (List Byte) → List Byte
  /-- split a sentence into tokens and normalise each -/
  tokens : List Byte → List (List Byte)
  /-- the token with the scheme's reversible transformation undone, if it may bear one -/
  strip : List Byte → Option (List Byte)
  /-- the scheme's own connector and filler words -/
  fillers : List (List Byte)

/-- The tokens that are none of the scheme's own filler words: each must be a wordlist word (rule R216). -/
def Scheme.candidates (sch : Scheme) (toks : List (List Byte)) : List (List Byte) :=
  toks.filter fun x => decide (x ∉ sch.fillers)

/-- The host's sentence from the words the block holds, in slot order (rule R212). -/
def sentenceOf (sch : Scheme) (s : State) : List Byte := sch.format (s.word.toList.map wordOf)

/-! ## The reference scheme (rule R218) -/

/-- `format(w[0..11])`: the words as they stand, one space between two (rule R218). -/
def formatWords (w : List (List Byte)) : List Byte := [0x20].intercalate w

/-- Cut a sentence at its `WS` bytes; `cur` is the current piece, newest byte first. -/
def wsPieces : List Byte → List Byte → List (List Byte)
  | [], cur => [cur.reverse]
  | b :: rest, cur => if isWs b then cur.reverse :: wsPieces rest [] else wsPieces rest (b :: cur)

/-- The tokens of a sentence: trimmed and split on runs of `WS` bytes (rule R218). -/
def sentenceTokens (t : List Byte) : List (List Byte) := (wsPieces t []).filter fun x => !x.isEmpty

/-- `unformat`: every token must be a wordlist word and there must be twelve; none is the host's own
failure of the decode (rules R216, R218). A token longer than 8 bytes has no key and so fails
(rule R81). -/
def unformat (wl : List WordKey) (t : List Byte) : Option (List (List Byte)) :=
  let ts := sentenceTokens t
  let known (w : List Byte) : Bool :=
    match keyOf w with
    | some k => (cam wl k).isSome
    | none => false
  if ts.length = Config.nWords ∧ ts.all known then some ts else none

/-- The plain join: every token is a candidate, no fillers, no transformation (rule R218). -/
def referenceScheme : Scheme where
  format := formatWords
  tokens := sentenceTokens
  strip := fun _ => none
  fillers := []

/-! ## Talking to the block -/

/-- Why the host ends a decode itself. -/
inductive HostStop where
  /-- the host raises an error of the block's kinds itself (rules R214, R216) -/
  | raised (c : Cause)
  /-- a 256th accepted word: `NWORDS` cannot count it (rule R215) -/
  | tooManyWords
  /-- the port gave an access no step or a read no data; no access of this file has this end -/
  | noAnswer
deriving DecidableEq, Repr

/-- Make the accesses, one after another, with nothing else at the port (rule R267). -/
def perform (p : List PortEvent) (s : State) : Except HostStop State :=
  match runPort (s.setPort p) with
  | .next t => .ok t
  | .fault _ => .error .noAnswer
  | .refused _ => .error .noAnswer

/-- Make the accesses, then read `r`: the word the port returned. -/
def performRead (p : List PortEvent) (r : WindowReg) (s : State) : Except HostStop (Word × State) :=
  perform (p ++ [rd r]) s >>= fun t =>
    match t.reply with
    | some v => .ok (v, t)
    | none => .error .noAnswer

/-- `LDKEY`, `CMD LOOKUP`, read `STATUS.HIT`: is the key a wordlist entry? (rule R214) -/
def askBlock (key : WordKey) (s : State) : Except HostStop (Bool × State) :=
  performRead (ldKeyKey key ++ [cmdLine .lookup]) .status s >>= fun (v, t) =>
    .ok (v.extractLsb' 16 1 == 1, t)

/-! ## The inverse direction (rules R213 to R216) -/

/-- The key of the first of these tokens the block knows. A token without a key, longer than 8 bytes, is
a miss and is not asked for (rules R81, R216). -/
def findWord : List (List Byte) → State → Except HostStop (Option WordKey × State)
  | [], s => .ok (none, s)
  | w :: rest, s =>
    match keyOf w with
    | none => findWord rest s
    | some key =>
      askBlock key s >>= fun (hit, t) => if hit then .ok (some key, t) else findWord rest t

/-- How the host hands an accepted word to the block (rule R214), and what it does with a token that
misses (rule R216). -/
inductive Handing where
  /-- its key to `WORD[k]`; a miss is the host's own failure -/
  | words
  /-- its key to `WORD[k]`; the key of a miss, where it has one and a slot is left, is loaded too, for
  W2IDX to find -/
  | wordsAndMisses
  /-- the index LOOKUP returned to `IDX[k]`; a miss is the host's own failure -/
  | indices
deriving DecidableEq, Repr

/-- The accepted word, or what becomes of a token that misses with `n` words accepted before it: its
literal key where the host loads misses and slot `n` exists to hold it, else UNKNOWN_WORD, raised by the
host (rule R216). -/
def keyToLoad (h : Handing) (n : Nat) (tok : List Byte) (found : Option WordKey) :
    Except HostStop WordKey :=
  match found with
  | some key => .ok key
  | none =>
    match h with
    | .words | .indices => .error (.raised (.unknownWord n))
    | .wordsAndMisses =>
      match keyOf tok with
      | some key => if n < 12 then .ok key else .error (.raised (.unknownWord n))
      | none => .error (.raised (.unknownWord n))

/-- Write an accepted word to slot `n`; past the last slot nothing is written (rule R215). The index is
the one the LOOKUP of this word has just left in `KIDX` (rule R163). -/
def handWord (h : Handing) (n : Nat) (key : WordKey) (s : State) : Except HostStop State :=
  if hn : n < 12 then
    match h with
    | .words | .wordsAndMisses => perform (ldWordKey ⟨n, hn⟩ key) s
    | .indices => performRead [] .kidx s >>= fun (v, t) => perform (ldIdx ⟨n, hn⟩ v) t
  else .ok s

/-- Token after token, with `n` words accepted so far: discard a filler, ask for the literal token and
then for the stripped one, hand on the word, count it, up to 255 (rules R213 to R216). -/
def loadTokens (sch : Scheme) (h : Handing) :
    List (List Byte) → Nat → State → Except HostStop (Nat × State)
  | [], n, s => .ok (n, s)
  | tok :: rest, n, s =>
    if tok ∈ sch.fillers then loadTokens sch h rest n s
    else
      findWord (tok :: (sch.strip tok).toList) s >>= fun (found, t) =>
        keyToLoad h n tok found >>= fun key =>
          if n < 255 then handWord h n key t >>= loadTokens sch h rest (n + 1)
          else .error .tooManyWords

/-- Does the host leave the misses of these tokens to W2IDX? If it would (`misses`), it does so for twelve
candidates only: with any other count W2IDX stops at the count and finds no miss, and a miss must fail
the decode with UNKNOWN_WORD (rules R161, R216). -/
def Scheme.leavesMisses (sch : Scheme) (misses : Bool) (toks : List (List Byte)) : Bool :=
  misses && (sch.candidates toks).length == Config.nWords

/-- A sentence's words into `WORD`, their count into `NWORDS` (rules R214, R215); `misses` says whether
the host loads the keys of tokens that miss, where W2IDX will find them (rule R216). -/
def loadSentence (sch : Scheme) (misses : Bool) (t : List Byte) (s : State) : Except HostStop State :=
  let h : Handing := if sch.leavesMisses misses (sch.tokens t) then .wordsAndMisses else .words
  loadTokens sch h (sch.tokens t) 0 s >>= fun (n, u) =>
    perform [wr .nwords (BitVec.ofNat 32 n)] u

/-- The sentence decoded by `cmd`, which is GETE or DEC, up to the read of `STATUS` (rule R214). -/
def decodeSentence (sch : Scheme) (misses : Bool) (cmd : Instr) (t : List Byte) (s : State) :
    Except HostStop State :=
  loadSentence sch misses t s >>= perform [cmdLine cmd, rd .status]

/-- The other way: the indices to `IDX`, the host's own count check, then UNPACK and VERIFY, up to the
read of `STATUS` (rule R214). -/
def decodeSentenceByIndices (sch : Scheme) (t : List Byte) (s : State) : Except HostStop State :=
  loadTokens sch .indices (sch.tokens t) 0 s >>= fun (n, u) =>
    if n = Config.nWords then perform [cmdLine .unpack, cmdLine .verify, rd .status] u
    else .error (.raised (.wordCount (BitVec.ofNat 8 n)))

end Sys2Proof.Machine
end

