-- ==== Sys2Proof/Safety.lean ====
section
/-! DEFINITION. The terms claims are stated in: registers that agree, the legal forms of `STATUS`, the
state invariant, and the words a sentence scheme accepts. -/

namespace Sys2Proof.Machine

/-- The two states hold the same value in one data register. -/
def sameReg (s t : State) : DataReg → Prop
  | .ent => t.ent = s.ent
  | .bytes => t.bytes = s.bytes
  | .chk => t.chk = s.chk
  | .idx => t.idx = s.idx
  | .nwords => t.nwords = s.nwords
  | .kidx => t.kidx = s.kidx
  | .key => t.key = s.key
  | .word => t.word = s.word
  | .text => t.text = s.text
  | .textLen => t.textLen = s.textLen

/-- The data register holds zero. -/
def regIsZero (t : State) : DataReg → Prop
  | .ent => t.ent = 0
  | .bytes => ∀ i : Fin 16, t.bytes[i] = 0
  | .chk => t.chk = 0
  | .idx => ∀ k : Fin 12, t.idx[k] = 0
  | .nwords => t.nwords = 0
  | .kidx => t.kidx = 0
  | .key => ∀ j : Fin 8, t.key[j] = 0
  | .word => ∀ (k : Fin 12) (j : Fin 8), t.word[k][j] = 0
  | .text => ∀ i : Fin 64, t.text[i] = 0
  | .textLen => t.textLen = 0

/-- What no command writes: `CMD` (rule R33), the wordlist (rule R36), the port and its reply. -/
def sameOutside (s t : State) : Prop :=
  t.cmd = s.cmd ∧ t.wl = s.wl ∧ t.port = s.port ∧ t.reply = s.reply

/-- The end of a command that reports `st` as an error: its destinations zero, everything else as it
was (rule R240). -/
def raisedAs (i : Instr) (st : StatusBits) (s : State) : State := (zeroRegs (dests i) s).setStatus st

/-- The forms rule R232 lists for an error's `STATUS`, with the bounds of its `INFO`; slots and group
indexes are those of twelve words and eight groups. -/
def statusErrorForm (err sub info : Nat) : Prop :=
  (err = 1 ∧ sub = 1 ∧ info = 0) ∨
  (err = 1 ∧ sub = 2 ∧ info = 0) ∨
  (err = 1 ∧ sub = 3 ∧ 9 ≤ info ∧ info ≤ 32) ∨
  (err = 1 ∧ sub = 4 ∧ info ≤ 7) ∨
  (err = 1 ∧ sub = 5 ∧ info ≤ 7) ∨
  (err = 2 ∧ sub = 1 ∧ info ≠ 12) ∨
  (err = 2 ∧ sub = 2 ∧ info ≤ 11) ∨
  (err = 3 ∧ sub = 0 ∧ info = 0) ∨
  (err = 4 ∧ sub = 0 ∧ info ≤ 11) ∨
  (err = 5 ∧ sub = 0)

/-- The legal forms of `STATUS`: success, with `HIT` as LOOKUP leaves it, or an error with `HIT = 0`
(rules R34, R231, R232). -/
def statusLegal (st : StatusBits) : Prop :=
  (statusErr st = 0 ∧ statusSub st = 0 ∧ statusInfo st = 0) ∨
  (statusHit st = 0 ∧
    statusErrorForm (statusErr st).toNat (statusSub st).toNat (statusInfo st).toNat)

/-- The invariant of every reachable state: `TEXT_LEN` has a legal value (rule R30) and `STATUS` one of
the listed forms (rule R232). -/
structure State.Inv (s : State) : Prop where
  textLen : s.textLen.toNat ≤ Config.textMax
  status : statusLegal s.status

/-- A token is accepted with `key`: its own key is a wordlist entry, or it has none that is and the key of
the token stripped of the scheme's transformation is one (rules R213, R214). -/
def Scheme.accepts (sch : Scheme) (wl : List WordKey) (tok : List Byte) (key : WordKey) : Prop :=
  (keyOf tok = some key ∧ cam wl key ≠ none) ∨
    ((∀ k, keyOf tok = some k → cam wl k = none) ∧
      ∃ w, sch.strip tok = some w ∧ keyOf w = some key ∧ cam wl key ≠ none)

/-- No form of a token is a wordlist entry (rule R216). -/
def Scheme.misses (sch : Scheme) (wl : List WordKey) (tok : List Byte) : Prop :=
  (∀ k, keyOf tok = some k → cam wl k = none) ∧
    ∀ w, sch.strip tok = some w → ∀ k, keyOf w = some k → cam wl k = none

/-- A token's word as a run loads it: the key it is accepted with, or, where the host loads misses, the
literal key of a token that misses (rules R214, R216). -/
def Scheme.loads (sch : Scheme) (misses : Bool) (wl : List WordKey) (tok : List Byte)
    (key : WordKey) : Prop :=
  sch.accepts wl tok key ∨ (misses = true ∧ sch.misses wl tok ∧ keyOf tok = some key)

/-- The tokens, but for the scheme's own filler words, load these keys, in order (rules R214 to R216). -/
def Scheme.loadsAll (sch : Scheme) (misses : Bool) (wl : List WordKey) (toks : List (List Byte))
    (keys : List WordKey) : Prop :=
  List.Forall₂ (sch.loads misses wl) (sch.candidates toks) keys

end Sys2Proof.Machine
end

