-- ==== Sys2Proof/Certificates/Slice0/Obligations.lean ====
section
/-! DEFINITION. The statements for the provers. Each docstring names the rule of the spec it formalises,
or the sections it rests on and the log entry of any choice of the model's it touches. -/

open Sys2Proof Sys2Proof.Machine

/-! ## Reset, decoding, the step -/

/-- R38: every register is zero after reset, `ID` and `PARAM` read their constants, and the wordlist is
the configured one. -/
def Obligations.ResetStateIsAllZero : Prop :=
  (∀ r : DataReg, regIsZero State.reset r) ∧ State.reset.cmd = 0 ∧ State.reset.status = 0 ∧
    readReg .id State.reset = 0x49503653 ∧ readReg .param State.reset = 0x40080800 ∧
    State.reset.wl = Config.wordlist

/-- R260, R261: a reset pulse brings every register of any state to zero, whatever the state was, and
touches neither the wordlist, nor `ID`, nor `PARAM`. That the events behind it still wait is the
model's own (log entry 2). -/
def Obligations.ResetPulseZeroesEveryRegister : Prop :=
  ∀ (s : State) (rest : List PortEvent), s.port = .reset :: rest →
    ∃ t, step s = .next t ∧ (∀ r : DataReg, regIsZero t r) ∧ t.cmd = 0 ∧ t.status = 0 ∧
      t.wl = s.wl ∧ t.port = rest ∧
      readReg .id t = readReg .id s ∧ readReg .param t = readReg .param s

/-- R33, R62, R65, R70: a step whose event is the write of a command word that decodes to a command is
that command on the registers as they stand, with the word in `CMD`. The port's queue and reply are
the model's own (log entry 2). -/
def Obligations.StepRunsTheDecodedCommand : Prop :=
  ∀ (s : State) (rest : List PortEvent) (v : Word) (i : Instr),
    s.port = .access (.write 0x008 4 v) :: rest → decode v = .ok i →
      step s = exec i { s with port := rest, cmd := v, reply := none }

/-- R70, R72: the eighteen words of the opcode map decode to their commands, and three illegal words of R74
and R202 to none. -/
def Obligations.OpcodeMapWordsDecode : Prop :=
  decode 0x00000000 = .ok .nop ∧ decode 0x00000001 = .ok .parse ∧
    decode 0x00000002 = .ok .render ∧ decode 0x00000003 = .ok .e2b ∧
    decode 0x00000004 = .ok .b2e ∧ decode 0x00000005 = .ok .cksum ∧
    decode 0x00000006 = .ok .pack ∧ decode 0x00000007 = .ok .unpack ∧
    decode 0x00000008 = .ok .verify ∧ decode 0x00000009 = .ok .idx2w ∧
    decode 0x0000000A = .ok .w2idx ∧ decode 0x0000000B = .ok .lookup ∧
    decode 0x0000000C = .ok .wordat ∧ decode 0x0000000D = .ok .genw ∧
    decode 0x0000000E = .ok .gete ∧ decode 0x0000000F = .ok .enc ∧
    decode 0x00000010 = .ok .dec ∧ decode 0x00000011 = .ok .clr ∧
    decode 0x00000012 = .error .unknownOpcode ∧ decode 0x00000101 = .error .reservedBits ∧
    decode 0x80000001 = .error .reservedBits

/-- R70, R72, R74, R75: a word decodes to a command exactly when it is that command's one word, so
decoding an encoded command gives it back and no other word, reserved bits included, is a command. -/
def Obligations.DecodeIsInverseOfEncode : Prop :=
  ∀ (v : Word) (i : Instr), decode v = .ok i ↔ v = encode i

/-- R202: every word with a reserved bit set or an opcode above 0x11 is reported as IllegalCommand with
`INFO = v[7:0]`; `CMD` holds it and no data register changes. -/
def Obligations.IllegalCommandWordIsReported : Prop :=
  ∀ (s : State) (rest : List PortEvent) (v : Word), s.port = wr .cmd v :: rest →
    (v.extractLsb' 8 24 ≠ 0 ∨ 0x11 < (v.extractLsb' 0 8).toNat) →
      ∃ t, step s = .next t ∧
        t = { s with
              port := rest, reply := t.reply, cmd := v,
              status := mkStatus 5 0 (v.extractLsb' 0 8) 0 }

/-- R33: a write of any word leaves it in `CMD` and executes the command it encodes, a read returns it
and changes no register, reset clears it, no command writes it. -/
def Obligations.CmdHoldsTheLastWordWritten : Prop :=
  (∀ (s : State) (rest : List PortEvent) (v : Word), s.port = wr .cmd v :: rest →
    ∃ t, step s = .next t ∧ t.cmd = v ∧ t.port = rest ∧
      ∀ i : Instr, decode v = .ok i →
        ∃ r, step s = exec i { s with port := rest, cmd := v, reply := r }) ∧
  (∀ (s : State) (rest : List PortEvent), s.port = rd .cmd :: rest →
    step s = .next { s with port := rest, reply := some s.cmd }) ∧
  State.reset.cmd = 0 ∧
  ∀ (i : Instr) (s t : State), exec i s = .next t → t.cmd = s.cmd

/-- R60: events are served one at a time in the order they reach the port: a step that completes has
taken the oldest event and no other. The queue is the model's own (log entry 2). -/
def Obligations.PortIsServedInOrder : Prop :=
  ∀ (s t : State) (e : PortEvent) (rest : List PortEvent),
    s.port = e :: rest → step s = .next t → t.port = rest

/-! ## The register window -/

/-- R52: every listed word stands at its offset of the map; no other offset names a word; every listed
offset is a multiple of 4 inside the window. -/
def Obligations.RegisterMapIsOneToOne : Prop :=
  WindowReg.offset .id = 0x000 ∧ WindowReg.offset .param = 0x004 ∧ WindowReg.offset .cmd = 0x008 ∧
    WindowReg.offset .status = 0x00C ∧
    (∀ j : Fin 4, WindowReg.offset (.ent j) = 0x010 + 4 * j) ∧
    (∀ j : Fin 4, WindowReg.offset (.byt j) = 0x020 + 4 * j) ∧
    WindowReg.offset .chk = 0x030 ∧ WindowReg.offset .nwords = 0x034 ∧
    WindowReg.offset .kidx = 0x038 ∧ WindowReg.offset .textLen = 0x03C ∧
    (∀ j : Fin 2, WindowReg.offset (.key j) = 0x040 + 4 * j) ∧
    (∀ k : Fin 12, WindowReg.offset (.idx k) = 0x080 + 4 * k) ∧
    (∀ j : Fin 16, WindowReg.offset (.text j) = 0x0C0 + 4 * j) ∧
    (∀ k : Fin 12, WindowReg.offset (.word k 0) = 0x100 + 8 * k ∧
      WindowReg.offset (.word k 1) = 0x104 + 8 * k) ∧
    (∀ (off : Nat) (r : WindowReg), WindowReg.ofOffset off = some r ↔ off = r.offset) ∧
    ∀ r : WindowReg, r.offset % 4 = 0 ∧ r.offset < 0x200

/-- R55: a host read of a listed word returns its contents and changes no register; the contents are
those of R52, narrow registers zero-extended, byte arrays in the lanes of R54. `PARAM` is read on this
hardware, whose wordlist has the 2048 entries of R5 and R32. -/
def Obligations.ReadReturnsTheListedContents : Prop :=
  (∀ (s : State) (rest : List PortEvent) (r : WindowReg), s.port = rd r :: rest →
    step s = .next { s with port := rest, reply := some (readReg r s) }) ∧
  ∀ s : State,
    readReg .id s = 0x49503653 ∧ (s.wl.length = 2048 → readReg .param s = 0x40080800) ∧
    readReg .cmd s = s.cmd ∧
    (readReg .status s).toNat = s.status.toNat ∧
    (readReg .chk s).toNat = s.chk.toNat ∧ (readReg .nwords s).toNat = s.nwords.toNat ∧
    (readReg .kidx s).toNat = s.kidx.toNat ∧ (readReg .textLen s).toNat = s.textLen.toNat ∧
    (∀ j : Fin 4, readReg (.ent j) s = s.ent.extractLsb' (96 - 32 * j) 32) ∧
    (∀ k : Fin 12, (readReg (.idx k) s).toNat = s.idx[k].toNat) ∧
    ∀ m : Fin 4,
      (∀ j : Fin 4, (readReg (.byt j) s).extractLsb' (24 - 8 * m) 8 = s.bytes[4 * j.val + m.val]) ∧
      (∀ j : Fin 2, (readReg (.key j) s).extractLsb' (24 - 8 * m) 8 = s.key[4 * j.val + m.val]) ∧
      (∀ j : Fin 16, (readReg (.text j) s).extractLsb' (24 - 8 * m) 8 = s.text[4 * j.val + m.val]) ∧
      ∀ (k : Fin 12) (j : Fin 2),
        (readReg (.word k j) s).extractLsb' (24 - 8 * m) 8 = s.word[k][4 * j.val + m.val]

/-- R57 with R30: a write of a narrow register stores its implemented low bits and changes nothing else,
`TEXT_LEN` stores `min(v, 64)`, and a read returns the field zero-extended. -/
def Obligations.NarrowRegistersTruncateOrClamp : Prop :=
  ∀ (s : State) (rest : List PortEvent) (v : Word),
    (s.port = wr .chk v :: rest → ∃ t, step s = .next t ∧
      t = { s with port := rest, reply := t.reply, chk := v.extractLsb' 0 4 }) ∧
    (s.port = wr .nwords v :: rest → ∃ t, step s = .next t ∧
      t = { s with port := rest, reply := t.reply, nwords := v.extractLsb' 0 8 }) ∧
    (s.port = wr .kidx v :: rest → ∃ t, step s = .next t ∧
      t = { s with port := rest, reply := t.reply, kidx := v.extractLsb' 0 11 }) ∧
    (∀ k : Fin 12, s.port = wr (.idx k) v :: rest → ∃ t, step s = .next t ∧
      t.idx[k] = v.extractLsb' 0 11 ∧ (∀ j : Fin 12, j ≠ k → t.idx[j] = s.idx[j]) ∧
      t = { s with port := rest, reply := t.reply, idx := t.idx }) ∧
    (s.port = wr .textLen v :: rest → ∃ t, step s = .next t ∧
      t.textLen.toNat = min v.toNat 64 ∧
      t = { s with port := rest, reply := t.reply, textLen := t.textLen }) ∧
    (∀ k : Fin 12, readReg (.idx k) s = s.idx[k].setWidth 32) ∧
    readReg .chk s = s.chk.setWidth 32 ∧ readReg .nwords s = s.nwords.setWidth 32 ∧
    readReg .kidx s = s.kidx.setWidth 32 ∧ readReg .textLen s = s.textLen.setWidth 32

/-- R21, R31, R32, R34, R56: a write and then a read, of any two words of the window but a write of
`CMD`: the word read back is the implemented bits of the word written, `ID`, `PARAM` and `STATUS`
ignore the write, and no other word changes, so no two registers share storage. -/
def Obligations.WriteThenReadOfAnyTwoWords : Prop :=
  ∀ (s : State) (rest : List PortEvent) (r q : WindowReg) (v : Word), r ≠ .cmd →
    s.port = wr r v :: rd q :: rest →
      ∃ t u, step s = .next t ∧ step t = .next u ∧
        u.reply = some
          (if q ≠ r then readReg q s
          else
            match r with
            | .id | .param | .status => readReg r s
            | .cmd | .ent _ | .byt _ | .key _ | .text _ | .word _ _ => v
            | .chk => v &&& 0xF
            | .nwords => v &&& 0xFF
            | .kidx | .idx _ => v &&& 0x7FF
            | .textLen => if v.toNat ≤ 64 then v else 64)

/-- R58, R59: an access of any place and width gets a step exactly when it is a 32-bit access at a listed
offset; otherwise the port answers with a bus error, or, outside the window, the access is not this
block's, and there is no step. Stopping there is the spec's own treatment (log entry 5). -/
def Obligations.OnlyListedWordAccessesGetAStep : Prop :=
  ∀ (s : State) (rest : List PortEvent) (off bytes : Nat) (v : Word) (a : Access),
    (a = .read off bytes ∨ a = .write off bytes v) → s.port = .access a :: rest →
      ((∃ t, step s = .next t) ↔ bytes = 4 ∧ ∃ r : WindowReg, off = r.offset) ∧
      (0x200 ≤ off → step s = .refused .outsideWindow) ∧
      (off < 0x200 → (bytes ≠ 4 ∨ off % 4 ≠ 0 ∨ (∀ r : WindowReg, off ≠ r.offset)) →
        ∃ f, step s = .fault f)

/-! ## System commands -/

/-- R200: NOP clears `STATUS` and changes nothing else. The second clause is NOP as the host issues it:
`CMD` reads 0 afterwards. -/
def Obligations.NopOnlyClearsStatus : Prop :=
  (∀ s : State, exec .nop s = .next { s with status := 0 }) ∧
  ∀ (s : State) (rest : List PortEvent), s.port = wr .cmd 0x00000000 :: rest →
    ∃ t, step s = .next t ∧
      t = { s with cmd := 0, status := 0, port := rest, reply := t.reply }

/-- R201: after CLR the state is the reset state but for `CMD`, which keeps the word just written, and
the wordlist, which nothing writes. The second clause is CLR as the host issues it. -/
def Obligations.ClrReachesResetStateButForCmd : Prop :=
  (∀ s : State, exec .clr s = .next
    { State.reset with cmd := s.cmd, wl := s.wl, port := s.port, reply := s.reply }) ∧
  ∀ (s : State) (rest : List PortEvent), s.port = wr .cmd 0x00000011 :: rest →
    ∃ t, step s = .next t ∧
      t = { State.reset with cmd := 0x00000011, wl := s.wl, port := rest, reply := t.reply }

/-! ## Entropy bytes and the checksum -/

/-- R121: E2B. `BYTES[i]` is `ENT[127-8i : 120-8i]`; nothing else but `STATUS` changes. -/
def Obligations.E2bWritesBigEndianBytes : Prop :=
  ∀ s : State, ∃ t, exec .e2b s = .next t ∧
    (∀ i : Fin 16, t.bytes[i] = s.ent.extractLsb' (120 - 8 * i) 8) ∧
    t = { s with bytes := t.bytes, status := 0 }

/-- R122: B2E. `ENT` is `BYTES[0] ‖ ... ‖ BYTES[15]`; nothing else but `STATUS` changes. -/
def Obligations.B2eConcatenatesTheBytes : Prop :=
  ∀ s : State, ∃ t, exec .b2e s = .next t ∧
    (∀ i : Fin 16, t.ent.extractLsb' (120 - 8 * i) 8 = s.bytes[i]) ∧
    t = { s with ent := t.ent, status := 0 }

/-- R123: the two conversions are exact inverses, as functions and as commands, and after E2B `BYTj` reads
the same word as `ENTj` (the second half of R123 and R121's remark are the spec's own inferences). -/
def Obligations.EntropyAndBytesAreInverses : Prop :=
  (∀ v : Entropy, fromBytes (toBytes v) = v) ∧ (∀ b : EntropyBytes, toBytes (fromBytes b) = b) ∧
  ∀ s t u : State,
    (exec .e2b s = .next t → ∀ j : Fin 4, readReg (.byt j) t = readReg (.ent j) t) ∧
    (exec .e2b s = .next t → exec .b2e t = .next u → u.ent = s.ent) ∧
    (exec .b2e s = .next t → exec .e2b t = .next u → u.bytes = s.bytes)

/-- R130, R131, R136: CKSUM writes `floor(D[0] / 16)`, the high nibble of the first digest byte of
`BYTES`, and nothing else but `STATUS`. -/
def Obligations.CksumTakesTheHighNibble : Prop :=
  ∀ s : State, ∃ t, exec .cksum s = .next t ∧
    t.chk.toNat = (hash256 s.bytes)[0].toNat / 16 ∧ t = { s with chk := t.chk, status := 0 }

/-- R134: the wrapper's message block: four words of entropy bytes, the padding bit, zeros, the length
128. -/
def Obligations.MessageBlockIsPaddedTo512Bits : Prop :=
  ∀ b : EntropyBytes, (messageBlock b).length = 16 ∧
    (∀ j : Fin 4, (messageBlock b)[j.val]? = some
      (b[4 * j.val] ++ b[4 * j.val + 1] ++ b[4 * j.val + 2] ++ b[4 * j.val + 3])) ∧
    (messageBlock b)[4]? = some 0x80000000 ∧
    (∀ t, 5 ≤ t → t ≤ 14 → (messageBlock b)[t]? = some 0) ∧
    (messageBlock b)[15]? = some 0x00000080

/-- R135, the message schedule: 64 words, the first 16 the block's, each later one
`W[t-16] + s0 + W[t-7] + s1`. -/
def Obligations.ScheduleObeysItsRecurrence : Prop :=
  ∀ block : List Word, block.length = 16 →
    (schedule block).length = 64 ∧
    (∀ t, t < 16 → (schedule block)[t]? = block[t]?) ∧
    ∀ t, 16 ≤ t → t < 64 →
      let w (i : Nat) : Word := (schedule block).getD i 0
      w t = w (t - 16) +
        (rotr (w (t - 15)) 7 ^^^ rotr (w (t - 15)) 18 ^^^ (w (t - 15) >>> 3)) + w (t - 7) +
        (rotr (w (t - 2)) 17 ^^^ rotr (w (t - 2)) 19 ^^^ (w (t - 2) >>> 10))

/-- R135, the rounds and the digest, with R137 (the spec's own inference) for the checksum: from the
initial values, 64 rounds, each with its constant and its schedule word; the digest words are the sums,
their bytes most significant first, and the checksum is the top nibble of the first sum. The initial
values and the constants are written out as R135 lists them. -/
def Obligations.DigestIsTheCompressedBlock : Prop :=
  let h : Vector Word 8 :=
    #v[0x6a09e667, 0xbb67ae85, 0x3c6ef372, 0xa54ff53a, 0x510e527f, 0x9b05688c, 0x1f83d9ab, 0x5be0cd19]
  let k : List Word :=
    [0x428a2f98, 0x71374491, 0xb5c0fbcf, 0xe9b5dba5, 0x3956c25b, 0x59f111f1, 0x923f82a4, 0xab1c5ed5] ++
    [0xd807aa98, 0x12835b01, 0x243185be, 0x550c7dc3, 0x72be5d74, 0x80deb1fe, 0x9bdc06a7, 0xc19bf174] ++
    [0xe49b69c1, 0xefbe4786, 0x0fc19dc6, 0x240ca1cc, 0x2de92c6f, 0x4a7484aa, 0x5cb0a9dc, 0x76f988da] ++
    [0x983e5152, 0xa831c66d, 0xb00327c8, 0xbf597fc7, 0xc6e00bf3, 0xd5a79147, 0x06ca6351, 0x14292967] ++
    [0x27b70a85, 0x2e1b2138, 0x4d2c6dfc, 0x53380d13, 0x650a7354, 0x766a0abb, 0x81c2c92e, 0x92722c85] ++
    [0xa2bfe8a1, 0xa81a664b, 0xc24b8b70, 0xc76c51a3, 0xd192e819, 0xd6990624, 0xf40e3585, 0x106aa070] ++
    [0x19a4c116, 0x1e376c08, 0x2748774c, 0x34b0bcb5, 0x391c0cb3, 0x4ed8aa4a, 0x5b9cca4f, 0x682e6ff3] ++
    [0x748f82ee, 0x78a5636f, 0x84c87814, 0x8cc70208, 0x90befffa, 0xa4506ceb, 0xbef9a3f7, 0xc67178f2]
  ∀ b : EntropyBytes, ∃ v : Nat → Working,
    v 0 = { a := h[0], b := h[1], c := h[2], d := h[3], e := h[4], f := h[5], g := h[6], h := h[7] } ∧
    (∀ t, t < 64 →
      let x := v t
      let t1 := x.h + (rotr x.e 6 ^^^ rotr x.e 11 ^^^ rotr x.e 25) +
        ((x.e &&& x.f) ^^^ (~~~x.e &&& x.g)) + k.getD t 0 + (schedule (messageBlock b)).getD t 0
      let t2 := (rotr x.a 2 ^^^ rotr x.a 13 ^^^ rotr x.a 22) +
        ((x.a &&& x.b) ^^^ (x.a &&& x.c) ^^^ (x.b &&& x.c))
      v (t + 1) =
        { a := t1 + t2, b := x.a, c := x.b, d := x.c, e := x.d + t1, f := x.e, g := x.f, h := x.g }) ∧
    (∀ (i : Fin 8) (m : Fin 4),
      let y := v 64
      let final : Vector Word 8 := #v[y.a, y.b, y.c, y.d, y.e, y.f, y.g, y.h]
      (hash256 b)[4 * i.val + m.val] = (h[i] + final[i]).extractLsb' (24 - 8 * m) 8) ∧
    cksum4 b = (h[0] + (v 64).a).extractLsb' 28 4

/-! ## The mnemonic codec -/

/-- R152: PACK. `IDX[k]` is bits `131-11k : 121-11k` of `ENT ‖ CHK`, with `CHK` as it stands; nothing
else but `STATUS` changes. -/
def Obligations.PackWritesTheSlices : Prop :=
  ∀ s : State, ∃ t, exec .pack s = .next t ∧
    (∀ k : Fin 12, t.idx[k] = (s.ent ++ s.chk).extractLsb' (121 - 11 * k) 11) ∧
    t = { s with idx := t.idx, status := 0 }

/-- R153: UNPACK. `ENT ‖ CHK` is `IDX[0] ‖ ... ‖ IDX[11]`, unverified; nothing else but `STATUS`
changes. -/
def Obligations.UnpackConcatenatesTheIndices : Prop :=
  ∀ s : State, ∃ t, exec .unpack s = .next t ∧
    (∀ k : Fin 12, (t.ent ++ t.chk).extractLsb' (121 - 11 * k) 11 = s.idx[k]) ∧
    t = { s with ent := t.ent, chk := t.chk, status := 0 }

/-- R154 (the spec's own inference): PACK then UNPACK restores `ENT` and `CHK`; UNPACK then PACK
restores the twelve indices. -/
def Obligations.PackAndUnpackAreInverses : Prop :=
  ∀ s t u : State,
    (exec .pack s = .next t → exec .unpack t = .next u → u.ent = s.ent ∧ u.chk = s.chk) ∧
    (exec .unpack s = .next t → exec .pack t = .next u → u.idx = s.idx)

/-- R157: VERIFY reports `OK` or Checksum, as the recomputed checksum equals `CHK` or not, and writes no
data register in either case. -/
def Obligations.VerifyComparesAndWritesNothing : Prop :=
  ∀ s : State,
    (cksum4 (toBytes s.ent) = s.chk → exec .verify s = .next { s with status := 0 }) ∧
    (cksum4 (toBytes s.ent) ≠ s.chk → exec .verify s = .next { s with status := 0x00003 })

/-- R158, R159: the CAM answers the lowest index whose entry equals the key with its ASCII capitals
folded, in all 8 bytes, and misses when no entry does. -/
def Obligations.CamFindsTheLowestExactMatch : Prop :=
  ∀ (wl : List WordKey) (k f : WordKey), wl.length ≤ 2048 →
    (∀ j : Fin 8, f[j] = if 0x41 ≤ k[j].toNat ∧ k[j].toNat ≤ 0x5A then k[j] + 0x20 else k[j]) →
    (∀ i : Index, cam wl k = some i ↔
      wl[i.toNat]? = some f ∧ ∀ j, j < i.toNat → wl[j]? ≠ some f) ∧
    (cam wl k = none ↔ f ∉ wl)

/-- R160: IDX2W. With every index below `WL_SIZE` each `WORD[k]` is entry `IDX[k]`, a canonical key when
the wordlist is valid; otherwise InternalInvariant at the lowest slot, and `WORD` is zero. Nothing else
but `STATUS` changes. -/
def Obligations.Idx2wReadsTheEntries : Prop :=
  ∀ s : State,
    (∀ w : Vector WordKey 12, (∀ k : Fin 12, s.wl[s.idx[k].toNat]? = some w[k]) →
      exec .idx2w s = .next { s with word := w, status := 0 } ∧
        (Wordlist.valid s.wl → ∀ k : Fin 12, w[k].canonical = true)) ∧
    ∀ k : Fin 12, s.wl.length ≤ s.idx[k].toNat →
      (∀ j : Fin 12, j < k → s.idx[j].toNat < s.wl.length) →
      exec .idx2w s = .next
        { s with
          word := Vector.replicate 12 zeroKey, status := mkStatus 4 0 (BitVec.ofNat 8 k) 0 }

/-- R161: W2IDX. The count first, then the lowest slot that misses, each leaving `IDX` zero; with twelve
hits, the twelve indices. Nothing else but `STATUS` changes. A key that is not canonical after folding
misses a valid wordlist. -/
def Obligations.W2idxCountsThenLooksUp : Prop :=
  ∀ s : State,
    (Wordlist.valid s.wl → ∀ k : WordKey,
      WordKey.canonical (Vector.ofFn fun j => lower k[j]) = false → cam s.wl k = none) ∧
    (s.nwords ≠ 12 → exec .w2idx s = .next
      { s with idx := Vector.replicate 12 0, status := mkStatus 2 1 s.nwords 0 }) ∧
    (s.nwords = 12 →
      (∀ k : Fin 12, cam s.wl s.word[k] = none →
        (∀ j : Fin 12, j < k → cam s.wl s.word[j] ≠ none) →
        exec .w2idx s = .next
          { s with
            idx := Vector.replicate 12 0, status := mkStatus 2 2 (BitVec.ofNat 8 k) 0 }) ∧
      ∀ v : Vector Index 12, (∀ k : Fin 12, cam s.wl s.word[k] = some v[k]) →
        exec .w2idx s = .next { s with idx := v, status := 0 })

/-- R162 (the spec's own inference): with a valid wordlist W2IDX undoes IDX2W, and IDX2W after W2IDX
writes the folded form of twelve keys that hit. -/
def Obligations.IndicesAndWordsAreInverses : Prop :=
  ∀ s : State, Wordlist.valid s.wl →
    (∃ t, exec .idx2w s = .next t ∧ t.status = 0 ∧
      exec .w2idx { t with nwords := 12 } = .next { t with nwords := 12 }) ∧
    (s.nwords = 12 → (∀ k : Fin 12, cam s.wl s.word[k] ≠ none) →
      ∃ t u, exec .w2idx s = .next t ∧ exec .idx2w t = .next u ∧ u.status = 0 ∧
        u.idx = t.idx ∧ ∀ (k : Fin 12) (j : Fin 8), u.word[k][j] = lower s.word[k][j])

/-- R163: LOOKUP writes `KIDX` and `HIT` from the CAM; a miss is `KIDX = 0`, `HIT = 0` and no error. -/
def Obligations.LookupAnswersHitOrMiss : Prop :=
  ∀ s : State,
    (∀ i : Index, cam s.wl s.key = some i →
      exec .lookup s = .next { s with kidx := i, status := 0x10000 }) ∧
    (cam s.wl s.key = none → exec .lookup s = .next { s with kidx := 0, status := 0 })

/-- R164: WORDAT writes entry `KIDX` to `KEY`, or zero with InternalInvariant when `KIDX >= WL_SIZE`. -/
def Obligations.WordatReadsOneEntry : Prop :=
  ∀ s : State,
    (∀ k : WordKey, s.wl[s.kidx.toNat]? = some k →
      exec .wordat s = .next { s with key := k, status := 0 }) ∧
    (s.wl.length ≤ s.kidx.toNat →
      exec .wordat s = .next { s with key := zeroKey, status := 0x00004 })

/-- R165 (the spec's own inference): of the sixteen index sequences with one entropy, the one with its
checksum unpacks and verifies; the fifteen others differ from it only in the low 4 bits of `IDX[11]`,
unpack to the same entropy and fail VERIFY with Checksum. -/
def Obligations.EveryOtherChecksumOfAnEntropyFails : Prop :=
  ∀ (s : State) (c : Checksum),
    ∃ t u w, exec .pack { s with chk := c } = .next t ∧ exec .unpack t = .next u ∧
      exec .verify u = .next w ∧ u.ent = s.ent ∧
      (w.status = if c = cksum4 (toBytes s.ent) then 0 else 0x00003) ∧
      (∀ k : Fin 11, t.idx[k.val] = slice (packed s.ent (cksum4 (toBytes s.ent))) k) ∧
      t.idx[11].extractLsb' 4 7 =
        (slice (packed s.ent (cksum4 (toBytes s.ent))) 11).extractLsb' 4 7

/-! ## The address parser -/

/-- R106, R232: PARSE writes `parse_fn` of the bytes below `TEXT_LEN`, or zero with AddressFormat and, for
each cause, the numbers of R232; nothing else but `STATUS` changes. `parse_fn` has no other error, and
`STATUS` is composed as R232 says. -/
def Obligations.ParseWritesEntropyOrReports : Prop :=
  (∀ (err sub : BitVec 4) (info : BitVec 8) (hit : BitVec 1),
    let st := mkStatus err sub info hit
    st.toNat = err.toNat + 16 * sub.toNat + 256 * info.toNat + 65536 * hit.toNat ∧
      statusErr st = err ∧ statusSub st = sub ∧ statusInfo st = info ∧ statusHit st = hit) ∧
  ∀ s : State,
    let result := parseFn (s.text.toList.take s.textLen.toNat)
    let failed (sub : BitVec 4) (info : BitVec 8) : State :=
      { s with ent := 0, status := mkStatus 1 sub info 0 }
    (∀ v, result = .ok v → exec .parse s = .next { s with ent := v, status := 0 }) ∧
    (result = .error .empty → exec .parse s = .next (failed 1 0)) ∧
    (result = .error .multiDColon → exec .parse s = .next (failed 2 0)) ∧
    (∀ n, result = .error (.tooManyGroups n) →
      exec .parse s = .next (failed 3 (BitVec.ofNat 8 (min n 255)))) ∧
    (∀ n, result = .error (.tooFewGroups n) → exec .parse s = .next (failed 4 (BitVec.ofNat 8 n))) ∧
    (∀ i, result = .error (.badGroup i) → exec .parse s = .next (failed 5 (BitVec.ofNat 8 i))) ∧
    ∀ c, result = .error c → c = .empty ∨ c = .multiDColon ∨ (∃ n, c = .tooManyGroups n) ∨
      (∃ n, n ≤ 7 ∧ c = .tooFewGroups n) ∨ ∃ i, i ≤ 7 ∧ c = .badGroup i

/-- R30, R106: the bytes of `TEXT` at `TEXT_LEN` and above change no result of PARSE or ENC. -/
def Obligations.BytesPastTextLenAreIgnored : Prop :=
  ∀ (i : Instr) (s t u : State) (text : Vector Byte 64), (i = .parse ∨ i = .enc) →
    (∀ k : Fin 64, k.val < s.textLen.toNat → text[k] = s.text[k]) →
    exec i s = .next t → exec i { s with text := text } = .next u →
      u = { t with text := text }

/-- R76, R101: the classes of bytes; trimming removes the longest start and the longest end of `WS` bytes
and nothing inside, and a text fails with EMPTY exactly when it holds nothing but `WS` bytes. -/
def Obligations.TrimAndTheEmptyText : Prop :=
  (∀ b : Byte,
    (charClass b = .ws ↔ (0x09 ≤ b.toNat ∧ b.toNat ≤ 0x0D) ∨ b.toNat = 0x20) ∧
    (charClass b = .colon ↔ b.toNat = 0x3A) ∧
    (charClass b = .digit ↔ 0x30 ≤ b.toNat ∧ b.toNat ≤ 0x39) ∧
    (charClass b = .hexLc ↔ 0x61 ≤ b.toNat ∧ b.toNat ≤ 0x66) ∧
    (charClass b = .hexUc ↔ 0x41 ≤ b.toNat ∧ b.toNat ≤ 0x46)) ∧
  ∀ s : List Byte,
    (∃ a b, s = a ++ trim s ++ b ∧ (∀ x ∈ a ++ b, charClass x = .ws) ∧
      (∀ x, (trim s).head? = some x → charClass x ≠ .ws) ∧
      ∀ x, (trim s).getLast? = some x → charClass x ≠ .ws) ∧
    (parseFn s = .error .empty ↔ ∀ x ∈ s, charClass x = .ws)

/-- R102: a text parses as its lowercase form does, and fails with MULTI_DCOLON exactly when, after
trimming, `::` occurs in it twice without overlap. -/
def Obligations.CaseIsFoldedAndTwoDoubleColonsFail : Prop :=
  (∀ s : List Byte, parseFn (s.map lower) = parseFn s) ∧
  ∀ s : List Byte, parseFn s = .error .multiDColon ↔
    ∃ a b c, trim s = a ++ [0x3A, 0x3A] ++ b ++ [0x3A, 0x3A] ++ c

/-- R104, R111 (R111 is the spec's own inference): a text that parses holds, after trimming, nothing but
colons and hex digits of either case; so no zone identifier, dot, slash, bracket or inner whitespace
is ever accepted. -/
def Obligations.AcceptedTextIsHexAndColons : Prop :=
  ∀ (s : List Byte) (v : Entropy), parseFn s = .ok v →
    ∀ b ∈ trim s, charClass b ∈ [.colon, .digit, .hexLc, .hexUc]

/-- R100, R103, R104, R105, R77. First, how `parse_fn` cuts a text: the trimmed and folded text, at its
one `::` if it has one, the leftmost that two colons make, and each side at its colons, the empty pieces
dropped. Then, on the tokens `l` and `r` of the two sides: more than eight groups fail, then fewer than
eight without `::`, then the lowest group of the eight that is no `[0-9a-f]{1,4}`; otherwise the groups
land in `ENT` most significant first and the zero groups stand where `::` stood. -/
def Obligations.GroupsAreCountedCheckedAndFolded : Prop :=
  let hasDColon (x : List Byte) : Prop := ∃ a b, x = a ++ [0x3A, 0x3A] ++ b
  let tokens (side : List Byte) (l : List (List Byte)) : Prop :=
    ∃ pieces : List (List Byte), pieces ≠ [] ∧ (∀ p ∈ pieces, (0x3A : Byte) ∉ p) ∧
      side = [0x3A].intercalate pieces ∧ l = pieces.filter fun p => !p.isEmpty
  (∀ side, ∃ l, tokens side l) ∧
  (∀ (s : List Byte) (l : List (List Byte)), trim s ≠ [] → ¬ hasDColon ((trim s).map lower) →
    tokens ((trim s).map lower) l → parseFn s = assembleGroups false l []) ∧
  (∀ (s left right : List Byte) (l r : List (List Byte)),
    (trim s).map lower = left ++ [0x3A, 0x3A] ++ right → ¬ hasDColon (left ++ [0x3A]) →
      ¬ hasDColon right → tokens left l → tokens right r →
        parseFn s = assembleGroups true l r) ∧
  ∀ (hasDc : Bool) (l r : List (List Byte)),
    let n := l.length + r.length
    let fits (x : List Byte) : Prop :=
      1 ≤ x.length ∧ x.length ≤ 4 ∧ ∀ b ∈ x, charClass b = .digit ∨ charClass b = .hexLc
    let value (x : List Byte) : Nat :=
      x.foldl (fun m b => 16 * m + if b.toNat ≤ 0x39 then b.toNat - 0x30 else b.toNat - 0x61 + 10) 0
    let g := l ++ List.replicate (8 - n) [0x30] ++ r
    (8 < n → assembleGroups hasDc l r = .error (.tooManyGroups n)) ∧
    (hasDc = false → n < 8 → assembleGroups hasDc l r = .error (.tooFewGroups n)) ∧
    ((n = 8 ∨ (hasDc = true ∧ n < 8)) →
      (∀ (i : Nat) (x : List Byte), g[i]? = some x → ¬ fits x →
        (∀ (j : Nat) (y : List Byte), j < i → g[j]? = some y → fits y) →
          assembleGroups hasDc l r = .error (.badGroup i)) ∧
      ((∀ x ∈ g, fits x) → ∃ v, assembleGroups hasDc l r = .ok v ∧
        (∀ i, i < l.length → (entGroup v i).toNat = value (l.getD i [])) ∧
        (∀ i, l.length ≤ i → i < 8 - r.length → entGroup v i = 0) ∧
        ∀ i, i < r.length → (entGroup v (8 - r.length + i)).toNat = value (r.getD i [])))

/-- R269 (the spec's own inference): no text that parses is longer than 43 bytes after trimming. -/
def Obligations.AcceptedTextIsAtMost43Bytes : Prop :=
  ∀ (s : List Byte) (v : Entropy), parseFn s = .ok v → (trim s).length ≤ 43

/-- R109: RENDER writes `render_fn(ENT)` to `TEXT`, 0x00 past it, and its length to `TEXT_LEN`; nothing
else but `STATUS` changes. -/
def Obligations.RenderWritesTextAndLength : Prop :=
  ∀ s : State, ∃ t, exec .render s = .next t ∧
    t.textLen.toNat = (renderFn s.ent).length ∧
    (∀ i : Fin 64, t.text[i] = (renderFn s.ent).getD i 0) ∧
    t.text.toList.take t.textLen.toNat = renderFn s.ent ∧
    t = { s with text := t.text, textLen := t.textLen, status := 0 }

/-- R107, R108: the rendered text is eight groups joined by colons, each the group's value in one to four
lowercase digits without a leading zero; 15 to 39 bytes, never two colons in a row. -/
def Obligations.RenderedTextIsExpandedForm : Prop :=
  ∀ v : Entropy,
    (∃ g : Vector (List Byte) 8, renderFn v = [0x3A].intercalate g.toList ∧
      ∀ i : Fin 8, 1 ≤ g[i].length ∧ g[i].length ≤ 4 ∧
        (∀ b ∈ g[i], charClass b = .digit ∨ charClass b = .hexLc) ∧
        groupVal g[i] = (v.extractLsb' (112 - 16 * i) 16).toNat ∧
        (g[i].head? = some 0x30 → g[i] = [0x30])) ∧
    15 ≤ (renderFn v).length ∧ (renderFn v).length ≤ 39 ∧
    ¬ ∃ a b, renderFn v = a ++ [0x3A, 0x3A] ++ b

/-- R110: `parse_fn(render_fn(v)) = Ok(v)` for every 128-bit value; in commands, RENDER then PARSE leaves
`ENT` unchanged and reports `OK`, and PARSE then RENDER gives the expanded form of the value parsed. -/
def Obligations.ParseOfRenderIsTheValue : Prop :=
  (∀ v : Entropy, parseFn (renderFn v) = .ok v) ∧
  (∀ s : State, ∃ t u, exec .render s = .next t ∧ exec .parse t = .next u ∧
    u.ent = s.ent ∧ u.status = 0) ∧
  ∀ (s : State) (v : Entropy), parseFn (s.text.toList.take s.textLen.toNat) = .ok v →
    ∃ t u, exec .parse s = .next t ∧ exec .render t = .next u ∧
      u.text.toList.take u.textLen.toNat = renderFn v

/-! ## Composite commands -/

/-- R181: GENW. Bytes, checksum, slices and words of `ENT`; on a short table, InternalInvariant at the
lowest slot and all four destinations zero. Nothing else but `STATUS` changes. -/
def Obligations.GenwWritesTheMnemonic : Prop :=
  ∀ (s : State) (v : Vector Index 12),
    (∀ k : Fin 12,
      v[k] = (s.ent ++ cksum4 (toBytes s.ent)).extractLsb' (121 - 11 * k) 11) →
    (∀ w : Vector WordKey 12, (∀ k : Fin 12, s.wl[v[k].toNat]? = some w[k]) →
      exec .genw s = .next
        { s with
          bytes := toBytes s.ent, chk := cksum4 (toBytes s.ent), idx := v, word := w,
          status := 0 }) ∧
    ∀ k : Fin 12, s.wl.length ≤ v[k].toNat → (∀ j : Fin 12, j < k → v[j].toNat < s.wl.length) →
      exec .genw s = .next
        { s with
          bytes := Vector.replicate 16 0, chk := 0, idx := Vector.replicate 12 0,
          word := Vector.replicate 12 zeroKey, status := mkStatus 4 0 (BitVec.ofNat 8 k) 0 }

/-- R182: GETE. The count, the lowest unknown word, then the checksum, each leaving `IDX`, `ENT` and `CHK`
zero; otherwise the indices of the words, and the entropy and checksum they hold. `BYTES` and
everything else but `STATUS` keeps its value. -/
def Obligations.GeteReadsTheMnemonic : Prop :=
  ∀ s : State,
    let failed (st : StatusBits) : State :=
      { s with idx := Vector.replicate 12 0, ent := 0, chk := 0, status := st }
    (s.nwords ≠ 12 → exec .gete s = .next (failed (mkStatus 2 1 s.nwords 0))) ∧
    (s.nwords = 12 →
      (∀ k : Fin 12, cam s.wl s.word[k] = none →
        (∀ j : Fin 12, j < k → cam s.wl s.word[j] ≠ none) →
        exec .gete s = .next (failed (mkStatus 2 2 (BitVec.ofNat 8 k) 0))) ∧
      ∀ (v : Vector Index 12) (e : Entropy) (c : Checksum),
        (∀ k : Fin 12, cam s.wl s.word[k] = some v[k]) →
        (∀ k : Fin 12, v[k] = (e ++ c).extractLsb' (121 - 11 * k) 11) →
        (cksum4 (toBytes e) = c →
          exec .gete s = .next { s with idx := v, ent := e, chk := c, status := 0 }) ∧
        (cksum4 (toBytes e) ≠ c → exec .gete s = .next (failed 0x00003)))

/-- R183: ENC. PARSE, then GENW of its value; an error of either leaves the five destinations zero, with
PARSE's numbers of R232 or GENW's. Nothing else but `STATUS` changes. -/
def Obligations.EncParsesThenEncodes : Prop :=
  ∀ s : State,
    let failed (st : StatusBits) : State :=
      { s with
        ent := 0, bytes := Vector.replicate 16 0, chk := 0, idx := Vector.replicate 12 0,
        word := Vector.replicate 12 zeroKey, status := st }
    let result := parseFn (s.text.toList.take s.textLen.toNat)
    (result = .error .empty → exec .enc s = .next (failed (mkStatus 1 1 0 0))) ∧
    (result = .error .multiDColon → exec .enc s = .next (failed (mkStatus 1 2 0 0))) ∧
    (∀ n, result = .error (.tooManyGroups n) →
      exec .enc s = .next (failed (mkStatus 1 3 (BitVec.ofNat 8 (min n 255)) 0))) ∧
    (∀ n, result = .error (.tooFewGroups n) →
      exec .enc s = .next (failed (mkStatus 1 4 (BitVec.ofNat 8 n) 0))) ∧
    (∀ i, result = .error (.badGroup i) →
      exec .enc s = .next (failed (mkStatus 1 5 (BitVec.ofNat 8 i) 0))) ∧
    ∀ (e : Entropy) (v : Vector Index 12),
      result = .ok e →
      (∀ k : Fin 12, v[k] = (e ++ cksum4 (toBytes e)).extractLsb' (121 - 11 * k) 11) →
      (∀ w : Vector WordKey 12, (∀ k : Fin 12, s.wl[v[k].toNat]? = some w[k]) →
        exec .enc s = .next
          { s with
            ent := e, bytes := toBytes e, chk := cksum4 (toBytes e), idx := v, word := w,
            status := 0 }) ∧
      ∀ k : Fin 12, s.wl.length ≤ v[k].toNat →
        (∀ j : Fin 12, j < k → v[j].toNat < s.wl.length) →
        exec .enc s = .next (failed (mkStatus 4 0 (BitVec.ofNat 8 k) 0))

/-- R184: DEC. GETE, then RENDER of its entropy; an error of GETE leaves the five destinations zero, the
text included. Nothing else but `STATUS` changes. -/
def Obligations.DecDecodesThenRenders : Prop :=
  ∀ s : State,
    let failed (st : StatusBits) : State :=
      { s with
        idx := Vector.replicate 12 0, ent := 0, chk := 0, text := Vector.replicate 64 0,
        textLen := 0, status := st }
    (s.nwords ≠ 12 → exec .dec s = .next (failed (mkStatus 2 1 s.nwords 0))) ∧
    (s.nwords = 12 →
      (∀ k : Fin 12, cam s.wl s.word[k] = none →
        (∀ j : Fin 12, j < k → cam s.wl s.word[j] ≠ none) →
        exec .dec s = .next (failed (mkStatus 2 2 (BitVec.ofNat 8 k) 0))) ∧
      ∀ (v : Vector Index 12) (e : Entropy) (c : Checksum),
        (∀ k : Fin 12, cam s.wl s.word[k] = some v[k]) →
        (∀ k : Fin 12, v[k] = (e ++ c).extractLsb' (121 - 11 * k) 11) →
        (cksum4 (toBytes e) ≠ c → exec .dec s = .next (failed 0x00003)) ∧
        (cksum4 (toBytes e) = c → ∃ t, exec .dec s = .next t ∧
          t.text.toList.take t.textLen.toNat = renderFn e ∧
          (∀ i : Fin 64, t.textLen.toNat ≤ i.val → t.text[i] = 0) ∧
          t = { s with
                idx := v, ent := e, chk := c, text := t.text, textLen := t.textLen,
                status := 0 }))

/-- R180: a composite runs its steps in order on the registers as the steps before left them. If every
step succeeds it ends exactly as the same steps issued one by one; if a step raises an error the
steps after it do not run, `STATUS` is that step's, and every destination of the composite is zero,
those that earlier steps had written included. Its sources never change, and after a success all of
`STATUS` is zero. -/
def Obligations.CompositeIsItsStepsInOrder : Prop :=
  ∀ s s1 s2 s3 s4 : State,
    (exec .e2b s = .next s1 → exec .cksum s1 = .next s2 → exec .pack s2 = .next s3 →
      exec .idx2w s3 = .next s4 →
      exec .genw s = .next (if statusErr s4.status = 0 then s4 else raisedAs .genw s4.status s)) ∧
    (exec .w2idx s = .next s1 → statusErr s1.status ≠ 0 →
      exec .gete s = .next (raisedAs .gete s1.status s)) ∧
    (exec .w2idx s = .next s1 → statusErr s1.status = 0 → exec .unpack s1 = .next s2 →
      exec .verify s2 = .next s3 →
      exec .gete s = .next (if statusErr s3.status = 0 then s3 else raisedAs .gete s3.status s)) ∧
    (exec .parse s = .next s1 → statusErr s1.status ≠ 0 →
      exec .enc s = .next (raisedAs .enc s1.status s)) ∧
    (exec .parse s = .next s1 → statusErr s1.status = 0 → exec .genw s1 = .next s2 →
      exec .enc s = .next (if statusErr s2.status = 0 then s2 else raisedAs .enc s2.status s)) ∧
    (exec .gete s = .next s1 → statusErr s1.status ≠ 0 →
      exec .dec s = .next (raisedAs .dec s1.status s)) ∧
    (exec .gete s = .next s1 → statusErr s1.status = 0 → exec .render s1 = .next s2 →
      exec .dec s = .next s2) ∧
    ∀ (i : Instr) (t : State), i ∈ [Instr.genw, .gete, .enc, .dec] → exec i s = .next t →
      (∀ r ∈ sources i, sameReg s t r) ∧ (statusErr t.status = 0 → t.status = 0)

/-- R185: the sentence round trip. For every text on which PARSE succeeds with `v`, ENC, then
`NWORDS <- 12`, then DEC ends with `OK`, `ENT = v` and `TEXT = render_fn(v)`, for every valid
wordlist. -/
def Obligations.SentenceRoundTrip : Prop :=
  ∀ (s : State) (v : Entropy), Wordlist.valid s.wl →
    parseFn (s.text.toList.take s.textLen.toNat) = .ok v →
      ∃ t u, exec .enc s = .next t ∧ t.status = 0 ∧
        exec .dec { t with nwords := 12 } = .next u ∧ u.status = 0 ∧ u.ent = v ∧
        u.text.toList.take u.textLen.toNat = renderFn v

/-! ## Whole-machine rules -/

/-- R9, R21, R33, R36, R72: every command completes in every state, and changes `STATUS` and its
destinations only: every other data register, `CMD` and the wordlist keep their values. The
destinations are those of the opcode map, written out in its order. -/
def Obligations.EveryCommandCompletesWritingItsDestinations : Prop :=
  (∀ (i : Instr) (s : State), ∃ t, exec i s = .next t ∧
    (∀ r : DataReg, r ∉ dests i → sameReg s t r) ∧ sameOutside s t) ∧
  [Instr.nop, .parse, .render, .e2b, .b2e, .cksum, .pack, .unpack, .verify, .idx2w, .w2idx, .lookup,
    .wordat, .genw, .gete, .enc, .dec, .clr].map dests =
    [[], [.ent], [.text, .textLen], [.bytes], [.ent], [.chk], [.idx], [.ent, .chk], [], [.word],
      [.idx], [.kidx], [.key], [.bytes, .chk, .idx, .word], [.idx, .ent, .chk],
      [.ent, .bytes, .chk, .idx, .word], [.idx, .ent, .chk, .text, .textLen],
      [.ent, .bytes, .chk, .idx, .nwords, .kidx, .key, .word, .text, .textLen]]

/-- R240: a command that reports an error leaves every destination zero, its sources and every other
register as they were, and `STATUS` composed of its codes with `HIT = 0`; an illegal word has no
destination, so every data register keeps its value. -/
def Obligations.ErrorsZeroTheDestinations : Prop :=
  (∀ (i : Instr) (s t : State), exec i s = .next t → statusErr t.status ≠ 0 →
    (∀ r ∈ dests i, regIsZero t r) ∧ (∀ r ∉ dests i, sameReg s t r) ∧
      (∀ r ∈ sources i, sameReg s t r) ∧ sameOutside s t ∧
      ∃ c : Cause, t.status = mkStatus c.err c.sub c.info 0) ∧
  ∀ (s t : State) (rest : List PortEvent) (v : Word) (e : IllegalWord),
    s.port = wr .cmd v :: rest → decode v = .error e → step s = .next t →
      (∀ r, sameReg s t r) ∧ t.cmd = v ∧ t.wl = s.wl ∧
        t.status = mkStatus 5 0 (v.extractLsb' 0 8) 0

/-- R8, R35: what a command writes depends on its source registers and the wordlist only: two states that
agree on them end with the same destinations and the same `STATUS`. The sources are those of the opcode
map (R72), written out in its order. -/
def Obligations.CommandsDependOnTheirSourcesOnly : Prop :=
  (∀ (i : Instr) (s s' t t' : State), (∀ r ∈ sources i, sameReg s s' r) → s.wl = s'.wl →
    exec i s = .next t → exec i s' = .next t' →
      t.status = t'.status ∧ ∀ r ∈ dests i, sameReg t t' r) ∧
  [Instr.nop, .parse, .render, .e2b, .b2e, .cksum, .pack, .unpack, .verify, .idx2w, .w2idx, .lookup,
    .wordat, .genw, .gete, .enc, .dec, .clr].map sources =
    [[], [.text, .textLen], [.ent], [.ent], [.bytes], [.bytes], [.ent, .chk], [.idx], [.ent, .chk],
      [.idx], [.word, .nwords], [.key], [.kidx], [.ent], [.word, .nwords], [.text, .textLen],
      [.word, .nwords], []]

/-- R242: a command that failed, issued again, fails identically and changes nothing more; on the same
sources it reports the same error from any state. -/
def Obligations.RetryFailsIdentically : Prop :=
  ∀ (i : Instr) (s t : State), exec i s = .next t → statusErr t.status ≠ 0 →
    exec i t = .next t ∧
    ∀ u : State, (∀ r ∈ sources i, sameReg s u r) → s.wl = u.wl →
      ∃ w, exec i u = .next w ∧ w.status = t.status

/-- R34: `HIT` is written 1 only by LOOKUP, and only when the key is in the wordlist. -/
def Obligations.OnlyLookupSetsHit : Prop :=
  ∀ (i : Instr) (s t : State), exec i s = .next t →
    (statusHit t.status = 1 ↔ i = .lookup ∧ cam s.wl s.key ≠ none)

/-- R236 (the spec's own inference): with a wordlist of 2048 entries no command reports
InternalInvariant, in any state. -/
def Obligations.InternalInvariantIsUnreachable : Prop :=
  ∀ (i : Instr) (s t : State), s.wl.length = 2048 → exec i s = .next t → statusErr t.status ≠ 4

/-- R6, R36: no step writes the wordlist. -/
def Obligations.NoStepWritesTheWordlist : Prop :=
  ∀ s t : State, step s = .next t → t.wl = s.wl

/-- R30, R231, R232: every step keeps `TEXT_LEN` at 0..64 and `STATUS` in one of the listed forms, from any
state that has them. -/
def Obligations.StepKeepsTheInvariant : Prop :=
  ∀ s t : State, s.Inv → step s = .next t → t.Inv

/-- R38: the reset state meets the invariant. -/
def Obligations.ResetMeetsTheInvariant : Prop := State.reset.Inv

/-! ## Host programs -/

/-- R83, R63, R268: the accesses of `LDTEXT` all complete and leave the text and its length in the block,
whatever `TEXT` held; those of `LDENT` leave the entropy; those of twelve `LDWORD` and `WR NWORDS` leave
the twelve words and the count. Nothing else of the block changes. That the queue is then empty and no
reply stands is the model's own (log entry 2).

R80, R81: a word has a key if it has 1 to 8 bytes: they, padded with 0x00.

R213 to R216, for any scheme of the host's: a run over a sentence, whose tokens other than fillers load
`keys`, leaves the first twelve in `WORD` and their number in `NWORDS`, and changes nothing else but
what its LOOKUPs use up (`KEY`, `KIDX`, `STATUS`, `CMD`). The first token that misses and is not loaded
ends the run with UNKNOWN_WORD, the 256th word ends it too. How the host's run goes, and that it leaves
a miss to W2IDX only among twelve candidates, is the model's choice (log entry 11). -/
def Obligations.LoadSequencesLoadWholeOperands : Prop :=
  (∀ (s : State) (t : List Byte) (p : List PortEvent), ldText t = some p →
    ∃ u, runPort { s with port := p } = .next u ∧
      u.text.toList.take u.textLen.toNat = t ∧
      u = { s with port := [], reply := none, text := u.text, textLen := u.textLen }) ∧
  (∀ (s : State) (v : Entropy), runPort { s with port := ldEnt v } =
    .next { s with port := [], reply := none, ent := v }) ∧
  (∀ (s : State) (keys : Vector WordKey 12) (n : BitVec 8),
    runPort { s with port := ldMnemonic keys n } =
      .next { s with port := [], reply := none, word := keys, nwords := n }) ∧
  (∀ (x : List Byte) (key : WordKey), keyOf x = some key ↔
    1 ≤ x.length ∧ x.length ≤ 8 ∧ ∀ j : Fin 8, key[j] = x.getD j 0) ∧
  ∀ (sch : Scheme) (misses : Bool) (s : State) (t : List Byte) (keys : List WordKey),
    let left : Bool := misses && decide ((sch.candidates (sch.tokens t)).length = 12)
    (sch.loadsAll left s.wl (sch.tokens t) keys → keys.length ≤ 255 →
      ∃ u, loadSentence sch misses t s = .ok u ∧ u.nwords.toNat = keys.length ∧
        (∀ k : Fin 12, u.word[k] = (keys[k.val]?).getD s.word[k]) ∧
        (∀ r ∉ [DataReg.key, .kidx, .word, .nwords], sameReg s u r) ∧ u.wl = s.wl) ∧
    ∀ (toks rest : List (List Byte)) (tok : List Byte), sch.tokens t = toks ++ tok :: rest →
      tok ∉ sch.fillers → sch.loadsAll left s.wl toks keys →
        (keys.length ≤ 255 → sch.misses s.wl tok → (left = true → keyOf tok = none) →
          loadSentence sch misses t s = .error (.raised (.unknownWord keys.length))) ∧
        (keys.length = 255 → (∃ key, sch.accepts s.wl tok key) →
          loadSentence sch misses t s = .error .tooManyWords)

/-- R218: the sentence of words is the words joined by one space; a sentence's tokens are its runs of bytes
that are not `WS`; and with a valid wordlist the reference scheme recovers any twelve wordlist words
(R80: the words whose keys are entries) from their sentence, and a run over the sentence of any number
of wordlist words loads just these.

R214 to R216, for any scheme: GETE or DEC behind a run that loads `keys` is that command on the state the
run leaves, and with a count other than 12 it reports WORD_COUNT with the count. The other way, by the
indices LOOKUP returned, UNPACK and VERIFY and the host's own count check, ends with the same error or
with `OK` and the same `ENT` (that a failed GETE zeroes `ENT` and a failed VERIFY does not is R240's). A
sentence with a token that misses fails with UNKNOWN_WORD whatever else it holds, raised by the host or,
where the host leaves its misses to W2IDX, by the block at the first of them.

The clauses on `loadsAll`, `loadSentence`, `decodeSentence` and `decodeSentenceByIndices` are claims about
the model's own host run, a choice of the model's where R211 to R216 leave the host free: fillers
discarded unasked, `NWORDS` written once, misses left to W2IDX among twelve candidates only (log entry 11:
DESIGN CHOICE and DEDUCED). `port` and `reply` in them are the model's own too (log entry 2). -/
def Obligations.UnformatUndoesFormat : Prop :=
  let spelled (wl : List WordKey) (x : List Byte) (k : WordKey) : Prop :=
    k ∈ wl ∧ 1 ≤ x.length ∧ x.length ≤ 8 ∧ (0 : Byte) ∉ x ∧ ∀ j : Fin 8, k[j] = x.getD j 0
  (∀ w : List (List Byte), formatWords w = [0x20].intercalate w) ∧
  (sentenceTokens [] = [] ∧
    (∀ (b : Byte) (t : List Byte), charClass b = .ws → sentenceTokens (b :: t) = sentenceTokens t) ∧
    ∀ x t : List Byte, x ≠ [] → (∀ b ∈ x, charClass b ≠ .ws) →
      (∀ b, t.head? = some b → charClass b = .ws) → sentenceTokens (x ++ t) = x :: sentenceTokens t) ∧
  (∀ (wl : List WordKey) (w : List (List Byte)), Wordlist.valid wl → w.length = 12 →
    (∀ x ∈ w, ∃ k, spelled wl x k) → unformat wl (formatWords w) = some w) ∧
  (∀ (wl : List WordKey) (w : List (List Byte)) (keys : List WordKey), Wordlist.valid wl →
    List.Forall₂ (spelled wl) w keys →
      referenceScheme.loadsAll false wl (referenceScheme.tokens (referenceScheme.format w)) keys) ∧
  ∀ (sch : Scheme) (misses : Bool) (s : State) (t : List Byte) (keys : List WordKey) (cmd : Instr),
    cmd = .gete ∨ cmd = .dec → keys.length ≤ 255 →
    let left : Bool := misses && decide ((sch.candidates (sch.tokens t)).length = 12)
    (sch.loadsAll left s.wl (sch.tokens t) keys →
      ∃ u w, loadSentence sch misses t s = .ok u ∧
        exec cmd { u with port := [rd .status], cmd := encode cmd, reply := none } = .next w ∧
        decodeSentence sch misses cmd t s =
          .ok { w with port := [], reply := some (w.status.setWidth 32) } ∧
        (keys.length ≠ 12 → w.status = mkStatus 2 1 (BitVec.ofNat 8 keys.length) 0) ∧
        (left = false →
          (keys.length ≠ 12 → decodeSentenceByIndices sch t s =
            .error (.raised (.wordCount (BitVec.ofNat 8 keys.length)))) ∧
          (keys.length = 12 → ∃ x, decodeSentenceByIndices sch t s = .ok x ∧
            x.status = w.status ∧ (x.status = 0 → x.ent = w.ent)))) ∧
    ∀ (toks rest : List (List Byte)) (tok : List Byte), sch.tokens t = toks ++ tok :: rest →
      tok ∉ sch.fillers → sch.loadsAll false s.wl toks keys → sch.misses s.wl tok →
        decodeSentenceByIndices sch t s = .error (.raised (.unknownWord keys.length)) ∧
        (left = false →
          decodeSentence sch misses cmd t s = .error (.raised (.unknownWord keys.length))) ∧
        ((∃ k, decodeSentence sch misses cmd t s = .error (.raised (.unknownWord k))) ∨
          ∃ v, decodeSentence sch misses cmd t s = .ok v ∧
            v.status = mkStatus 2 2 (BitVec.ofNat 8 keys.length) 0)
end

