-- ==== Sys2Proof/Laws/Bits.lean ====
section
/-! SUPPORT. Bit by bit: the fields of `STATUS`, concatenations, folds of equal pieces, slices and lanes. -/

namespace Sys2Proof.Machine

/-! ## `STATUS` -/

@[simp] theorem statusErr_mkStatus (e b : BitVec 4) (i : BitVec 8) (h : BitVec 1) :
    statusErr (mkStatus e b i h) = e := by
  ext k hk
  have h1 : k < 17 := by omega
  have h2 : k < 8 := by omega
  have h3 : k < 16 := by omega
  simp [statusErr, mkStatus, BitVec.getElem_extractLsb', hk, h1, h2, h3]

@[simp] theorem statusSub_mkStatus (e b : BitVec 4) (i : BitVec 8) (h : BitVec 1) :
    statusSub (mkStatus e b i h) = b := by
  ext k hk
  have h1 : 4 + k < 17 := by omega
  have h2 : 4 + k < 8 := by omega
  have h3 : 4 + k < 16 := by omega
  simp [statusSub, mkStatus, BitVec.getElem_extractLsb', hk, h1, h2, h3]

@[simp] theorem statusInfo_mkStatus (e b : BitVec 4) (i : BitVec 8) (h : BitVec 1) :
    statusInfo (mkStatus e b i h) = i := by
  ext k hk
  have h1 : 8 + k < 17 := by omega
  have h2 : 8 + k < 16 := by omega
  have h3 : b.getLsbD (8 + k - 4) = false := BitVec.getLsbD_of_ge _ _ (by omega)
  have h4 : e.getLsbD (8 + k) = false := BitVec.getLsbD_of_ge _ _ (by omega)
  simp [statusInfo, mkStatus, BitVec.getElem_extractLsb', hk, h1, h2, h3, h4]

@[simp] theorem statusHit_mkStatus (e b : BitVec 4) (i : BitVec 8) (h : BitVec 1) :
    statusHit (mkStatus e b i h) = h := by
  ext k hk
  have h0 : k = 0 := by omega
  subst h0
  simp [statusHit, mkStatus, BitVec.getElem_extractLsb']

/-- Two `STATUS` values are equal when their four fields are. -/
theorem status_ext {a b : StatusBits} (h1 : statusErr a = statusErr b)
    (h2 : statusSub a = statusSub b) (h3 : statusInfo a = statusInfo b)
    (h4 : statusHit a = statusHit b) : a = b := by
  ext k hk
  have pick {w : Nat} (o : Nat) (h : a.extractLsb' o w = b.extractLsb' o w)
      (h5 : o ≤ k) (h6 : k < o + w) : a[k] = b[k] := by
    have h := congrArg (fun v => v.getLsbD (k - o)) h
    have h7 : k - o < w := by omega
    simpa [BitVec.getLsbD_extractLsb', h7, Nat.add_sub_cancel' h5, hk] using h
  rcases Nat.lt_or_ge k 4 with h | h
  · exact pick 0 h1 (by omega) (by omega)
  rcases Nat.lt_or_ge k 8 with h' | h'
  · exact pick 4 h2 (by omega) (by omega)
  rcases Nat.lt_or_ge k 16 with h'' | h''
  · exact pick 8 h3 (by omega) (by omega)
  · exact pick 16 h4 (by omega) (by omega)

@[simp] theorem statusOk_eq : statusOk = 0 := by decide

theorem statusLookup_true : statusLookup true = 0x10000 := by decide

theorem statusLookup_false : statusLookup false = 0 := by decide

/-! ## Concatenations -/

theorem getLsbD_cat4 (a b c d : Byte) (i : Nat) :
    (a ++ b ++ c ++ d : Word).getLsbD i =
      if i < 8 then d.getLsbD i
      else if i < 16 then c.getLsbD (i - 8)
      else if i < 24 then b.getLsbD (i - 16) else a.getLsbD (i - 24) := by
  have h1 := BitVec.getLsbD_append (x := a ++ b ++ c) (y := d) (i := i)
  have h2 := BitVec.getLsbD_append (x := a ++ b) (y := c) (i := i - 8)
  have h3 := BitVec.getLsbD_append (x := a) (y := b) (i := i - 8 - 8)
  refine h1.trans ?_
  rw [h2, h3]
  have e1 : i - 8 - 8 = i - 16 := by omega
  have e2 : i - 8 - 8 - 8 = i - 24 := by omega
  rw [e2, e1]
  split_ifs <;> first | rfl | omega

theorem getLsbD_packed (e : Entropy) (c : Checksum) (i : Nat) :
    (packed e c).getLsbD i = if i < 4 then c.getLsbD i else e.getLsbD (i - 4) :=
  BitVec.getLsbD_append (x := e) (y := c)

/-- The four lanes of a concatenation are its bytes (rule R54). -/
theorem lane_cat4 (a b c d : Byte) (m : Fin 4) :
    lane (a ++ b ++ c ++ d) m = #v[a, b, c, d][m] := by
  ext k hk
  rw [lane, BitVec.getElem_extractLsb', getLsbD_cat4]
  fin_cases m <;> simp only [Nat.reduceMul, Nat.reduceSub, Nat.zero_add] <;> split_ifs <;>
    first | omega | simp [hk]

/-- A word is the concatenation of its lanes. -/
theorem cat4_lane (v : Word) : lane v 0 ++ lane v 1 ++ lane v 2 ++ lane v 3 = v := by
  apply BitVec.eq_of_getLsbD_eq
  intro i hi
  rw [getLsbD_cat4]
  simp only [lane, BitVec.getLsbD_extractLsb']
  split_ifs with h1 h2 h3
  · simp [h1]
  · simp [show i - 8 < 8 by omega, show 8 + (i - 8) = i by omega]
  · simp [show i - 16 < 8 by omega, show 16 + (i - 16) = i by omega]
  · simp [show i - 24 < 8 by omega, show 24 + (i - 24) = i by omega]

/-! ## Folds of equal pieces -/

/-- Bit `b` of piece `j` from the right, of a fold that shifts in pieces of `m` bits. -/
theorem getLsbD_foldl_shift {w m : Nat} (l : List (BitVec m)) (hw : l.length * m ≤ w) (j b : Nat)
    (hj : j < l.length) (hb : b < m) :
    (l.foldl (fun (v : BitVec w) x => (v <<< m) ||| x.setWidth w) 0).getLsbD (m * j + b) =
      (l[l.length - 1 - j]'(by omega)).getLsbD b := by
  induction l using List.reverseRecOn generalizing j with
  | nil => simp at hj
  | append_singleton l x ih =>
    have hlen : (l ++ [x]).length = l.length + 1 := by simp
    rw [hlen] at hj hw
    have hlt : m * j + b < w := by
      have : m * j + m ≤ (l.length + 1) * m := by
        rw [← Nat.mul_succ, Nat.mul_comm]; exact Nat.mul_le_mul_right m hj
      omega
    simp only [List.foldl_append, List.foldl_cons, List.foldl_nil, BitVec.getLsbD_or,
      BitVec.getLsbD_shiftLeft, BitVec.getLsbD_setWidth, hlt, decide_true, Bool.true_and, hlen]
    cases j with
    | zero => simp [hb]
    | succ j =>
      have hge : ¬ m * (j + 1) + b < m := by rw [Nat.mul_succ]; omega
      have hx : x.getLsbD (m * (j + 1) + b) = false := BitVec.getLsbD_of_ge _ _ (by omega)
      have hsub : m * (j + 1) + b - m = m * j + b := by rw [Nat.mul_succ]; omega
      rw [hx, hsub, ih (by rw [Nat.succ_mul] at hw; omega) j (by omega)]
      have hi : l.length + 1 - 1 - (j + 1) = l.length - 1 - j := by omega
      simp only [hge, decide_false, Bool.not_false, Bool.true_and, Bool.or_false, hi]
      rw [List.getElem_append_left]

/-- Piece `i` from the left of such a fold, when the pieces fill the width. -/
theorem extract_foldl_shift {w m : Nat} (l : List (BitVec m)) (hw : l.length * m = w) (i : Nat)
    (hi : i < l.length) :
    (l.foldl (fun (v : BitVec w) x => (v <<< m) ||| x.setWidth w) 0).extractLsb' (w - m * (i + 1)) m = l[i] := by
  ext b hb
  have h1 : w - m * (i + 1) + b = m * (l.length - 1 - i) + b := by
    rw [← hw, Nat.mul_comm, ← Nat.mul_sub]; congr 2; omega
  rw [BitVec.getElem_extractLsb', h1,
    getLsbD_foldl_shift l hw.le (l.length - 1 - i) b (by omega) hb]
  have h2 : l.length - 1 - (l.length - 1 - i) = i := by omega
  simp [h2, hb]

end Sys2Proof.Machine
end

