-- ==== Sys2Proof/Laws/State.lean ====
section
/-! SUPPORT. One lemma per field per update of `State`, so that no later proof unfolds a record update. -/

namespace Sys2Proof.Machine

section setEnt
variable (s : State) (v : Entropy)
@[simp] theorem State.setEnt_ent : (s.setEnt v).ent = v := rfl
@[simp] theorem State.setEnt_bytes : (s.setEnt v).bytes = s.bytes := rfl
@[simp] theorem State.setEnt_chk : (s.setEnt v).chk = s.chk := rfl
@[simp] theorem State.setEnt_idx : (s.setEnt v).idx = s.idx := rfl
@[simp] theorem State.setEnt_nwords : (s.setEnt v).nwords = s.nwords := rfl
@[simp] theorem State.setEnt_kidx : (s.setEnt v).kidx = s.kidx := rfl
@[simp] theorem State.setEnt_key : (s.setEnt v).key = s.key := rfl
@[simp] theorem State.setEnt_word : (s.setEnt v).word = s.word := rfl
@[simp] theorem State.setEnt_text : (s.setEnt v).text = s.text := rfl
@[simp] theorem State.setEnt_textLen : (s.setEnt v).textLen = s.textLen := rfl
@[simp] theorem State.setEnt_cmd : (s.setEnt v).cmd = s.cmd := rfl
@[simp] theorem State.setEnt_status : (s.setEnt v).status = s.status := rfl
@[simp] theorem State.setEnt_wl : (s.setEnt v).wl = s.wl := rfl
@[simp] theorem State.setEnt_port : (s.setEnt v).port = s.port := rfl
@[simp] theorem State.setEnt_reply : (s.setEnt v).reply = s.reply := rfl
end setEnt

section setBytes
variable (s : State) (v : EntropyBytes)
@[simp] theorem State.setBytes_ent : (s.setBytes v).ent = s.ent := rfl
@[simp] theorem State.setBytes_bytes : (s.setBytes v).bytes = v := rfl
@[simp] theorem State.setBytes_chk : (s.setBytes v).chk = s.chk := rfl
@[simp] theorem State.setBytes_idx : (s.setBytes v).idx = s.idx := rfl
@[simp] theorem State.setBytes_nwords : (s.setBytes v).nwords = s.nwords := rfl
@[simp] theorem State.setBytes_kidx : (s.setBytes v).kidx = s.kidx := rfl
@[simp] theorem State.setBytes_key : (s.setBytes v).key = s.key := rfl
@[simp] theorem State.setBytes_word : (s.setBytes v).word = s.word := rfl
@[simp] theorem State.setBytes_text : (s.setBytes v).text = s.text := rfl
@[simp] theorem State.setBytes_textLen : (s.setBytes v).textLen = s.textLen := rfl
@[simp] theorem State.setBytes_cmd : (s.setBytes v).cmd = s.cmd := rfl
@[simp] theorem State.setBytes_status : (s.setBytes v).status = s.status := rfl
@[simp] theorem State.setBytes_wl : (s.setBytes v).wl = s.wl := rfl
@[simp] theorem State.setBytes_port : (s.setBytes v).port = s.port := rfl
@[simp] theorem State.setBytes_reply : (s.setBytes v).reply = s.reply := rfl
end setBytes

section setChk
variable (s : State) (v : Checksum)
@[simp] theorem State.setChk_ent : (s.setChk v).ent = s.ent := rfl
@[simp] theorem State.setChk_bytes : (s.setChk v).bytes = s.bytes := rfl
@[simp] theorem State.setChk_chk : (s.setChk v).chk = v := rfl
@[simp] theorem State.setChk_idx : (s.setChk v).idx = s.idx := rfl
@[simp] theorem State.setChk_nwords : (s.setChk v).nwords = s.nwords := rfl
@[simp] theorem State.setChk_kidx : (s.setChk v).kidx = s.kidx := rfl
@[simp] theorem State.setChk_key : (s.setChk v).key = s.key := rfl
@[simp] theorem State.setChk_word : (s.setChk v).word = s.word := rfl
@[simp] theorem State.setChk_text : (s.setChk v).text = s.text := rfl
@[simp] theorem State.setChk_textLen : (s.setChk v).textLen = s.textLen := rfl
@[simp] theorem State.setChk_cmd : (s.setChk v).cmd = s.cmd := rfl
@[simp] theorem State.setChk_status : (s.setChk v).status = s.status := rfl
@[simp] theorem State.setChk_wl : (s.setChk v).wl = s.wl := rfl
@[simp] theorem State.setChk_port : (s.setChk v).port = s.port := rfl
@[simp] theorem State.setChk_reply : (s.setChk v).reply = s.reply := rfl
end setChk

section setIdx
variable (s : State) (v : Vector Index 12)
@[simp] theorem State.setIdx_ent : (s.setIdx v).ent = s.ent := rfl
@[simp] theorem State.setIdx_bytes : (s.setIdx v).bytes = s.bytes := rfl
@[simp] theorem State.setIdx_chk : (s.setIdx v).chk = s.chk := rfl
@[simp] theorem State.setIdx_idx : (s.setIdx v).idx = v := rfl
@[simp] theorem State.setIdx_nwords : (s.setIdx v).nwords = s.nwords := rfl
@[simp] theorem State.setIdx_kidx : (s.setIdx v).kidx = s.kidx := rfl
@[simp] theorem State.setIdx_key : (s.setIdx v).key = s.key := rfl
@[simp] theorem State.setIdx_word : (s.setIdx v).word = s.word := rfl
@[simp] theorem State.setIdx_text : (s.setIdx v).text = s.text := rfl
@[simp] theorem State.setIdx_textLen : (s.setIdx v).textLen = s.textLen := rfl
@[simp] theorem State.setIdx_cmd : (s.setIdx v).cmd = s.cmd := rfl
@[simp] theorem State.setIdx_status : (s.setIdx v).status = s.status := rfl
@[simp] theorem State.setIdx_wl : (s.setIdx v).wl = s.wl := rfl
@[simp] theorem State.setIdx_port : (s.setIdx v).port = s.port := rfl
@[simp] theorem State.setIdx_reply : (s.setIdx v).reply = s.reply := rfl
end setIdx

section setNwords
variable (s : State) (v : BitVec 8)
@[simp] theorem State.setNwords_ent : (s.setNwords v).ent = s.ent := rfl
@[simp] theorem State.setNwords_bytes : (s.setNwords v).bytes = s.bytes := rfl
@[simp] theorem State.setNwords_chk : (s.setNwords v).chk = s.chk := rfl
@[simp] theorem State.setNwords_idx : (s.setNwords v).idx = s.idx := rfl
@[simp] theorem State.setNwords_nwords : (s.setNwords v).nwords = v := rfl
@[simp] theorem State.setNwords_kidx : (s.setNwords v).kidx = s.kidx := rfl
@[simp] theorem State.setNwords_key : (s.setNwords v).key = s.key := rfl
@[simp] theorem State.setNwords_word : (s.setNwords v).word = s.word := rfl
@[simp] theorem State.setNwords_text : (s.setNwords v).text = s.text := rfl
@[simp] theorem State.setNwords_textLen : (s.setNwords v).textLen = s.textLen := rfl
@[simp] theorem State.setNwords_cmd : (s.setNwords v).cmd = s.cmd := rfl
@[simp] theorem State.setNwords_status : (s.setNwords v).status = s.status := rfl
@[simp] theorem State.setNwords_wl : (s.setNwords v).wl = s.wl := rfl
@[simp] theorem State.setNwords_port : (s.setNwords v).port = s.port := rfl
@[simp] theorem State.setNwords_reply : (s.setNwords v).reply = s.reply := rfl
end setNwords

section setKidx
variable (s : State) (v : Index)
@[simp] theorem State.setKidx_ent : (s.setKidx v).ent = s.ent := rfl
@[simp] theorem State.setKidx_bytes : (s.setKidx v).bytes = s.bytes := rfl
@[simp] theorem State.setKidx_chk : (s.setKidx v).chk = s.chk := rfl
@[simp] theorem State.setKidx_idx : (s.setKidx v).idx = s.idx := rfl
@[simp] theorem State.setKidx_nwords : (s.setKidx v).nwords = s.nwords := rfl
@[simp] theorem State.setKidx_kidx : (s.setKidx v).kidx = v := rfl
@[simp] theorem State.setKidx_key : (s.setKidx v).key = s.key := rfl
@[simp] theorem State.setKidx_word : (s.setKidx v).word = s.word := rfl
@[simp] theorem State.setKidx_text : (s.setKidx v).text = s.text := rfl
@[simp] theorem State.setKidx_textLen : (s.setKidx v).textLen = s.textLen := rfl
@[simp] theorem State.setKidx_cmd : (s.setKidx v).cmd = s.cmd := rfl
@[simp] theorem State.setKidx_status : (s.setKidx v).status = s.status := rfl
@[simp] theorem State.setKidx_wl : (s.setKidx v).wl = s.wl := rfl
@[simp] theorem State.setKidx_port : (s.setKidx v).port = s.port := rfl
@[simp] theorem State.setKidx_reply : (s.setKidx v).reply = s.reply := rfl
end setKidx

section setKey
variable (s : State) (v : WordKey)
@[simp] theorem State.setKey_ent : (s.setKey v).ent = s.ent := rfl
@[simp] theorem State.setKey_bytes : (s.setKey v).bytes = s.bytes := rfl
@[simp] theorem State.setKey_chk : (s.setKey v).chk = s.chk := rfl
@[simp] theorem State.setKey_idx : (s.setKey v).idx = s.idx := rfl
@[simp] theorem State.setKey_nwords : (s.setKey v).nwords = s.nwords := rfl
@[simp] theorem State.setKey_kidx : (s.setKey v).kidx = s.kidx := rfl
@[simp] theorem State.setKey_key : (s.setKey v).key = v := rfl
@[simp] theorem State.setKey_word : (s.setKey v).word = s.word := rfl
@[simp] theorem State.setKey_text : (s.setKey v).text = s.text := rfl
@[simp] theorem State.setKey_textLen : (s.setKey v).textLen = s.textLen := rfl
@[simp] theorem State.setKey_cmd : (s.setKey v).cmd = s.cmd := rfl
@[simp] theorem State.setKey_status : (s.setKey v).status = s.status := rfl
@[simp] theorem State.setKey_wl : (s.setKey v).wl = s.wl := rfl
@[simp] theorem State.setKey_port : (s.setKey v).port = s.port := rfl
@[simp] theorem State.setKey_reply : (s.setKey v).reply = s.reply := rfl
end setKey

section setWord
variable (s : State) (v : Vector WordKey 12)
@[simp] theorem State.setWord_ent : (s.setWord v).ent = s.ent := rfl
@[simp] theorem State.setWord_bytes : (s.setWord v).bytes = s.bytes := rfl
@[simp] theorem State.setWord_chk : (s.setWord v).chk = s.chk := rfl
@[simp] theorem State.setWord_idx : (s.setWord v).idx = s.idx := rfl
@[simp] theorem State.setWord_nwords : (s.setWord v).nwords = s.nwords := rfl
@[simp] theorem State.setWord_kidx : (s.setWord v).kidx = s.kidx := rfl
@[simp] theorem State.setWord_key : (s.setWord v).key = s.key := rfl
@[simp] theorem State.setWord_word : (s.setWord v).word = v := rfl
@[simp] theorem State.setWord_text : (s.setWord v).text = s.text := rfl
@[simp] theorem State.setWord_textLen : (s.setWord v).textLen = s.textLen := rfl
@[simp] theorem State.setWord_cmd : (s.setWord v).cmd = s.cmd := rfl
@[simp] theorem State.setWord_status : (s.setWord v).status = s.status := rfl
@[simp] theorem State.setWord_wl : (s.setWord v).wl = s.wl := rfl
@[simp] theorem State.setWord_port : (s.setWord v).port = s.port := rfl
@[simp] theorem State.setWord_reply : (s.setWord v).reply = s.reply := rfl
end setWord

section setText
variable (s : State) (v : Vector Byte 64)
@[simp] theorem State.setText_ent : (s.setText v).ent = s.ent := rfl
@[simp] theorem State.setText_bytes : (s.setText v).bytes = s.bytes := rfl
@[simp] theorem State.setText_chk : (s.setText v).chk = s.chk := rfl
@[simp] theorem State.setText_idx : (s.setText v).idx = s.idx := rfl
@[simp] theorem State.setText_nwords : (s.setText v).nwords = s.nwords := rfl
@[simp] theorem State.setText_kidx : (s.setText v).kidx = s.kidx := rfl
@[simp] theorem State.setText_key : (s.setText v).key = s.key := rfl
@[simp] theorem State.setText_word : (s.setText v).word = s.word := rfl
@[simp] theorem State.setText_text : (s.setText v).text = v := rfl
@[simp] theorem State.setText_textLen : (s.setText v).textLen = s.textLen := rfl
@[simp] theorem State.setText_cmd : (s.setText v).cmd = s.cmd := rfl
@[simp] theorem State.setText_status : (s.setText v).status = s.status := rfl
@[simp] theorem State.setText_wl : (s.setText v).wl = s.wl := rfl
@[simp] theorem State.setText_port : (s.setText v).port = s.port := rfl
@[simp] theorem State.setText_reply : (s.setText v).reply = s.reply := rfl
end setText

section setTextLen
variable (s : State) (v : BitVec 7)
@[simp] theorem State.setTextLen_ent : (s.setTextLen v).ent = s.ent := rfl
@[simp] theorem State.setTextLen_bytes : (s.setTextLen v).bytes = s.bytes := rfl
@[simp] theorem State.setTextLen_chk : (s.setTextLen v).chk = s.chk := rfl
@[simp] theorem State.setTextLen_idx : (s.setTextLen v).idx = s.idx := rfl
@[simp] theorem State.setTextLen_nwords : (s.setTextLen v).nwords = s.nwords := rfl
@[simp] theorem State.setTextLen_kidx : (s.setTextLen v).kidx = s.kidx := rfl
@[simp] theorem State.setTextLen_key : (s.setTextLen v).key = s.key := rfl
@[simp] theorem State.setTextLen_word : (s.setTextLen v).word = s.word := rfl
@[simp] theorem State.setTextLen_text : (s.setTextLen v).text = s.text := rfl
@[simp] theorem State.setTextLen_textLen : (s.setTextLen v).textLen = v := rfl
@[simp] theorem State.setTextLen_cmd : (s.setTextLen v).cmd = s.cmd := rfl
@[simp] theorem State.setTextLen_status : (s.setTextLen v).status = s.status := rfl
@[simp] theorem State.setTextLen_wl : (s.setTextLen v).wl = s.wl := rfl
@[simp] theorem State.setTextLen_port : (s.setTextLen v).port = s.port := rfl
@[simp] theorem State.setTextLen_reply : (s.setTextLen v).reply = s.reply := rfl
end setTextLen

section setCmd
variable (s : State) (v : Word)
@[simp] theorem State.setCmd_ent : (s.setCmd v).ent = s.ent := rfl
@[simp] theorem State.setCmd_bytes : (s.setCmd v).bytes = s.bytes := rfl
@[simp] theorem State.setCmd_chk : (s.setCmd v).chk = s.chk := rfl
@[simp] theorem State.setCmd_idx : (s.setCmd v).idx = s.idx := rfl
@[simp] theorem State.setCmd_nwords : (s.setCmd v).nwords = s.nwords := rfl
@[simp] theorem State.setCmd_kidx : (s.setCmd v).kidx = s.kidx := rfl
@[simp] theorem State.setCmd_key : (s.setCmd v).key = s.key := rfl
@[simp] theorem State.setCmd_word : (s.setCmd v).word = s.word := rfl
@[simp] theorem State.setCmd_text : (s.setCmd v).text = s.text := rfl
@[simp] theorem State.setCmd_textLen : (s.setCmd v).textLen = s.textLen := rfl
@[simp] theorem State.setCmd_cmd : (s.setCmd v).cmd = v := rfl
@[simp] theorem State.setCmd_status : (s.setCmd v).status = s.status := rfl
@[simp] theorem State.setCmd_wl : (s.setCmd v).wl = s.wl := rfl
@[simp] theorem State.setCmd_port : (s.setCmd v).port = s.port := rfl
@[simp] theorem State.setCmd_reply : (s.setCmd v).reply = s.reply := rfl
end setCmd

section setStatus
variable (s : State) (v : StatusBits)
@[simp] theorem State.setStatus_ent : (s.setStatus v).ent = s.ent := rfl
@[simp] theorem State.setStatus_bytes : (s.setStatus v).bytes = s.bytes := rfl
@[simp] theorem State.setStatus_chk : (s.setStatus v).chk = s.chk := rfl
@[simp] theorem State.setStatus_idx : (s.setStatus v).idx = s.idx := rfl
@[simp] theorem State.setStatus_nwords : (s.setStatus v).nwords = s.nwords := rfl
@[simp] theorem State.setStatus_kidx : (s.setStatus v).kidx = s.kidx := rfl
@[simp] theorem State.setStatus_key : (s.setStatus v).key = s.key := rfl
@[simp] theorem State.setStatus_word : (s.setStatus v).word = s.word := rfl
@[simp] theorem State.setStatus_text : (s.setStatus v).text = s.text := rfl
@[simp] theorem State.setStatus_textLen : (s.setStatus v).textLen = s.textLen := rfl
@[simp] theorem State.setStatus_cmd : (s.setStatus v).cmd = s.cmd := rfl
@[simp] theorem State.setStatus_status : (s.setStatus v).status = v := rfl
@[simp] theorem State.setStatus_wl : (s.setStatus v).wl = s.wl := rfl
@[simp] theorem State.setStatus_port : (s.setStatus v).port = s.port := rfl
@[simp] theorem State.setStatus_reply : (s.setStatus v).reply = s.reply := rfl
end setStatus

section setPort
variable (s : State) (v : List PortEvent)
@[simp] theorem State.setPort_ent : (s.setPort v).ent = s.ent := rfl
@[simp] theorem State.setPort_bytes : (s.setPort v).bytes = s.bytes := rfl
@[simp] theorem State.setPort_chk : (s.setPort v).chk = s.chk := rfl
@[simp] theorem State.setPort_idx : (s.setPort v).idx = s.idx := rfl
@[simp] theorem State.setPort_nwords : (s.setPort v).nwords = s.nwords := rfl
@[simp] theorem State.setPort_kidx : (s.setPort v).kidx = s.kidx := rfl
@[simp] theorem State.setPort_key : (s.setPort v).key = s.key := rfl
@[simp] theorem State.setPort_word : (s.setPort v).word = s.word := rfl
@[simp] theorem State.setPort_text : (s.setPort v).text = s.text := rfl
@[simp] theorem State.setPort_textLen : (s.setPort v).textLen = s.textLen := rfl
@[simp] theorem State.setPort_cmd : (s.setPort v).cmd = s.cmd := rfl
@[simp] theorem State.setPort_status : (s.setPort v).status = s.status := rfl
@[simp] theorem State.setPort_wl : (s.setPort v).wl = s.wl := rfl
@[simp] theorem State.setPort_port : (s.setPort v).port = v := rfl
@[simp] theorem State.setPort_reply : (s.setPort v).reply = s.reply := rfl
end setPort

section setReply
variable (s : State) (v : Option Word)
@[simp] theorem State.setReply_ent : (s.setReply v).ent = s.ent := rfl
@[simp] theorem State.setReply_bytes : (s.setReply v).bytes = s.bytes := rfl
@[simp] theorem State.setReply_chk : (s.setReply v).chk = s.chk := rfl
@[simp] theorem State.setReply_idx : (s.setReply v).idx = s.idx := rfl
@[simp] theorem State.setReply_nwords : (s.setReply v).nwords = s.nwords := rfl
@[simp] theorem State.setReply_kidx : (s.setReply v).kidx = s.kidx := rfl
@[simp] theorem State.setReply_key : (s.setReply v).key = s.key := rfl
@[simp] theorem State.setReply_word : (s.setReply v).word = s.word := rfl
@[simp] theorem State.setReply_text : (s.setReply v).text = s.text := rfl
@[simp] theorem State.setReply_textLen : (s.setReply v).textLen = s.textLen := rfl
@[simp] theorem State.setReply_cmd : (s.setReply v).cmd = s.cmd := rfl
@[simp] theorem State.setReply_status : (s.setReply v).status = s.status := rfl
@[simp] theorem State.setReply_wl : (s.setReply v).wl = s.wl := rfl
@[simp] theorem State.setReply_port : (s.setReply v).port = s.port := rfl
@[simp] theorem State.setReply_reply : (s.setReply v).reply = v := rfl
end setReply

end Sys2Proof.Machine
end

