-- ==== Sys2Proof/Laws/Ops.lean ====
section
/-! SUPPORT. What the shared operations can do, said once: zeroing registers, raising an error, ending a
command, and what each command's steps change. -/

namespace Sys2Proof.Machine

/-! ## Registers that agree -/

theorem sameReg_refl (s : State) (r : DataReg) : sameReg s s r := by cases r <;> rfl

theorem sameReg_trans {s t u : State} {r : DataReg} (h1 : sameReg s t r) (h2 : sameReg t u r) :
    sameReg s u r := by
  cases r <;> exact Eq.trans h2 h1

theorem sameOutside_refl (s : State) : sameOutside s s := ⟨rfl, rfl, rfl, rfl⟩

theorem sameOutside_trans {s t u : State} (h1 : sameOutside s t) (h2 : sameOutside t u) :
    sameOutside s u :=
  ⟨h2.1.trans h1.1, h2.2.1.trans h1.2.1, h2.2.2.1.trans h1.2.2.1, h2.2.2.2.trans h1.2.2.2⟩

@[simp] theorem sameReg_setStatus (s t : State) (v : StatusBits) (r : DataReg) :
    sameReg s (t.setStatus v) r ↔ sameReg s t r := by cases r <;> rfl

@[simp] theorem sameOutside_setStatus (s t : State) (v : StatusBits) :
    sameOutside s (t.setStatus v) ↔ sameOutside s t := Iff.rfl

@[simp] theorem regIsZero_setStatus (t : State) (v : StatusBits) (r : DataReg) :
    regIsZero (t.setStatus v) r ↔ regIsZero t r := by cases r <;> rfl

/-! ## Zeroing registers -/

theorem zeroReg_sameReg {s : State} {d r : DataReg} (h : r ≠ d) : sameReg s (zeroReg s d) r := by
  cases d <;> cases r <;> first | exact absurd rfl h | rfl

theorem zeroReg_regIsZero (s : State) (d : DataReg) : regIsZero (zeroReg s d) d := by
  cases d <;> simp [regIsZero, zeroReg, zeroKey]

/-- Zeroing a register keeps a zero register zero. -/
theorem regIsZero_zeroReg {s : State} {r : DataReg} (d : DataReg) (h : regIsZero s r) :
    regIsZero (zeroReg s d) r := by
  by_cases hd : r = d
  · exact hd ▸ zeroReg_regIsZero s d
  · have := zeroReg_sameReg (s := s) hd
    cases r <;> simp_all [regIsZero, sameReg]

theorem zeroReg_sameOutside (s : State) (d : DataReg) : sameOutside s (zeroReg s d) := by
  cases d <;> exact sameOutside_refl s

theorem zeroReg_status (s : State) (d : DataReg) : (zeroReg s d).status = s.status := by
  cases d <;> rfl

@[simp] theorem zeroRegs_nil (s : State) : zeroRegs [] s = s := rfl

@[simp] theorem zeroRegs_cons (d : DataReg) (ds : List DataReg) (s : State) :
    zeroRegs (d :: ds) s = zeroRegs ds (zeroReg s d) := rfl

theorem zeroRegs_sameReg {ds : List DataReg} {r : DataReg} (s : State) (h : r ∉ ds) :
    sameReg s (zeroRegs ds s) r := by
  induction ds generalizing s with
  | nil => exact sameReg_refl s r
  | cons d ds ih =>
    simp only [List.mem_cons, not_or] at h
    exact sameReg_trans (zeroReg_sameReg h.1) (ih _ h.2)

theorem zeroRegs_sameOutside (ds : List DataReg) (s : State) : sameOutside s (zeroRegs ds s) := by
  induction ds generalizing s with
  | nil => exact sameOutside_refl s
  | cons d ds ih => exact sameOutside_trans (zeroReg_sameOutside s d) (ih _)

theorem regIsZero_zeroRegs {s : State} {r : DataReg} (ds : List DataReg) (h : regIsZero s r) :
    regIsZero (zeroRegs ds s) r := by
  induction ds generalizing s with
  | nil => exact h
  | cons d ds ih => exact ih (regIsZero_zeroReg d h)

theorem zeroRegs_regIsZero {ds : List DataReg} {r : DataReg} (s : State) (h : r ∈ ds) :
    regIsZero (zeroRegs ds s) r := by
  induction ds generalizing s with
  | nil => simp at h
  | cons d ds ih =>
    rcases List.mem_cons.1 h with rfl | h
    · exact regIsZero_zeroRegs ds (zeroReg_regIsZero s r)
    · exact ih _ h

/-! ## Raising an error and ending a command -/

@[simp] theorem raise_status (ds : List DataReg) (c : Cause) (s : State) :
    (raise ds c s).status = c.status := rfl

/-- `raise` zeroes the destinations, keeps the rest, and reports (rule R240). -/
theorem raise_spec (ds : List DataReg) (c : Cause) (s : State) :
    (∀ r ∈ ds, regIsZero (raise ds c s) r) ∧ (∀ r ∉ ds, sameReg s (raise ds c s) r) ∧
      sameOutside s (raise ds c s) ∧ (raise ds c s).status = c.status :=
  ⟨fun r h => (regIsZero_setStatus _ _ r).2 (zeroRegs_regIsZero s h),
    fun r h => (sameReg_setStatus s _ _ r).2 (zeroRegs_sameReg s h),
    zeroRegs_sameOutside ds s, rfl⟩

@[simp] theorem finish_ok (i : Instr) (s t : State) : finish i (.ok t) s = t.setStatus 0 := by
  rw [← statusOk_eq]; rfl

@[simp] theorem finish_error (i : Instr) (c : Cause) (s : State) :
    finish i (.error c) s = raise (dests i) c s := rfl

@[simp] theorem command_eq (i : Instr) (f : State → Except Cause State) (s : State) :
    command i f s = .next (finish i (f s) s) := rfl

/-- Every cause has a non-zero error code (rule R231). -/
theorem Cause.err_ne_zero (c : Cause) : c.err ≠ 0 := by cases c <;> simp [Cause.err]

@[simp] theorem Cause.statusErr_status (c : Cause) : statusErr c.status = c.err :=
  statusErr_mkStatus _ _ _ _

@[simp] theorem Cause.statusHit_status (c : Cause) : statusHit c.status = 0 :=
  statusHit_mkStatus _ _ _ _

/-! ## Every command but LOOKUP is its steps, ended -/

/-- The steps of a command; LOOKUP, which may set `HIT`, is not of this form. -/
def stepsOf : Instr → State → Except Cause State
  | .nop | .lookup => .ok
  | .parse => parseStep
  | .render => renderStep
  | .e2b => e2bStep
  | .b2e => b2eStep
  | .cksum => cksumStep
  | .pack => packStep
  | .unpack => unpackStep
  | .verify => verifyStep
  | .idx2w => idx2wStep
  | .w2idx => w2idxStep
  | .wordat => wordatStep
  | .genw => genwSteps
  | .gete => geteSteps
  | .enc => encSteps
  | .dec => decSteps
  | .clr => fun t => .ok (zeroRegs (dests .clr) t)

theorem exec_eq_finish {i : Instr} (h : i ≠ .lookup) (s : State) :
    exec i s = .next (finish i (stepsOf i s) s) := by
  cases i <;> first | exact absurd rfl h | rfl

theorem exec_lookup (s : State) : exec .lookup s = .next (lookupEffect s) := rfl

/-- What a command can do, said once: LOOKUP answers, any other command ends with its steps' state or
with one error. -/
theorem exec_cases {i : Instr} {s t : State} (h : exec i s = .next t) :
    (i = .lookup ∧ t = lookupEffect s) ∨
    (i ≠ .lookup ∧ ∃ u, stepsOf i s = .ok u ∧ t = u.setStatus 0) ∨
    (i ≠ .lookup ∧ ∃ c, stepsOf i s = .error c ∧ t = raise (dests i) c s) := by
  by_cases hi : i = .lookup
  · subst hi; rw [exec_lookup] at h; injection h with h; exact .inl ⟨rfl, h.symm⟩
  · rw [exec_eq_finish hi] at h
    injection h with h
    cases hs : stepsOf i s with
    | ok u => exact .inr (.inl ⟨hi, u, rfl, by rw [← h, hs, finish_ok]⟩)
    | error c => exact .inr (.inr ⟨hi, c, rfl, by rw [← h, hs, finish_error]⟩)

/-! ## What the steps change -/

/-- A state reached by writing only the registers of `ds`: the frame of a command's steps. -/
structure WroteOnly (ds : List DataReg) (s t : State) : Prop where
  same : ∀ r, r ∉ ds → sameReg s t r
  outside : sameOutside s t
  status : t.status = s.status

theorem WroteOnly.refl (ds : List DataReg) (s : State) : WroteOnly ds s s :=
  ⟨fun r _ => sameReg_refl s r, sameOutside_refl s, rfl⟩

theorem WroteOnly.trans {ds : List DataReg} {s t u : State} (h1 : WroteOnly ds s t)
    (h2 : WroteOnly ds t u) : WroteOnly ds s u :=
  ⟨fun r h => sameReg_trans (h1.same r h) (h2.same r h), sameOutside_trans h1.outside h2.outside,
    h2.status.trans h1.status⟩

theorem WroteOnly.mono {ds es : List DataReg} {s t : State} (h : WroteOnly ds s t) (hs : ds ⊆ es) :
    WroteOnly es s t :=
  ⟨fun r hr => h.same r fun hd => hr (hs hd), h.outside, h.status⟩

theorem WroteOnly.setEnt (s : State) (v : Entropy) : WroteOnly [.ent] s (s.setEnt v) :=
  ⟨fun r hr => by cases r <;> simp_all [sameReg], ⟨rfl, rfl, rfl, rfl⟩, rfl⟩

theorem WroteOnly.setBytes (s : State) (v : EntropyBytes) : WroteOnly [.bytes] s (s.setBytes v) :=
  ⟨fun r hr => by cases r <;> simp_all [sameReg], ⟨rfl, rfl, rfl, rfl⟩, rfl⟩

theorem WroteOnly.setChk (s : State) (v : Checksum) : WroteOnly [.chk] s (s.setChk v) :=
  ⟨fun r hr => by cases r <;> simp_all [sameReg], ⟨rfl, rfl, rfl, rfl⟩, rfl⟩

theorem WroteOnly.setIdx (s : State) (v : Vector Index 12) : WroteOnly [.idx] s (s.setIdx v) :=
  ⟨fun r hr => by cases r <;> simp_all [sameReg], ⟨rfl, rfl, rfl, rfl⟩, rfl⟩

theorem WroteOnly.setKey (s : State) (v : WordKey) : WroteOnly [.key] s (s.setKey v) :=
  ⟨fun r hr => by cases r <;> simp_all [sameReg], ⟨rfl, rfl, rfl, rfl⟩, rfl⟩

theorem WroteOnly.setWord (s : State) (v : Vector WordKey 12) : WroteOnly [.word] s (s.setWord v) :=
  ⟨fun r hr => by cases r <;> simp_all [sameReg], ⟨rfl, rfl, rfl, rfl⟩, rfl⟩

theorem WroteOnly.setText (s : State) (v : Vector Byte 64) : WroteOnly [.text] s (s.setText v) :=
  ⟨fun r hr => by cases r <;> simp_all [sameReg], ⟨rfl, rfl, rfl, rfl⟩, rfl⟩

theorem WroteOnly.setTextLen (s : State) (v : BitVec 7) : WroteOnly [.textLen] s (s.setTextLen v) :=
  ⟨fun r hr => by cases r <;> simp_all [sameReg], ⟨rfl, rfl, rfl, rfl⟩, rfl⟩

/-- The `>>=` of two steps that complete is the two steps that complete. -/
theorem bind_ok {f : Except Cause State} {g : State → Except Cause State} {u : State}
    (h : f >>= g = .ok u) : ∃ t, f = .ok t ∧ g t = .ok u := by
  cases f with
  | error c => cases h
  | ok t => exact ⟨t, rfl, h⟩

/-- The `>>=` of two steps fails in the first or in the second. -/
theorem bind_error {f : Except Cause State} {g : State → Except Cause State} {c : Cause}
    (h : f >>= g = .error c) : f = .error c ∨ ∃ t, f = .ok t ∧ g t = .error c := by
  cases f with
  | error d => exact .inl h
  | ok t => exact .inr ⟨t, rfl, h⟩

theorem parseStep_ok {s t : State} (h : parseStep s = .ok t) :
    ∃ v, parseFn s.textString = .ok v ∧ t = s.setEnt v := by
  unfold parseStep at h
  split at h
  · rename_i v hv; injection h with h; exact ⟨v, hv, h.symm⟩
  · cases h

theorem parseStep_error {s : State} {c : Cause} (h : parseStep s = .error c) :
    parseFn s.textString = .error c := by
  unfold parseStep at h
  split at h
  · cases h
  · rename_i d hd; injection h with h; rw [hd, h]

theorem verifyStep_ok {s t : State} (h : verifyStep s = .ok t) :
    t = s ∧ cksum4 (toBytes s.ent) = s.chk := by
  unfold verifyStep verifyFn at h
  split at h
  · rename_i hv; injection h with h; exact ⟨h.symm, by simpa using hv⟩
  · cases h

theorem verifyStep_error {s : State} {c : Cause} (h : verifyStep s = .error c) :
    c = .checksum ∧ cksum4 (toBytes s.ent) ≠ s.chk := by
  unfold verifyStep verifyFn at h
  split at h
  · cases h
  · rename_i hv; injection h with h; exact ⟨h.symm, by simpa using hv⟩

theorem idx2wStep_ok {s t : State} (h : idx2wStep s = .ok t) :
    (∀ k : Fin 12, s.idx[k].toNat < s.wl.length) ∧
      t = s.setWord (Vector.ofFn fun k => wlAt s.wl s.idx[k]) := by
  unfold idx2wStep at h
  split at h
  · cases h
  · rename_i hn
    injection h with h
    refine ⟨fun k => ?_, h.symm⟩
    have := List.findIdx?_eq_none_iff.1 hn s.idx[k] (by simp)
    simpa using this

theorem idx2wStep_error {s : State} {c : Cause} (h : idx2wStep s = .error c) :
    ∃ k : Fin 12, c = .internalInvariant k ∧ s.wl.length ≤ s.idx[k].toNat ∧
      ∀ j : Fin 12, j < k → s.idx[j].toNat < s.wl.length := by
  unfold idx2wStep at h
  split at h
  · rename_i k hk
    injection h with h
    obtain ⟨hlt, hp, hj⟩ := List.findIdx?_eq_some_iff_getElem.1 hk
    simp only [Vector.length_toList] at hlt
    refine ⟨⟨k, hlt⟩, h.symm, by simpa using hp, fun j hjk => ?_⟩
    have := hj j.val hjk
    simpa using this
  · cases h

theorem w2idxStep_ok {s t : State} (h : w2idxStep s = .ok t) :
    s.nwords = 12 ∧ (∀ k : Fin 12, cam s.wl s.word[k] ≠ none) ∧
      t = s.setIdx (Vector.ofFn fun k => (cam s.wl s.word[k]).getD 0) := by
  unfold w2idxStep at h
  split at h
  · cases h
  · rename_i hn
    split at h
    · cases h
    · rename_i hm
      injection h with h
      refine ⟨BitVec.eq_of_toNat_eq (by simpa [Config.nWords] using hn), fun k => ?_, h.symm⟩
      have := List.findIdx?_eq_none_iff.1 hm s.word[k] (by simp)
      simpa [Option.isSome_iff_ne_none] using this

theorem w2idxStep_error {s : State} {c : Cause} (h : w2idxStep s = .error c) :
    (s.nwords ≠ 12 ∧ c = .wordCount s.nwords) ∨
    (s.nwords = 12 ∧ ∃ k : Fin 12, c = .unknownWord k ∧ cam s.wl s.word[k] = none ∧
      ∀ j : Fin 12, j < k → cam s.wl s.word[j] ≠ none) := by
  unfold w2idxStep at h
  split at h
  · rename_i hn
    injection h with h
    exact .inl ⟨fun hc => hn (by rw [hc]; rfl), h.symm⟩
  · rename_i hn
    refine .inr ⟨BitVec.eq_of_toNat_eq (by simpa [Config.nWords] using hn), ?_⟩
    split at h
    · rename_i k hk
      injection h with h
      obtain ⟨hlt, hp, hj⟩ := List.findIdx?_eq_some_iff_getElem.1 hk
      simp only [Vector.length_toList] at hlt
      refine ⟨⟨k, hlt⟩, h.symm, by simpa using hp, fun j hjk => ?_⟩
      have := hj j.val hjk
      simpa [Option.isSome_iff_ne_none] using this
    · cases h

theorem wordatStep_ok {s t : State} (h : wordatStep s = .ok t) :
    s.kidx.toNat < s.wl.length ∧ t = s.setKey (wlAt s.wl s.kidx) := by
  unfold wordatStep at h
  split at h
  · cases h
  · rename_i hn; injection h with h; exact ⟨by omega, h.symm⟩

theorem wordatStep_error {s : State} {c : Cause} (h : wordatStep s = .error c) :
    c = .internalInvariant 0 ∧ s.wl.length ≤ s.kidx.toNat := by
  unfold wordatStep at h
  split at h
  · rename_i hn; injection h with h; exact ⟨h.symm, hn⟩
  · cases h

/-- The steps of a command write its destinations only (rules R21, R72). -/
theorem stepsOf_wroteOnly {i : Instr} {s t : State} (h : stepsOf i s = .ok t) :
    WroteOnly (dests i) s t := by
  have e2b {s t : State} (h : e2bStep s = .ok t) : WroteOnly [.bytes] s t := by
    injection h with h; exact h ▸ .setBytes s _
  have cksum {s t : State} (h : cksumStep s = .ok t) : WroteOnly [.chk] s t := by
    injection h with h; exact h ▸ .setChk s _
  have pack {s t : State} (h : packStep s = .ok t) : WroteOnly [.idx] s t := by
    injection h with h; exact h ▸ .setIdx s _
  have unpack {s t : State} (h : unpackStep s = .ok t) : WroteOnly [.ent, .chk] s t := by
    injection h with h
    exact h ▸ ((WroteOnly.setChk s _).mono (by simp)).trans ((WroteOnly.setEnt _ _).mono (by simp))
  have render {s t : State} (h : renderStep s = .ok t) : WroteOnly [.text, .textLen] s t := by
    injection h with h
    exact h ▸ ((WroteOnly.setText s _).mono (by simp)).trans
      ((WroteOnly.setTextLen _ _).mono (by simp))
  have parse {s t : State} (h : parseStep s = .ok t) : WroteOnly [.ent] s t := by
    obtain ⟨v, -, rfl⟩ := parseStep_ok h; exact .setEnt s v
  have idx2w {s t : State} (h : idx2wStep s = .ok t) : WroteOnly [.word] s t := by
    obtain ⟨-, rfl⟩ := idx2wStep_ok h; exact .setWord s _
  have w2idx {s t : State} (h : w2idxStep s = .ok t) : WroteOnly [.idx] s t := by
    obtain ⟨-, -, rfl⟩ := w2idxStep_ok h; exact .setIdx s _
  have verify {s t : State} (h : verifyStep s = .ok t) : WroteOnly [] s t := by
    obtain ⟨rfl, -⟩ := verifyStep_ok h; exact .refl _ _
  have genw {s t : State} (h : genwSteps s = .ok t) : WroteOnly [.bytes, .chk, .idx, .word] s t := by
    obtain ⟨c, h, h4⟩ := bind_ok h
    obtain ⟨b, h, h3⟩ := bind_ok h
    obtain ⟨a, h1, h2⟩ := bind_ok h
    exact (((e2b h1).mono (by simp)).trans ((cksum h2).mono (by simp))).trans
      (((pack h3).mono (by simp)).trans ((idx2w h4).mono (by simp)))
  have gete {s t : State} (h : geteSteps s = .ok t) : WroteOnly [.idx, .ent, .chk] s t := by
    obtain ⟨b, h, h3⟩ := bind_ok h
    obtain ⟨a, h1, h2⟩ := bind_ok h
    exact (((w2idx h1).mono (by simp)).trans ((unpack h2).mono (by simp))).trans
      ((verify h3).mono (by simp))
  cases i with
  | nop => injection h with h; subst h; exact .refl _ _
  | lookup => injection h with h; subst h; exact .refl _ _
  | parse => exact parse h
  | render => exact render h
  | e2b => exact e2b h
  | b2e => injection h with h; exact h ▸ .setEnt s _
  | cksum => exact cksum h
  | pack => exact pack h
  | unpack => exact unpack h
  | verify => exact verify h
  | idx2w => exact idx2w h
  | w2idx => exact w2idx h
  | wordat => obtain ⟨-, rfl⟩ := wordatStep_ok h; exact .setKey s _
  | genw => exact genw h
  | gete => exact gete h
  | enc =>
    obtain ⟨a, h1, h2⟩ := bind_ok h
    exact ((parse h1).mono (by simp [dests])).trans ((genw h2).mono (by simp [dests]))
  | dec =>
    obtain ⟨a, h1, h2⟩ := bind_ok h
    exact ((gete h1).mono (by simp [dests])).trans ((render h2).mono (by simp [dests]))
  | clr =>
    injection h with h; subst h
    exact ⟨fun r hr => zeroRegs_sameReg s hr, zeroRegs_sameOutside _ s, rfl⟩

/-- LOOKUP writes `KIDX` and `STATUS` only (rule R163). -/
theorem lookupEffect_spec (s : State) :
    (∀ r, r ≠ .kidx → sameReg s (lookupEffect s) r) ∧ sameOutside s (lookupEffect s) := by
  unfold lookupEffect
  cases cam s.wl s.key with
  | none => exact ⟨fun r hr => by cases r <;> first | exact absurd rfl hr | rfl, rfl, rfl, rfl, rfl⟩
  | some i => exact ⟨fun r hr => by cases r <;> first | exact absurd rfl hr | rfl, rfl, rfl, rfl, rfl⟩

end Sys2Proof.Machine
end

