-- ==== Sys2Proof/Laws/Address.lean ====
section
/-! SUPPORT. The string functions of the address parser: trimming, splitting, tokens, and what
`parse_fn` can answer, each said once. -/

namespace Sys2Proof.Machine

/-! ## Splitting (rule R100) -/

theorem splitFrom_skip (sep x cur : List Byte) (k : Nat) :
    splitFrom sep x cur k = splitFrom sep (x.drop k) cur 0 := by
  induction x generalizing k with
  | nil => simp [splitFrom]
  | cons b x ih =>
    cases k with
    | zero => rfl
    | succ k => simpa [splitFrom] using ih k

@[simp] theorem splitFrom_nil (sep cur : List Byte) : splitFrom sep [] cur 0 = [cur.reverse] := rfl

/-- Where the separator stands, the current piece ends. -/
theorem splitFrom_sep {sep : List Byte} (h : sep ≠ []) (y cur : List Byte) :
    splitFrom sep (sep ++ y) cur 0 = cur.reverse :: split y sep := by
  obtain ⟨b, rest, rfl⟩ := List.exists_cons_of_ne_nil h
  have hp : (b :: rest).isPrefixOf (b :: (rest ++ y)) = true := by
    rw [List.isPrefixOf_iff_prefix]; exact ⟨y, by simp⟩
  simp only [List.cons_append, splitFrom, hp, if_true]
  rw [splitFrom_skip]
  simp [split]

/-- Where it does not, the byte joins the current piece. -/
theorem splitFrom_other {sep : List Byte} {b : Byte} {rest cur : List Byte}
    (h : ¬ sep <+: b :: rest) : splitFrom sep (b :: rest) cur 0 = splitFrom sep rest (b :: cur) 0 := by
  have hp : sep.isPrefixOf (b :: rest) = false := by
    rw [← Bool.not_eq_true, List.isPrefixOf_iff_prefix]; exact h
  simp [splitFrom, hp]

/-- Reading a string along its split: it is empty, or starts with the separator, or does not. -/
theorem split_induction {sep : List Byte} {P : List Byte → Prop} (hs : sep ≠ [])
    (nil : P []) (sepc : ∀ y, P y → P (sep ++ y))
    (other : ∀ b rest, ¬ sep <+: b :: rest → P rest → P (b :: rest)) (x : List Byte) : P x := by
  induction hn : x.length using Nat.strong_induction_on generalizing x with
  | _ n ih =>
    subst hn
    cases x with
    | nil => exact nil
    | cons b rest =>
      by_cases h : sep <+: b :: rest
      · obtain ⟨y, hy⟩ := h
        rw [← hy]
        refine sepc y (ih y.length ?_ y rfl)
        have := congrArg List.length hy
        have := List.length_pos_of_ne_nil hs
        simp at *; omega
      · exact other b rest h (ih rest.length (by simp) rest rfl)

/-- The pieces, joined by the separator, are the string. -/
theorem intercalate_splitFrom {sep : List Byte} (hs : sep ≠ []) (x cur : List Byte) :
    sep.intercalate (splitFrom sep x cur 0) = cur.reverse ++ x := by
  induction x using split_induction hs generalizing cur with
  | nil => simp [List.intercalate]
  | sepc y ih =>
    rw [splitFrom_sep hs]
    have h := ih []
    rw [← split] at h
    obtain ⟨p, ps, hps⟩ : ∃ p ps, split y sep = p :: ps := by
      cases hsp : split y sep with
      | nil =>
        exfalso
        clear ih h
        revert hsp
        unfold split
        generalize ([] : List Byte) = c
        induction y using split_induction hs generalizing c with
        | nil => simp
        | sepc y _ => rw [splitFrom_sep hs]; simp
        | other b rest hb ih => rw [splitFrom_other hb]; exact ih _
      | cons p ps => exact ⟨p, ps, rfl⟩
    rw [hps] at h ⊢
    simp only [List.intercalate, List.intersperse, List.reverse_nil, List.nil_append] at *
    simp [h]
  | other b rest hb ih => rw [splitFrom_other hb, ih]; simp

theorem splitFrom_ne_nil {sep : List Byte} (hs : sep ≠ []) (x cur : List Byte) :
    splitFrom sep x cur 0 ≠ [] := by
  induction x using split_induction hs generalizing cur with
  | nil => simp
  | sepc y _ => rw [splitFrom_sep hs]; simp
  | other b rest hb ih => rw [splitFrom_other hb]; exact ih _

/-- The string again, from its pieces. -/
theorem intercalate_split {sep : List Byte} (hs : sep ≠ []) (x : List Byte) :
    sep.intercalate (split x sep) = x := by
  simpa [split] using intercalate_splitFrom hs x []

/-- A string without the separator is one piece. -/
theorem split_of_not_infix {sep x : List Byte} (hs : sep ≠ []) (h : ¬ sep <:+: x) :
    split x sep = [x] := by
  have key (cur : List Byte) : splitFrom sep x cur 0 = [cur.reverse ++ x] := by
    induction x using split_induction hs generalizing cur with
    | nil => simp
    | sepc y _ => exact absurd ⟨[], y, by simp⟩ h
    | other b rest hb ih =>
      rw [splitFrom_other hb, ih (fun hi => h (hi.trans (List.suffix_cons b rest).isInfix))]
      simp
  simpa [split] using key []

/-- There are at least two pieces exactly when the separator occurs. -/
theorem two_pieces_iff {sep : List Byte} (hs : sep ≠ []) (x cur : List Byte) :
    1 < (splitFrom sep x cur 0).length ↔ ∃ a b, x = a ++ sep ++ b := by
  induction x using split_induction hs generalizing cur with
  | nil => simp [hs]
  | sepc y _ =>
    have := List.length_pos_of_ne_nil (splitFrom_ne_nil hs y [])
    rw [splitFrom_sep hs]
    simp only [List.length_cons, split]
    exact ⟨fun _ => ⟨[], y, by simp⟩, fun _ => by omega⟩
  | other c rest hc ih =>
    rw [splitFrom_other hc, ih]
    constructor
    · rintro ⟨a, b, rfl⟩; exact ⟨c :: a, b, by simp⟩
    · rintro ⟨a, b, h⟩
      cases a with
      | nil => exact absurd ⟨b, by simpa using h.symm⟩ hc
      | cons d a => exact ⟨a, b, by simpa using (List.cons.inj h).2⟩

/-- There are at least three pieces exactly when it occurs twice without overlap (rule R102). -/
theorem three_pieces_iff {sep : List Byte} (hs : sep ≠ []) (x cur : List Byte) :
    2 < (splitFrom sep x cur 0).length ↔ ∃ a b c, x = a ++ sep ++ b ++ sep ++ c := by
  induction x using split_induction hs generalizing cur with
  | nil => simp [hs]
  | sepc y _ =>
    rw [splitFrom_sep hs, List.length_cons, Nat.succ_lt_succ_iff, split, two_pieces_iff hs]
    constructor
    · rintro ⟨b, c, rfl⟩; exact ⟨[], b, c, by simp⟩
    · rintro ⟨a, b, c, h⟩
      have hd := congrArg (List.drop sep.length) h
      rw [List.drop_left] at hd
      refine ⟨(a ++ sep ++ b).drop sep.length, c, ?_⟩
      have hl : sep.length ≤ (a ++ sep ++ b).length := by simp; omega
      rw [hd, List.append_assoc _ sep c, List.drop_append_of_le_length hl]
      simp
  | other d rest hd ih =>
    rw [splitFrom_other hd, ih]
    constructor
    · rintro ⟨a, b, c, rfl⟩; exact ⟨d :: a, b, c, by simp⟩
    · rintro ⟨a, b, c, h⟩
      cases a with
      | nil => exact absurd ⟨b ++ sep ++ c, by simpa using h.symm⟩ hd
      | cons e a => exact ⟨a, b, c, by simpa using (List.cons.inj h).2⟩

/-! ## Splitting at one byte -/

theorem singleton_prefix_iff {c b : Byte} {rest : List Byte} : [c] <+: b :: rest ↔ c = b := by
  simp [List.cons_prefix_cons]

/-- The pieces of a split at one byte do not hold it. -/
theorem not_mem_of_mem_splitFrom {c : Byte} (x cur : List Byte) (h : c ∉ cur) :
    ∀ p ∈ splitFrom [c] x cur 0, c ∉ p := by
  induction x using split_induction (sep := [c]) (by simp) generalizing cur with
  | nil => simpa using h
  | sepc y ih =>
    rw [splitFrom_sep (by simp)]
    intro p hp
    rcases List.mem_cons.1 hp with rfl | hp
    · simpa using h
    · exact ih [] (by simp) p hp
  | other b rest hb ih =>
    rw [splitFrom_other hb]
    exact ih (b :: cur) (by simpa [h] using fun hc => hb (singleton_prefix_iff.2 hc))

/-- Pieces without the byte, joined by it, are split into themselves. -/
theorem split_intercalate {c : Byte} {ps : List (List Byte)} (hne : ps ≠ [])
    (h : ∀ p ∈ ps, c ∉ p) : split ([c].intercalate ps) [c] = ps := by
  have one (p : List Byte) (hp : c ∉ p) (cur y : List Byte) :
      splitFrom [c] (p ++ [c] ++ y) cur 0 = (cur.reverse ++ p) :: split y [c] := by
    induction p generalizing cur with
    | nil => rw [List.nil_append, splitFrom_sep (by simp)]; simp
    | cons b p ih =>
      simp only [List.mem_cons, not_or] at hp
      rw [List.cons_append, List.cons_append,
        splitFrom_other (fun hq => hp.1 (singleton_prefix_iff.1 hq)), ih hp.2]
      simp
  induction ps with
  | nil => exact absurd rfl hne
  | cons p ps ih =>
    cases ps with
    | nil =>
      have : ¬ [c] <:+: p := fun hi => h p (by simp) (hi.subset (by simp))
      simpa [List.intercalate] using split_of_not_infix (by simp) this
    | cons q qs =>
      have := one p (h p (by simp)) [] ([c].intercalate (q :: qs))
      rw [ih (by simp) (fun r hr => h r (List.mem_cons_of_mem _ hr))] at this
      simpa [List.intercalate, split] using this

/-- The length of joined pieces. -/
theorem length_intercalate_singleton (c : Byte) (ps : List (List Byte)) :
    ([c].intercalate ps).length = (ps.map List.length).sum + (ps.length - 1) := by
  induction ps with
  | nil => simp [List.intercalate]
  | cons p ps ih =>
    cases ps with
    | nil => simp [List.intercalate]
    | cons q qs =>
      simp only [List.intercalate, List.intersperse] at ih ⊢
      simp at ih ⊢
      omega

/-! ## Tokens (rule R103) -/

theorem mem_groupTokens {side t : List Byte} (h : t ∈ groupTokens side) :
    t ≠ [] ∧ colonByte ∉ t := by
  obtain ⟨h1, h2⟩ := List.mem_filter.1 h
  exact ⟨by simpa using h2, not_mem_of_mem_splitFrom side [] (by simp) t h1⟩

/-- A side of `n` tokens has at least `2n - 1` bytes. -/
theorem groupTokens_length (side : List Byte) :
    2 * (groupTokens side).length ≤ side.length + 1 := by
  have h := length_intercalate_singleton colonByte (split side [colonByte])
  rw [intercalate_split (by simp)] at h
  have h1 : (groupTokens side).length ≤ (split side [colonByte]).length := List.length_filter_le _ _
  have h2 : (groupTokens side).length ≤ ((split side [colonByte]).map List.length).sum := by
    unfold groupTokens
    generalize split side [colonByte] = ps
    induction ps with
    | nil => simp
    | cons p ps ih => cases p <;> simp <;> omega
  omega

/-! ## Trimming (rule R101) -/

theorem trim_length (s : List Byte) : (trim s).length ≤ s.length := by
  have h1 := (List.dropWhile_suffix isWs (l := s)).length_le
  have h2 := (List.dropWhile_suffix isWs (l := (s.dropWhile isWs).reverse)).length_le
  simp only [trim, List.length_reverse] at *
  omega

/-- Nothing is left exactly when every byte is whitespace. -/
theorem trim_eq_nil_iff (s : List Byte) : trim s = [] ↔ ∀ b ∈ s, isWs b = true := by
  simp only [trim, List.reverse_eq_nil_iff, List.dropWhile_eq_nil_iff, List.mem_reverse]
  constructor
  · intro h
    have hd : s.dropWhile isWs = [] := by
      cases hs : s.dropWhile isWs with
      | nil => rfl
      | cons b rest =>
        have hb := h b (by simp [hs])
        have := List.head?_dropWhile_not isWs s
        simp [hs, hb] at this
    exact List.dropWhile_eq_nil_iff.1 hd
  · intro h b hb
    exact h b ((List.dropWhile_suffix _).subset hb)

/-! ## What the parser answers -/

/-- The errors of the count and syntax checks, with the numbers they name (rules R103, R104). -/
theorem assembleGroups_error {hasDc : Bool} {l r : List (List Byte)} {c : Cause}
    (h : assembleGroups hasDc l r = .error c) :
    (8 < l.length + r.length ∧ c = .tooManyGroups (l.length + r.length)) ∨
    (hasDc = false ∧ l.length + r.length < 8 ∧ c = .tooFewGroups (l.length + r.length)) ∨
    ∃ i, i < 8 ∧ c = .badGroup i := by
  unfold assembleGroups at h
  simp only at h
  split at h
  · exact .inl ⟨‹_›, by simpa using h.symm⟩
  · split at h
    · rename_i h1 h2
      simp only [Bool.and_eq_true, Bool.not_eq_true', bne_iff_ne] at h2
      exact .inr (.inl ⟨h2.1, by omega, by simpa using h.symm⟩)
    · split at h
      · rename_i i hi
        have := (List.findIdx?_eq_some_iff_findIdx_eq.1 hi).1
        simp only [List.length_append, List.length_replicate] at this
        exact .inr (.inr ⟨i, by omega, by simpa using h.symm⟩)
      · simp at h

/-- A parse answers from the groups of one piece, of two, or not at all (rules R100, R102, R103). -/
theorem parseLowered_cases (u : List Byte) :
    (∃ a, split u [colonByte, colonByte] = [a] ∧
      parseLowered u = assembleGroups false (groupTokens a) []) ∨
    (∃ a b, split u [colonByte, colonByte] = [a, b] ∧
      parseLowered u = assembleGroups true (groupTokens a) (groupTokens b)) ∨
    (2 < (split u [colonByte, colonByte]).length ∧ parseLowered u = .error .multiDColon) := by
  have hne := splitFrom_ne_nil (sep := [colonByte, colonByte]) (by simp) u []
  unfold parseLowered
  split
  · rename_i a h; exact .inl ⟨a, h, rfl⟩
  · rename_i a b h; exact .inr (.inl ⟨a, b, h, rfl⟩)
  · rename_i h1 h2
    refine .inr (.inr ⟨?_, rfl⟩)
    rw [← split] at hne
    match hs : split u [colonByte, colonByte] with
    | [] => exact absurd hs hne
    | [a] => exact absurd hs (h1 a)
    | [a, b] => exact absurd hs (h2 a b)
    | a :: b :: c :: rest => simp

/-- Every error of `parse_fn`, with the bounds of the number it names (rules R100, R232). -/
theorem parseFn_error {s : List Byte} {c : Cause} (h : parseFn s = .error c) :
    c = .empty ∨ c = .multiDColon ∨
    (∃ n, 8 < n ∧ 2 * n ≤ s.length + 1 ∧ c = .tooManyGroups n) ∨
    (∃ n, n < 8 ∧ c = .tooFewGroups n) ∨ ∃ i, i < 8 ∧ c = .badGroup i := by
  unfold parseFn at h
  split at h
  · exact .inl (by simpa using h.symm)
  have hl := trim_length s
  generalize hu : (trim s).map lower = u at h
  have hul : u.length ≤ s.length := by simpa [← hu] using hl
  have hi := intercalate_split (sep := [colonByte, colonByte]) (by simp) u
  rcases parseLowered_cases u with ⟨a, hs, hp⟩ | ⟨a, b, hs, hp⟩ | ⟨-, hp⟩
  · rw [hp] at h
    rw [hs] at hi
    have ha := groupTokens_length a
    have : a = u := by simpa [List.intercalate] using hi
    subst this
    rcases assembleGroups_error h with ⟨h1, h2⟩ | ⟨-, h1, h2⟩ | h1
    · exact .inr (.inr (.inl ⟨_, h1, by simp; omega, h2⟩))
    · exact .inr (.inr (.inr (.inl ⟨_, h1, h2⟩)))
    · exact .inr (.inr (.inr (.inr h1)))
  · rw [hp] at h
    rw [hs] at hi
    have ha := groupTokens_length a
    have hb := groupTokens_length b
    have hlen : a.length + 2 + b.length = u.length := by
      rw [← hi]; simp [List.intercalate]; omega
    rcases assembleGroups_error h with ⟨h1, h2⟩ | ⟨-, h1, h2⟩ | h1
    · exact .inr (.inr (.inl ⟨_, h1, by omega, h2⟩))
    · exact .inr (.inr (.inr (.inl ⟨_, h1, h2⟩)))
    · exact .inr (.inr (.inr (.inr h1)))
  · rw [hp] at h
    exact .inr (.inl (by simpa using h.symm))

/-! ## How a text is cut, and where its groups land -/

/-- The leftmost separator ends the first piece (rule R102): up to its first byte it stands nowhere. -/
theorem split_first {c : Byte} {left right : List Byte} (h : ¬ [c, c] <:+: left ++ [c]) :
    split (left ++ [c, c] ++ right) [c, c] = left :: split right [c, c] := by
  have key (cur : List Byte) :
      splitFrom [c, c] (left ++ [c, c] ++ right) cur 0 =
        (cur.reverse ++ left) :: split right [c, c] := by
    induction left generalizing cur with
    | nil => rw [List.nil_append, splitFrom_sep (by simp)]; simp
    | cons b left ih =>
      have hp : ¬ [c, c] <+: b :: (left ++ [c, c] ++ right) := by
        intro hp
        apply h
        refine List.IsPrefix.isInfix ?_
        obtain ⟨h1, h2⟩ := List.cons_prefix_cons.1 hp
        refine List.cons_prefix_cons.2 ⟨h1, ?_⟩
        cases left with
        | nil => simp
        | cons d left => simpa [List.cons_prefix_cons] using h2
      rw [List.cons_append, List.cons_append, splitFrom_other hp,
        ih (fun hi => h (hi.trans (List.suffix_cons b (left ++ [c])).isInfix))]
      simp
  simpa [split] using key []

/-- The tokens of a side are its non-empty pieces, however the pieces are found (rule R103). -/
theorem groupTokens_intercalate {ps : List (List Byte)} (hne : ps ≠ [])
    (h : ∀ p ∈ ps, colonByte ∉ p) :
    groupTokens ([colonByte].intercalate ps) = ps.filter fun p => !p.isEmpty := by
  rw [groupTokens, split_intercalate hne h]

/-- A text without `::` answers from the tokens of one side (rules R102, R103). -/
theorem parseFn_one {s : List Byte} (ht : trim s ≠ [])
    (h : ¬ [colonByte, colonByte] <:+: (trim s).map lower) :
    parseFn s = assembleGroups false (groupTokens ((trim s).map lower)) [] := by
  have he : (trim s).isEmpty = false := by simpa using ht
  simp only [parseFn, he, parseLowered, split_of_not_infix (by simp) h]
  rfl

/-- A text with one `::` answers from the tokens of its two sides (rules R102, R103). -/
theorem parseFn_two {s left right : List Byte}
    (hu : (trim s).map lower = left ++ [colonByte, colonByte] ++ right)
    (hl : ¬ [colonByte, colonByte] <:+: left ++ [colonByte])
    (hr : ¬ [colonByte, colonByte] <:+: right) :
    parseFn s = assembleGroups true (groupTokens left) (groupTokens right) := by
  have he : (trim s).isEmpty = false := by
    cases ht : trim s with
    | nil => simp [ht] at hu
    | cons => rfl
  simp only [parseFn, he, parseLowered, hu, split_first hl, split_of_not_infix (by simp) hr]
  rfl

/-- The value of digits, digit by digit (rule R77). -/
theorem groupVal_eq_foldl (x : List Byte) :
    groupVal x = x.foldl (fun m b => 16 * m + hexVal b) 0 := by
  have key (m : Nat) : x.foldl (fun m b => 16 * m + hexVal b) m = m * 16 ^ x.length + groupVal x := by
    induction x generalizing m with
    | nil => simp [groupVal]
    | cons b x ih => rw [List.foldl_cons, ih, groupVal, List.length_cons]; ring
  simpa using (key 0).symm

/-- `n` digits are below `16 ^ n` (rule R77). -/
theorem groupVal_lt {x : List Byte} (h : ∀ b ∈ x, isHexDigit b = true) :
    groupVal x < 16 ^ x.length := by
  have hv {b : Byte} (hb : isHexDigit b = true) : hexVal b ≤ 15 := by
    revert b; decide
  induction x with
  | nil => simp [groupVal]
  | cons b x ih =>
    have h1 := ih fun c hc => h c (List.mem_cons_of_mem _ hc)
    have h2 := hv (h b (by simp))
    rw [groupVal, List.length_cons, pow_succ]
    nlinarith [Nat.pos_of_ne_zero (pow_ne_zero x.length (by norm_num : (16 : Nat) ≠ 0))]

/-- Group `i` of eight folded groups is group `i`'s value (rule R105). -/
theorem entGroup_foldGroups {g : List (List Byte)} (hg : g.length = 8)
    (h : ∀ x ∈ g, groupOk x = true) (i : Nat) (hi : i < 8) :
    (entGroup (foldGroups g) i).toNat = groupVal (g[i]'(by omega)) := by
  have hlt {x : List Byte} (hx : groupOk x = true) : groupVal x < 2 ^ 16 := by
    simp only [groupOk, Bool.and_eq_true, decide_eq_true_eq, List.all_eq_true] at hx
    have h1 := groupVal_lt hx.2
    have h2 : 16 ^ x.length ≤ 16 ^ 4 := Nat.pow_le_pow_right (by norm_num) hx.1.2
    omega
  have hf : foldGroups g = (g.map fun x => BitVec.ofNat 16 (groupVal x)).foldl
      (fun (v : Entropy) x => (v <<< 16) ||| x.setWidth 128) 0 := by
    unfold foldGroups
    rw [List.foldl_map]
    clear hg hi
    generalize (0 : Entropy) = a
    induction g generalizing a with
    | nil => rfl
    | cons x g ih =>
      rw [List.foldl_cons, List.foldl_cons, ih fun y hy => h y (List.mem_cons_of_mem _ hy)]
      congr 2
      apply BitVec.eq_of_toNat_eq
      have := hlt (h x (by simp))
      simp
      omega
  have he := extract_foldl_shift (w := 128) (g.map fun x => BitVec.ofNat 16 (groupVal x))
    (by simp [hg]) i (by simp [hg, hi])
  have hs : 128 - 16 * (i + 1) = 112 - 16 * i := by omega
  rw [hs, ← hf] at he
  rw [entGroup, he]
  have := hlt (h _ (List.getElem_mem (l := g) (n := i) (by omega)))
  simp
  omega

end Sys2Proof.Machine
end

