-- ==== Sys2Proof/Laws/Codec.lean ====
section
/-! SUPPORT. The packed value and its slices, the entropy and its bytes, and folded keys. -/

namespace Sys2Proof.Machine

/-! ## Slices (rules R151 to R153) -/

/-- Bit by bit: every bit of a packed value is in one slice. -/
theorem packed_ext {p q : Packed} (h : ∀ k : Fin 12, slice p k = slice q k) : p = q := by
  apply BitVec.eq_of_getLsbD_eq
  intro i hi
  have hk : 11 - i / 11 < 12 := by omega
  have hs := congrArg (fun x => x.getLsbD (i % 11)) (h ⟨11 - i / 11, hk⟩)
  have hb : i % 11 < 11 := by omega
  have he : 121 - 11 * (11 - i / 11) + i % 11 = i := by omega
  simpa [slice, BitVec.getLsbD_extractLsb', hb, he] using hs

/-- Slice `k` of the folded indices is index `k` (rule R153). -/
theorem slice_foldIndices (v : Vector Index 12) (k : Fin 12) : slice (foldIndices v) k = v[k] := by
  have h := extract_foldl_shift (w := 132) v.toList (by simp) k.val (by simp)
  have he : 132 - 11 * (k.val + 1) = 121 - 11 * k.val := by omega
  rw [he] at h
  simpa [slice, foldIndices] using h

/-- A packed value is its entropy and its checksum. -/
theorem packed_split (p : Packed) : packed (p.extractLsb' 4 128) (p.extractLsb' 0 4) = p := by
  apply BitVec.eq_of_getLsbD_eq
  intro i hi
  rw [getLsbD_packed]
  split
  · simp [*]
  · have h1 : i - 4 < 128 := by omega
    have h2 : 4 + (i - 4) = i := by omega
    simp [h1, h2]

theorem packed_ent (e : Entropy) (c : Checksum) : (packed e c).extractLsb' 4 128 = e := by
  apply BitVec.eq_of_getLsbD_eq
  intro i hi
  rw [BitVec.getLsbD_extractLsb', getLsbD_packed]
  simp [hi]

theorem packed_chk (e : Entropy) (c : Checksum) : (packed e c).extractLsb' 0 4 = c := by
  apply BitVec.eq_of_getLsbD_eq
  intro i hi
  rw [BitVec.getLsbD_extractLsb', getLsbD_packed]
  simp [hi]

/-- Folding the slices of a packed value gives it back. -/
theorem foldIndices_slices (p : Packed) :
    foldIndices (Vector.ofFn fun k : Fin 12 => slice p k) = p :=
  packed_ext fun k => by rw [slice_foldIndices]; simp

/-! ## Bytes (rule R120) -/

/-- Byte `i` of the folded bytes is byte `i`. -/
theorem entByte_fromBytes (b : EntropyBytes) (i : Fin 16) : entByte (fromBytes b) i = b[i] := by
  have h := extract_foldl_shift (w := 128) b.toList (by simp) i.val (by simp)
  have he : 128 - 8 * (i.val + 1) = 120 - 8 * i.val := by omega
  rw [he] at h
  simpa [entByte, fromBytes] using h

/-- An entropy is its sixteen bytes. -/
theorem entropy_ext {v w : Entropy} (h : ∀ i : Fin 16, entByte v i = entByte w i) : v = w := by
  apply BitVec.eq_of_getLsbD_eq
  intro i hi
  have hk : 15 - i / 8 < 16 := by omega
  have hs := congrArg (fun x => x.getLsbD (i % 8)) (h ⟨15 - i / 8, hk⟩)
  have hb : i % 8 < 8 := by omega
  have he : 120 - 8 * (15 - i / 8) + i % 8 = i := by omega
  simpa [entByte, BitVec.getLsbD_extractLsb', hb, he] using hs

/-! ## Keys (rules R80, R159) -/

@[simp] theorem foldKey_get (k : WordKey) (j : Fin 8) : (foldKey k)[j] = lower k[j] := by
  simp [foldKey]

/-- Folding twice changes nothing. -/
theorem lower_lower (b : Byte) : lower (lower b) = lower b := by
  unfold lower
  split
  · rename_i h
    have : (b + 0x20).toNat = b.toNat + 0x20 := by simp [BitVec.toNat_add]; omega
    rw [if_neg (by omega)]
  · rfl

/-- A lowercase letter and the padding byte are their own fold. -/
theorem lower_of_canonicalByte {b : Byte} (h : b.isLowerLetter = true ∨ b = 0) : lower b = b := by
  unfold lower
  rcases h with h | rfl
  · simp only [Byte.isLowerLetter, Bool.and_eq_true, decide_eq_true_eq] at h
    rw [if_neg (by omega)]
  · rfl

/-- Every byte of a canonical key is a lowercase letter or the padding (rule R80). -/
theorem mem_canonical {k : WordKey} (h : k.canonical = true) {b : Byte} (hb : b ∈ k.toList) :
    b.isLowerLetter = true ∨ b = 0 := by
  have hs := List.takeWhile_append_dropWhile (p := Byte.isLowerLetter) (l := k.toList)
  rw [← hs] at hb
  rcases List.mem_append.1 hb with hb | hb
  · exact .inl (List.mem_takeWhile_imp hb)
  · unfold WordKey.canonical at h
    split at h
    · rename_i hd; simp [hd] at hb
    · rename_i pad hd _
      simp only [Bool.and_eq_true, List.all_eq_true, beq_iff_eq] at h
      exact .inr (h.2 b hb)

/-- A canonical key is its own fold. -/
theorem foldKey_of_canonical {k : WordKey} (h : k.canonical = true) : foldKey k = k := by
  refine Vector.ext fun j hj => ?_
  have := foldKey_get k ⟨j, hj⟩
  exact this.trans (lower_of_canonicalByte (mem_canonical h (by simp)))

end Sys2Proof.Machine
end

