-- ==== Sys2Proof/Laws/Step.lean ====
section
/-! SUPPORT. What an access and a step can do, said once: the register map both ways, what the port hands
on, and the one inversion lemma of `step`. -/

namespace Sys2Proof.Machine

/-! ## The register map (rule R52) -/

theorem ofOffset_offset (r : WindowReg) : WindowReg.ofOffset r.offset = some r := by
  cases r with
  | ent j => revert j; decide
  | byt j => revert j; decide
  | key j => revert j; decide
  | idx j => revert j; decide
  | text j => revert j; decide
  | word k j => revert k j; decide
  | _ => decide

theorem offset_aligned (r : WindowReg) : r.offset % 4 = 0 := by
  cases r <;> simp only [WindowReg.offset] <;> omega

theorem offset_lt_window (r : WindowReg) : r.offset < Config.windowBytes := by
  cases r <;> simp [WindowReg.offset, Config.windowBytes] <;> omega

theorem ofOffset_none_of_ge {off : Nat} (h : 0x160 ≤ off) : WindowReg.ofOffset off = none := by
  have h0 : ∀ n, n < 0x160 → off ≠ n := by omega
  have h1 : ∀ n, n ≤ 0x160 → ¬ off < n := by omega
  simp [WindowReg.ofOffset, h0, h1]

theorem offset_of_ofOffset {off : Nat} {r : WindowReg} (h : WindowReg.ofOffset off = some r) :
    off = r.offset := by
  rcases Nat.lt_or_ge off 0x160 with hlt | hge
  · have all : ∀ n, n < 0x160 → ∀ q ∈ WindowReg.ofOffset n, n = q.offset := by decide +kernel
    exact all off hlt r h
  · rw [ofOffset_none_of_ge hge] at h; cases h

/-! ## The port -/

/-- An access that names a listed word is handed on. -/
@[simp] theorem atWindow_offset (r : WindowReg) (k : WindowReg → Host.Outcome State Fault Refusal) :
    atWindow r.offset 4 k = k r := by
  have h1 := offset_aligned r
  have h2 := offset_lt_window r
  unfold atWindow
  rw [if_neg (by omega), if_neg (by simp), if_neg (by omega), ofOffset_offset]

/-- An access gets a next state only as a 32-bit access at a listed offset. -/
theorem atWindow_next {off bytes : Nat} {k : WindowReg → Host.Outcome State Fault Refusal} {t : State}
    (h : atWindow off bytes k = .next t) :
    bytes = 4 ∧ ∃ r : WindowReg, off = r.offset ∧ k r = .next t := by
  unfold atWindow at h
  split at h
  · cases h
  split at h
  · cases h
  split at h
  · cases h
  rename_i hb _
  split at h
  · cases h
  · rename_i r hr
    exact ⟨by simpa using hb, r, offset_of_ofOffset hr, h⟩

@[simp] theorem writeReg_wl (r : WindowReg) (v : Word) (s : State) :
    (writeReg r v s).wl = s.wl := by cases r <;> simp [writeReg]

@[simp] theorem writeReg_port (r : WindowReg) (v : Word) (s : State) :
    (writeReg r v s).port = s.port := by cases r <;> simp [writeReg]

@[simp] theorem writeReg_status (r : WindowReg) (v : Word) (s : State) :
    (writeReg r v s).status = s.status := by cases r <;> simp [writeReg]

@[simp] theorem resetBlock_wl (s : State) : (resetBlock s).wl = s.wl := rfl

@[simp] theorem resetBlock_port (s : State) : (resetBlock s).port = s.port := rfl

/-! ## Commands -/

theorem exec_next (i : Instr) (s : State) : ∃ t, exec i s = .next t := by
  by_cases h : i = .lookup
  · exact ⟨lookupEffect s, h ▸ exec_lookup s⟩
  · exact ⟨_, exec_eq_finish h s⟩

/-- A command writes nothing outside its destinations and `STATUS`. -/
theorem exec_wrote {i : Instr} {s t : State} (h : exec i s = .next t) :
    (∀ r, r ∉ dests i → sameReg s t r) ∧ sameOutside s t := by
  rcases exec_cases h with ⟨rfl, rfl⟩ | ⟨-, u, hu, rfl⟩ | ⟨-, c, -, rfl⟩
  · have := lookupEffect_spec s
    exact ⟨fun r hr => this.1 r (by simpa [dests] using hr), this.2⟩
  · have := stepsOf_wroteOnly hu
    exact ⟨fun r hr => by simpa using this.same r hr, by simpa using this.outside⟩
  · have := raise_spec (dests i) c s
    exact ⟨this.2.1, this.2.2.1⟩

/-- A command word is a command, or is reported as illegal; either way the block goes on. -/
theorem runCommandWord_cases (v : Word) (s : State) :
    (∃ i, decode v = .ok i ∧ runCommandWord v s = exec i s) ∨
    (∃ e, decode v = .error e ∧
      runCommandWord v s = .next (raise [] (.illegalCommand (v.extractLsb' 0 8)) s)) := by
  unfold runCommandWord
  split
  · rename_i i hi; exact .inl ⟨i, hi, rfl⟩
  · rename_i e he; exact .inr ⟨e, he, rfl⟩

theorem runCommandWord_next (v : Word) (s : State) :
    ∃ t, runCommandWord v s = .next t ∧ sameOutside s t := by
  rcases runCommandWord_cases v s with ⟨i, -, h⟩ | ⟨e, -, h⟩
  · obtain ⟨t, ht⟩ := exec_next i s
    exact ⟨t, h.trans ht, (exec_wrote ht).2⟩
  · exact ⟨_, h, (raise_spec [] _ s).2.2.1⟩

/-! ## Steps on a given event -/

theorem step_read {s : State} {r : WindowReg} {rest : List PortEvent} (h : s.port = rd r :: rest) :
    step s = .next { s with port := rest, reply := some (readReg r s) } := by
  simp only [step, h, rd, serve, serveRead, atWindow_offset]
  cases r <;> rfl

theorem step_write {s : State} {r : WindowReg} {v : Word} {rest : List PortEvent} (hr : r ≠ .cmd)
    (h : s.port = wr r v :: rest) :
    step s = .next { writeReg r v s with port := rest, reply := none } := by
  simp only [step, h, wr, serve, serveWrite, atWindow_offset, if_neg hr]
  cases r <;> rfl

theorem step_commandWord {s : State} {v : Word} {rest : List PortEvent}
    (h : s.port = commandWrite v :: rest) :
    step s = runCommandWord v { s with port := rest, cmd := v, reply := none } := by
  simp only [step, h, commandWrite, serve, serveWrite, atWindow_offset, if_pos]
  rfl

theorem step_reset {s : State} {rest : List PortEvent} (h : s.port = .reset :: rest) :
    step s = .next (resetBlock (s.setPort rest)) := by
  simp only [step, h, serve]

/-- What a step can do, said once. -/
theorem step_cases {s t : State} (h : step s = .next t) :
    (s.port = [] ∧ t = s) ∨
    ∃ e rest, s.port = e :: rest ∧
      ((e = .reset ∧ t = resetBlock (s.setPort rest)) ∨
      (∃ r, e = rd r ∧ t = { s with port := rest, reply := some (readReg r s) }) ∨
      (∃ r v, r ≠ .cmd ∧ e = wr r v ∧ t = { writeReg r v s with port := rest, reply := none }) ∨
      ∃ v, e = commandWrite v ∧
        runCommandWord v { s with port := rest, cmd := v, reply := none } = .next t) := by
  rcases hp : s.port with _ | ⟨e, rest⟩
  · left; simp only [step, hp] at h; injection h with h; exact ⟨rfl, h.symm⟩
  refine .inr ⟨e, rest, rfl, ?_⟩
  rcases e with (⟨off, b⟩ | ⟨off, b, v⟩) | _
  · have h' := h
    simp only [step, hp, serve] at h'
    obtain ⟨rfl, r, rfl, -⟩ := atWindow_next h'
    rw [step_read (r := r) hp] at h; injection h with h
    exact .inr (.inl ⟨r, rfl, h.symm⟩)
  · have h' := h
    simp only [step, hp, serve] at h'
    obtain ⟨rfl, r, rfl, -⟩ := atWindow_next h'
    by_cases hr : r = .cmd
    · subst hr; rw [step_commandWord (v := v) hp] at h
      exact .inr (.inr (.inr ⟨v, rfl, h⟩))
    · rw [step_write (v := v) hr hp] at h; injection h with h
      exact .inr (.inr (.inl ⟨r, v, hr, rfl, h.symm⟩))
  · rw [step_reset hp] at h; injection h with h
    exact .inl ⟨rfl, h.symm⟩

end Sys2Proof.Machine
end

