-- ==== Sys2Proof/Laws/Errors.lean ====
section
/-! SUPPORT. Every error a command's steps can end with, with the bounds of the number it names, and
what `STATUS` and `TEXT_LEN` can be when a command completes. -/

namespace Sys2Proof.Machine

/-- The errors of GENW's steps: IDX2W's, on the registers the three steps before it left. -/
theorem genwSteps_error {s : State} {c : Cause} (h : genwSteps s = .error c) :
    ∃ u, (∃ a b, e2bStep s = .ok a ∧ cksumStep a = .ok b ∧ packStep b = .ok u) ∧
      u.wl = s.wl ∧ idx2wStep u = .error c := by
  rcases bind_error h with h | ⟨u, h, h4⟩
  · rcases bind_error h with h | ⟨b, h, h3⟩
    · rcases bind_error h with h | ⟨a, h1, h2⟩
      · cases h
      · cases h2
    · cases h3
  · obtain ⟨b, h', h3⟩ := bind_ok h
    obtain ⟨a, h1, h2⟩ := bind_ok h'
    have e2b : WroteOnly _ s a := stepsOf_wroteOnly (i := .e2b) h1
    have cksum : WroteOnly _ a b := stepsOf_wroteOnly (i := .cksum) h2
    have pack : WroteOnly _ b u := stepsOf_wroteOnly (i := .pack) h3
    exact ⟨u, ⟨a, b, h1, h2, h3⟩,
      pack.outside.2.1.trans (cksum.outside.2.1.trans e2b.outside.2.1), h4⟩

/-- The errors of GETE's steps: W2IDX's, or VERIFY's. -/
theorem geteSteps_error {s : State} {c : Cause} (h : geteSteps s = .error c) :
    w2idxStep s = .error c ∨ c = .checksum := by
  rcases bind_error h with h | ⟨u, h, h3⟩
  · rcases bind_error h with h | ⟨a, h1, h2⟩
    · exact .inl h
    · cases h2
  · exact .inr (verifyStep_error h3).1

/-- Every error of every command, with its bounds (rules R231, R232, R238). -/
theorem stepsOf_error {i : Instr} {s : State} {c : Cause} (h : stepsOf i s = .error c) :
    parseFn s.textString = .error c ∨
    (s.nwords ≠ 12 ∧ c = .wordCount s.nwords) ∨ (∃ k : Fin 12, c = .unknownWord k) ∨
    c = .checksum ∨
    ∃ (k : Fin 12) (j : Index), c = .internalInvariant k ∧ s.wl.length ≤ j.toNat := by
  have w2idx (h : w2idxStep s = .error c) : (s.nwords ≠ 12 ∧ c = .wordCount s.nwords) ∨
      ∃ k : Fin 12, c = .unknownWord k := by
    rcases w2idxStep_error h with h | ⟨-, k, hk, -⟩
    · exact .inl h
    · exact .inr ⟨k, hk⟩
  have idx2w {u : State} (hu : u.wl = s.wl) (h : idx2wStep u = .error c) :
      ∃ (k : Fin 12) (j : Index), c = .internalInvariant k ∧ s.wl.length ≤ j.toNat := by
    obtain ⟨k, hk, hj, -⟩ := idx2wStep_error h
    exact ⟨k, _, hk, hu ▸ hj⟩
  have gete (h : geteSteps s = .error c) : (s.nwords ≠ 12 ∧ c = .wordCount s.nwords) ∨
      (∃ k : Fin 12, c = .unknownWord k) ∨ c = .checksum := by
    rcases geteSteps_error h with h | h
    · rcases w2idx h with h | h
      · exact .inl h
      · exact .inr (.inl h)
    · exact .inr (.inr h)
  have sentence (h : (s.nwords ≠ 12 ∧ c = .wordCount s.nwords) ∨
      (∃ k : Fin 12, c = .unknownWord k) ∨ c = .checksum) :
      parseFn s.textString = .error c ∨
      (s.nwords ≠ 12 ∧ c = .wordCount s.nwords) ∨ (∃ k : Fin 12, c = .unknownWord k) ∨
      c = .checksum ∨
      ∃ (k : Fin 12) (j : Index), c = .internalInvariant k ∧ s.wl.length ≤ j.toNat := by
    rcases h with h | h | h
    · exact .inr (.inl h)
    · exact .inr (.inr (.inl h))
    · exact .inr (.inr (.inr (.inl h)))
  cases i with
  | nop | lookup | render | e2b | b2e | cksum | pack | unpack | clr => cases h
  | parse => exact .inl (parseStep_error h)
  | verify => exact .inr (.inr (.inr (.inl (verifyStep_error h).1)))
  | idx2w => exact .inr (.inr (.inr (.inr (idx2w rfl h))))
  | w2idx =>
    rcases w2idx h with h | h
    · exact .inr (.inl h)
    · exact .inr (.inr (.inl h))
  | wordat =>
    obtain ⟨h1, h2⟩ := wordatStep_error h
    exact .inr (.inr (.inr (.inr ⟨0, _, h1, h2⟩)))
  | genw =>
    obtain ⟨u, -, hu, h⟩ := genwSteps_error h
    exact .inr (.inr (.inr (.inr (idx2w hu h))))
  | gete => exact sentence (gete h)
  | enc =>
    rcases bind_error h with h | ⟨a, h1, h2⟩
    · exact .inl (parseStep_error h)
    · obtain ⟨u, -, hu, h⟩ := genwSteps_error h2
      obtain ⟨v, -, rfl⟩ := parseStep_ok h1
      exact .inr (.inr (.inr (.inr (idx2w hu h))))
  | dec =>
    rcases bind_error h with h | ⟨a, -, h2⟩
    · exact sentence (gete h)
    · cases h2

/-- Every report has one of the forms of rule R232 (the 64 bytes of `TEXT` bound the group count). -/
theorem stepsOf_error_form {i : Instr} {s : State} {c : Cause} (h : stepsOf i s = .error c) :
    statusErrorForm c.err.toNat c.sub.toNat c.info.toNat := by
  unfold statusErrorForm
  rcases stepsOf_error h with h | ⟨hn, rfl⟩ | ⟨k, rfl⟩ | rfl | ⟨k, -, rfl, -⟩
  · have hl : s.textString.length ≤ 64 := by simp [State.textString]
    rcases parseFn_error h with rfl | rfl | ⟨n, h1, h2, rfl⟩ | ⟨n, h1, rfl⟩ | ⟨n, h1, rfl⟩ <;>
      simp [Cause.err, Cause.sub, Cause.info] <;> omega
  · have : s.nwords.toNat ≠ 12 := fun hc => hn (BitVec.eq_of_toNat_eq hc)
    simp [Cause.err, Cause.sub, Cause.info, this]
  · simp [Cause.err, Cause.sub, Cause.info]; omega
  · simp [Cause.err, Cause.sub, Cause.info]
  · simp [Cause.err, Cause.sub, Cause.info]; omega

end Sys2Proof.Machine
end

