-- ==== Sys2Proof/Laws/PerInstr.lean ====
section
/-! SUPPORT. What is said of every command as syntax, one lemma per command. -/

namespace Sys2Proof.Laws

/-- A command is well formed and so is the word it is encoded as: reserved bits zero, a listed opcode
(rules R70, R72). -/
def WellFormedWord.Statement (i : Instr) : Prop := i.wf = true ∧ CommandWord.wf (encode i) = true

theorem WellFormedWord.nop : WellFormedWord.Statement .nop := by unfold Statement; decide
theorem WellFormedWord.parse : WellFormedWord.Statement .parse := by unfold Statement; decide
theorem WellFormedWord.render : WellFormedWord.Statement .render := by unfold Statement; decide
theorem WellFormedWord.e2b : WellFormedWord.Statement .e2b := by unfold Statement; decide
theorem WellFormedWord.b2e : WellFormedWord.Statement .b2e := by unfold Statement; decide
theorem WellFormedWord.cksum : WellFormedWord.Statement .cksum := by unfold Statement; decide
theorem WellFormedWord.pack : WellFormedWord.Statement .pack := by unfold Statement; decide
theorem WellFormedWord.unpack : WellFormedWord.Statement .unpack := by unfold Statement; decide
theorem WellFormedWord.verify : WellFormedWord.Statement .verify := by unfold Statement; decide
theorem WellFormedWord.idx2w : WellFormedWord.Statement .idx2w := by unfold Statement; decide
theorem WellFormedWord.w2idx : WellFormedWord.Statement .w2idx := by unfold Statement; decide
theorem WellFormedWord.lookup : WellFormedWord.Statement .lookup := by unfold Statement; decide
theorem WellFormedWord.wordat : WellFormedWord.Statement .wordat := by unfold Statement; decide
theorem WellFormedWord.genw : WellFormedWord.Statement .genw := by unfold Statement; decide
theorem WellFormedWord.gete : WellFormedWord.Statement .gete := by unfold Statement; decide
theorem WellFormedWord.enc : WellFormedWord.Statement .enc := by unfold Statement; decide
theorem WellFormedWord.dec : WellFormedWord.Statement .dec := by unfold Statement; decide
theorem WellFormedWord.clr : WellFormedWord.Statement .clr := by unfold Statement; decide

/-- The decoder reads a command's table word as that command (rules R70, R72). -/
def TableWord.Statement (i : Instr) : Prop := decodeTableWord 32 (encode i).toNat = some i

theorem TableWord.nop : TableWord.Statement .nop := by unfold Statement; decide
theorem TableWord.parse : TableWord.Statement .parse := by unfold Statement; decide
theorem TableWord.render : TableWord.Statement .render := by unfold Statement; decide
theorem TableWord.e2b : TableWord.Statement .e2b := by unfold Statement; decide
theorem TableWord.b2e : TableWord.Statement .b2e := by unfold Statement; decide
theorem TableWord.cksum : TableWord.Statement .cksum := by unfold Statement; decide
theorem TableWord.pack : TableWord.Statement .pack := by unfold Statement; decide
theorem TableWord.unpack : TableWord.Statement .unpack := by unfold Statement; decide
theorem TableWord.verify : TableWord.Statement .verify := by unfold Statement; decide
theorem TableWord.idx2w : TableWord.Statement .idx2w := by unfold Statement; decide
theorem TableWord.w2idx : TableWord.Statement .w2idx := by unfold Statement; decide
theorem TableWord.lookup : TableWord.Statement .lookup := by unfold Statement; decide
theorem TableWord.wordat : TableWord.Statement .wordat := by unfold Statement; decide
theorem TableWord.genw : TableWord.Statement .genw := by unfold Statement; decide
theorem TableWord.gete : TableWord.Statement .gete := by unfold Statement; decide
theorem TableWord.enc : TableWord.Statement .enc := by unfold Statement; decide
theorem TableWord.dec : TableWord.Statement .dec := by unfold Statement; decide
theorem TableWord.clr : TableWord.Statement .clr := by unfold Statement; decide

end Sys2Proof.Laws
end

