-- ==== Sys2Proof/Laws/Render.lean ====
section
/-! SUPPORT. The renderer: what `hex_min` and `render_fn` write, and RENDER's step. -/

namespace Sys2Proof.Machine

/-! ## Rendering (rules R107, R108) -/

theorem hexVal_digitByte (d : BitVec 4) : hexVal (digitByte d) = d.toNat := by
  revert d; decide

theorem digitByte_class (d : BitVec 4) :
    charClass (digitByte d) = .digit ∨ charClass (digitByte d) = .hexLc := by
  revert d; decide

theorem digitByte_isHexDigit (d : BitVec 4) : isHexDigit (digitByte d) = true := by
  revert d; decide

theorem digitByte_ne_colon (d : BitVec 4) : digitByte d ≠ colonByte := by
  revert d; decide

theorem digitByte_eq_zero_iff (d : BitVec 4) : digitByte d = 0x30 ↔ d = 0 := by
  revert d; decide

theorem lower_digitByte (d : BitVec 4) : lower (digitByte d) = digitByte d := by
  revert d; decide

/-- A group is its four nibbles. -/
theorem toNat_nibbles (g : BitVec 16) :
    g.toNat = (g.extractLsb' 12 4).toNat * 4096 + (g.extractLsb' 8 4).toNat * 256 +
      (g.extractLsb' 4 4).toNat * 16 + (g.extractLsb' 0 4).toNat := by
  have := g.isLt
  simp only [BitVec.extractLsb'_toNat, Nat.shiftRight_eq_div_pow]
  omega

/-- `hex_min` writes the digits below its most significant non-zero one (rule R107). -/
theorem hexMin_cases (g : BitVec 16) :
    ∃ d ds, hexMin g = (d :: ds).map digitByte ∧ ds.length ≤ 3 ∧ (d = 0 → ds = []) ∧
      groupVal (hexMin g) = g.toNat := by
  have hn := toNat_nibbles g
  have f {x : BitVec 4} (h : ¬x = 0) : (x == 0) = false := by simpa using h
  have z : ((0 : BitVec 4) == 0) = true := rfl
  by_cases h0 : g = 0
  · exact ⟨0, [], by simp [hexMin, h0], by simp, fun _ => rfl, by simp [hexMin, h0]; decide⟩
  by_cases h3 : g.extractLsb' 12 4 = 0
  · by_cases h2 : g.extractLsb' 8 4 = 0
    · by_cases h1 : g.extractLsb' 4 4 = 0
      · have hz : g.extractLsb' 0 4 ≠ 0 := by
          intro hc
          rw [h3, h2, h1, hc] at hn
          exact h0 (BitVec.eq_of_toNat_eq (by simpa using hn))
        have he : hexMin g = [g.extractLsb' 0 4].map digitByte := by
          simp only [hexMin, if_neg h0, List.dropWhile, Nat.reduceMul, h3, h2, h1, f hz, z, List.map]
        refine ⟨_, [], he, by simp, by simp, ?_⟩
        rw [he, hn, h3, h2, h1]
        simp [groupVal, hexVal_digitByte]
      · have he : hexMin g = [g.extractLsb' 4 4, g.extractLsb' 0 4].map digitByte := by
          simp only [hexMin, if_neg h0, List.dropWhile, Nat.reduceMul, h3, h2, f h1, z, List.map, Nat.mul_zero, Nat.mul_one]
        refine ⟨_, [_], he, by simp, fun h => absurd h h1, ?_⟩
        rw [he, hn, h3, h2]
        simp [groupVal, hexVal_digitByte]
    · have he : hexMin g =
          [g.extractLsb' 8 4, g.extractLsb' 4 4, g.extractLsb' 0 4].map digitByte := by
        simp only [hexMin, if_neg h0, List.dropWhile, Nat.reduceMul, h3, f h2, z, List.map, Nat.mul_zero, Nat.mul_one]
      refine ⟨_, [_, _], he, by simp, fun h => absurd h h2, ?_⟩
      rw [he, hn, h3]
      simp [groupVal, hexVal_digitByte]
      omega
  · have he : hexMin g = [g.extractLsb' 12 4, g.extractLsb' 8 4, g.extractLsb' 4 4,
        g.extractLsb' 0 4].map digitByte := by
      simp only [hexMin, if_neg h0, List.dropWhile, Nat.reduceMul, f h3, List.map, Nat.mul_zero, Nat.mul_one]
    refine ⟨_, [_, _, _], he, by simp, fun h => absurd h h3, ?_⟩
    rw [he, hn]
    simp [groupVal, hexVal_digitByte]
    omega

theorem hexMin_length (g : BitVec 16) : 1 ≤ (hexMin g).length ∧ (hexMin g).length ≤ 4 := by
  obtain ⟨d, ds, h, hl, -⟩ := hexMin_cases g
  simp [h]; omega

theorem groupVal_hexMin (g : BitVec 16) : groupVal (hexMin g) = g.toNat := by
  obtain ⟨-, -, -, -, -, h⟩ := hexMin_cases g; exact h

/-- Every byte of a rendered group is a digit. -/
theorem mem_hexMin {g : BitVec 16} {b : Byte} (h : b ∈ hexMin g) : ∃ d, b = digitByte d := by
  obtain ⟨d, ds, he, -⟩ := hexMin_cases g
  rw [he] at h
  obtain ⟨d, -, rfl⟩ := List.mem_map.1 h
  exact ⟨d, rfl⟩

/-- A rendered group is a group the parser accepts. -/
theorem groupOk_hexMin (g : BitVec 16) : groupOk (hexMin g) = true := by
  have h := hexMin_length g
  simp only [groupOk, h.1, h.2, decide_true, Bool.true_and, List.all_eq_true]
  intro b hb
  obtain ⟨d, rfl⟩ := mem_hexMin hb
  exact digitByte_isHexDigit d

/-- The text of `render_fn`, group by group. -/
theorem renderFn_eq (v : Entropy) :
    renderFn v = [colonByte].intercalate ((List.range 8).map fun i => hexMin (entGroup v i)) := rfl

/-- Between 15 and 39 bytes (rule R107). -/
theorem renderFn_length (v : Entropy) : 15 ≤ (renderFn v).length ∧ (renderFn v).length ≤ 39 := by
  rw [renderFn_eq, length_intercalate_singleton]
  have h (i : Nat) := hexMin_length (entGroup v i)
  have := h 0; have := h 1; have := h 2; have := h 3
  have := h 4; have := h 5; have := h 6; have := h 7
  simp [List.range_succ]
  omega

/-- RENDER's step writes the text, zeros past it, and its length (rule R109). -/
theorem renderStep_ok (s : State) :
    ∃ t, renderStep s = .ok t ∧ t.textLen.toNat = (renderFn s.ent).length ∧
      t.textString = renderFn s.ent ∧ (∀ i : Fin 64, t.text[i] = (renderFn s.ent).getD i 0) ∧
      t = (s.setText t.text).setTextLen t.textLen := by
  have h := renderFn_length s.ent
  refine ⟨_, rfl, ?_, ?_, ?_, rfl⟩
  · simp; omega
  · simp [State.textString]
    apply List.ext_getElem
    · simp; omega
    · intro i h1 h2
      simp [h2]
  · intro i; simp

end Sys2Proof.Machine
end

