-- ==== Sys2Proof/Laws/Sentence.lean ====
section
/-! SUPPORT. What a host program at the port can do, access by access; what a question to the block
answers; and what a sentence's run leaves (rules R213 to R216). -/

namespace Sys2Proof.Machine

/-! ## Host programs, access by access -/

theorem perform_nil (s : State) : perform [] s = .ok (s.setPort []) := rfl

/-- A program is its first access and then the rest. -/
theorem perform_cons {e : PortEvent} {rest : List PortEvent} {s t : State}
    (h : step (s.setPort (e :: rest)) = .next t) (ht : t.port = rest) :
    perform (e :: rest) s = perform rest t := by
  have hp : t.setPort rest = t := by rw [← ht]; rfl
  rw [perform, perform, hp, runPort, runPort]
  simp only [State.setPort_port, List.length_cons, Host.Core.run, ht]
  have hs : Sys2Proof.core.step (s.setPort (e :: rest)) = .next t := h
  rw [hs]

theorem perform_wr {r : WindowReg} (hr : r ≠ .cmd) (v : Word) (rest : List PortEvent) (s : State) :
    perform (wr r v :: rest) s = perform rest ((writeReg r v s).setReply none) := by
  rw [perform_cons (step_write hr rfl) rfl]
  cases r <;> rfl

theorem perform_rd (r : WindowReg) (rest : List PortEvent) (s : State) :
    perform (rd r :: rest) s = perform rest (s.setReply (some (readReg r s))) := by
  rw [perform_cons (step_read rfl) rfl]
  cases r <;> rfl

/-- The state a command starts from when the host issues it and `rest` waits behind. -/
def issued (i : Instr) (rest : List PortEvent) (s : State) : State :=
  ((s.setPort rest).setCmd (encode i)).setReply none

theorem perform_cmd {i : Instr} {rest : List PortEvent} {s t : State}
    (h : exec i (issued i rest s) = .next t) :
    perform (cmdLine i :: rest) s = perform rest t := by
  have hd : decode (encode i) = .ok i := by cases i <;> rfl
  refine perform_cons ?_ ?_
  · have h1 : (s.setPort (cmdLine i :: rest)).port = commandWrite (encode i) :: rest := rfl
    rw [step_commandWord h1, runCommandWord, hd]
    exact h
  · exact (exec_wrote h).2.2.2.1

/-! ## Words and keys by their lanes (rules R54, R83) -/

theorem lane_laneWord (a : WordKey) (j : Fin 2) (m : Fin 4) :
    lane (laneWord a j) m = a[4 * j.val + m.val] := by
  rw [laneWord, lane_cat4]
  fin_cases j <;> fin_cases m <;> rfl

/-- The two writes of a key replace all of an eight-byte array. -/
theorem setLaneWord_both (a key : WordKey) :
    setLaneWord (setLaneWord a 0 (laneWord key 0)) 1 (laneWord key 1) = key := by
  refine Vector.ext fun i hi => ?_
  have h0 := lane_laneWord key 0
  have h1 := lane_laneWord key 1
  simp only [setLaneWord, Vector.getElem_ofFn, Fin.getElem_fin]
  have hm : i % 4 < 4 := by omega
  split_ifs with h h'
  · exact (h1 ⟨i % 4, hm⟩).trans (by congr 1; simp only [Fin.isValue, Fin.val_one]; omega)
  · exact (h0 ⟨i % 4, hm⟩).trans (by congr 1; simp only [Fin.isValue, Fin.val_zero]; omega)
  · omega

/-! ## A question to the block -/

/-- What a question leaves: `KEY`, `KIDX`, `STATUS` and `CMD` are used up (rule R163), every other register
and the wordlist are as they were. -/
structure Asked (s t : State) : Prop where
  same : ∀ r, r ≠ .key → r ≠ .kidx → sameReg s t r
  wl : t.wl = s.wl

theorem Asked.refl (s : State) : Asked s s := ⟨fun r _ _ => sameReg_refl s r, rfl⟩

theorem Asked.trans {s t u : State} (h1 : Asked s t) (h2 : Asked t u) : Asked s u :=
  ⟨fun r a b => sameReg_trans (h1.same r a b) (h2.same r a b), h2.wl.trans h1.wl⟩

theorem perform_ldKeyKey (key : WordKey) (rest : List PortEvent) (s : State) :
    perform (ldKeyKey key ++ rest) s = perform rest ((s.setKey key).setReply none) := by
  show perform (wr (.key 0) (laneWord key 0) :: wr (.key 1) (laneWord key 1) :: rest) s = _
  rw [perform_wr (by decide), perform_wr (by decide)]
  show perform rest (((s.setReply none).setKey (setLaneWord (setLaneWord s.key 0 _) 1 _)).setReply none) = _
  rw [setLaneWord_both]
  rfl

/-- The block answers whether the key hits, and on a hit leaves its index in `KIDX` (rule R163). -/
theorem askBlock_spec (key : WordKey) (s : State) :
    ∃ t, askBlock key s = .ok ((cam s.wl key).isSome, t) ∧ Asked s t ∧
      ∀ i, cam s.wl key = some i → t.kidx = i := by
  let u := lookupEffect (issued .lookup [rd .status] ((s.setKey key).setReply none))
  have hu : perform (ldKeyKey key ++ [cmdLine .lookup] ++ [rd .status]) s =
      .ok ((u.setReply (some (readReg .status u))).setPort []) := by
    rw [List.append_assoc, perform_ldKeyKey, List.singleton_append, perform_cmd (exec_lookup _),
      perform_rd, perform_nil]
  have hk : (issued .lookup [rd .status] ((s.setKey key).setReply none)).key = key := rfl
  have hw : (issued .lookup [rd .status] ((s.setKey key).setReply none)).wl = s.wl := rfl
  refine ⟨(u.setReply (some (readReg .status u))).setPort [], ?_, ⟨?_, ?_⟩, ?_⟩
  · rw [askBlock, performRead, hu]
    show Except.ok _ = Except.ok _
    congr 2
    simp only [u, lookupEffect, readReg]
    rw [hk, hw]
    cases cam s.wl key with
    | none => exact (by decide : (BitVec.extractLsb' 16 1 ((statusLookup false).setWidth 32) == 1) = false)
    | some i => exact (by decide : (BitVec.extractLsb' 16 1 ((statusLookup true).setWidth 32) == 1) = true)
  · intro r h1 h2
    have := (lookupEffect_spec (issued .lookup [rd .status] ((s.setKey key).setReply none))).1 r h2
    cases r <;> first | exact absurd rfl h1 | exact this
  · exact (lookupEffect_spec _).2.2.1
  · intro i hi
    show u.kidx = i
    simp only [u, lookupEffect]
    rw [hk, hw, hi]
    rfl

theorem findWord_hit {w : List Byte} {key : WordKey} {s : State} (hw : keyOf w = some key)
    (hc : cam s.wl key ≠ none) (rest : List (List Byte)) :
    ∃ t, findWord (w :: rest) s = .ok (some key, t) ∧ Asked s t ∧
      ∀ i, cam s.wl key = some i → t.kidx = i := by
  obtain ⟨t, h1, h2, h3⟩ := askBlock_spec key s
  rw [Option.isSome_iff_ne_none.2 hc] at h1
  refine ⟨t, ?_, h2, h3⟩
  rw [findWord, hw]
  show askBlock key s >>= _ = _
  rw [h1]
  rfl

theorem findWord_miss {w : List Byte} {s : State} (hw : ∀ k, keyOf w = some k → cam s.wl k = none)
    (rest : List (List Byte)) :
    ∃ t, findWord (w :: rest) s = findWord rest t ∧ Asked s t := by
  rw [findWord]
  cases hk : keyOf w with
  | none => exact ⟨s, rfl, .refl s⟩
  | some key =>
    obtain ⟨t, h1, h2, -⟩ := askBlock_spec key s
    rw [hw key hk] at h1
    refine ⟨t, ?_, h2⟩
    show askBlock key s >>= _ = _
    rw [h1]
    rfl

/-- An accepted token is found with its key, whose index stands in `KIDX` (rules R213, R214). -/
theorem findWord_accepts {sch : Scheme} {tok : List Byte} {key : WordKey} {s : State}
    (h : sch.accepts s.wl tok key) :
    ∃ t, findWord (tok :: (sch.strip tok).toList) s = .ok (some key, t) ∧ Asked s t ∧
      ∀ i, cam s.wl key = some i → t.kidx = i := by
  rcases h with ⟨hk, hc⟩ | ⟨hm, w, hw, hk, hc⟩
  · exact findWord_hit hk hc _
  · obtain ⟨t, h1, h2⟩ := findWord_miss hm (sch.strip tok).toList
    rw [hw] at h1 ⊢
    rw [← h2.wl] at hc
    obtain ⟨u, h3, h4, h5⟩ := findWord_hit hk hc []
    rw [h2.wl] at h5
    exact ⟨u, h1.trans h3, h2.trans h4, h5⟩

/-- A token that misses is not found (rule R216). -/
theorem findWord_misses {sch : Scheme} {tok : List Byte} {s : State} (h : sch.misses s.wl tok) :
    ∃ t, findWord (tok :: (sch.strip tok).toList) s = .ok (none, t) ∧ Asked s t := by
  obtain ⟨t, h1, h2⟩ := findWord_miss h.1 (sch.strip tok).toList
  cases hw : sch.strip tok with
  | none => rw [hw] at h1; exact ⟨t, h1, h2⟩
  | some w =>
    rw [hw] at h1
    have hm : ∀ k, keyOf w = some k → cam t.wl k = none := h2.wl ▸ h.2 w hw
    obtain ⟨u, h3, h4⟩ := findWord_miss hm []
    exact ⟨u, h1.trans h3, h2.trans h4⟩

/-! ## Handing on the words (rules R214, R215) -/

/-- The register the slots of a handing stand in. -/
def Handing.reg : Handing → DataReg
  | .words | .wordsAndMisses => .word
  | .indices => .idx

/-- Slot `k` was given the word, as a key or as the index LOOKUP answered, or was left alone. -/
def slotGiven (h : Handing) (s t : State) (k : Fin 12) (key : Option WordKey) : Prop :=
  match h with
  | .words | .wordsAndMisses => t.word[k] = key.getD s.word[k]
  | .indices =>
    match key with
    | none => t.idx[k] = s.idx[k]
    | some key => cam s.wl key = some t.idx[k]

/-- What handing on `keys` from slot `n` leaves: the slots up to the last hold the words, the questions'
registers are used up, everything else is as it was. -/
structure Handed (h : Handing) (n : Nat) (keys : List WordKey) (s t : State) : Prop where
  same : ∀ r, r ≠ .key → r ≠ .kidx → r ≠ h.reg → sameReg s t r
  wl : t.wl = s.wl
  slots : ∀ k : Fin 12, slotGiven h s t k (if k.val < n then none else keys[k.val - n]?)

/-- Does a run with this handing load the keys of tokens that miss? -/
def Handing.misses : Handing → Bool
  | .wordsAndMisses => true
  | .words | .indices => false

theorem perform_ldWordKey (k : Fin 12) (key : WordKey) (s : State) :
    perform (ldWordKey k key) s = .ok (((s.setWord (s.word.set k key)).setReply none).setPort []) := by
  show perform (wr (.word k 0) (laneWord key 0) :: wr (.word k 1) (laneWord key 1) :: []) s = _
  rw [perform_wr (r := .word k 0) nofun, perform_wr (r := .word k 1) nofun, perform_nil]
  have h : (s.word.set k (setLaneWord s.word[k] 0 (laneWord key 0))).set k
      (setLaneWord (s.word.set k (setLaneWord s.word[k] 0 (laneWord key 0)))[k] 1 (laneWord key 1)) =
      s.word.set k key := by
    simp [setLaneWord_both]
  show Except.ok ((((s.setWord ((s.word.set k (setLaneWord s.word[k] 0 (laneWord key 0))).set k
    (setLaneWord (s.word.set k (setLaneWord s.word[k] 0 (laneWord key 0)))[k] 1 (laneWord key 1))))
      ).setReply none).setPort []) = _
  rw [h]

theorem perform_ldIdx (k : Fin 12) (v : Word) (s : State) :
    perform (ldIdx k v) s =
      .ok (((s.setIdx (s.idx.set k (v.extractLsb' 0 11))).setReply none).setPort []) := by
  show perform (wr (.idx k) v :: []) s = _
  rw [perform_wr (r := .idx k) nofun, perform_nil]
  rfl

theorem Handed.nil (h : Handing) (n : Nat) {s t : State} (ha : Asked s t) : Handed h n [] s t where
  same r a b _ := ha.same r a b
  wl := ha.wl
  slots k := by
    have h1 : s.word = t.word := (ha.same .word nofun nofun).symm
    have h2 : s.idx = t.idx := (ha.same .idx nofun nofun).symm
    cases h <;> simp [slotGiven, h1, h2]

/-- Questions before a handing change nothing of it. -/
theorem Asked.handed {h : Handing} {n : Nat} {keys : List WordKey} {s t u : State} (ha : Asked s t)
    (hh : Handed h n keys t u) : Handed h n keys s u where
  same r a b c := sameReg_trans (ha.same r a b) (hh.same r a b c)
  wl := hh.wl.trans ha.wl
  slots k := by
    have hw : t.word = s.word := ha.same .word nofun nofun
    have hx : t.idx = s.idx := ha.same .idx nofun nofun
    have g := hh.slots k
    unfold slotGiven at g ⊢
    rw [hw, hx, ha.wl] at g
    exact g

/-- Handing on a first word and then the others. -/
theorem Handed.cons {h : Handing} {n : Nat} {key : WordKey} {keys : List WordKey} {s t u : State}
    (h1 : Handed h n [key] s t) (h2 : Handed h (n + 1) keys t u) : Handed h n (key :: keys) s u where
  same r a b c := sameReg_trans (h1.same r a b c) (h2.same r a b c)
  wl := h2.wl.trans h1.wl
  slots k := by
    have g1 := h1.slots k
    have g2 := h2.slots k
    have hwl := h1.wl
    rcases Nat.lt_trichotomy k.val n with hk | hk | hk
    · rw [if_pos hk] at g1 ⊢
      rw [if_pos (by omega)] at g2
      cases h <;> exact g2.trans g1
    · rw [if_neg (by omega)] at g1 ⊢
      rw [if_pos (by omega)] at g2
      have : k.val - n = 0 := by omega
      simp only [this, List.getElem?_cons_zero] at g1 ⊢
      cases h
      · exact g2.trans g1
      · exact g2.trans g1
      · show cam s.wl key = some u.idx[k]
        rw [show u.idx[k] = t.idx[k] from g2]
        exact g1
    · rw [if_neg (by omega)] at g1 g2 ⊢
      have e1 : k.val - n = (k.val - (n + 1)) + 1 := by omega
      simp only [e1, List.getElem?_cons_succ, List.getElem?_nil] at g1 ⊢
      generalize keys[k.val - (n + 1)]? = o at g2
      cases h with
      | words | wordsAndMisses => cases o <;> first | exact g2.trans g1 | exact g2
      | indices =>
        cases o with
        | none => exact g2.trans g1
        | some key => exact (congrArg (cam · key) hwl).symm.trans g2

/-- One word handed on: `KIDX` must hold its index, which the LOOKUP that accepted it has left there. -/
theorem handWord_spec (h : Handing) (n : Nat) {key : WordKey} {s : State}
    (hi : h = .indices → cam s.wl key = some s.kidx) :
    ∃ t, handWord h n key s = .ok t ∧ Handed h n [key] s t := by
  have tail (k : Nat) (hk : n < k) : ([key] : List WordKey)[k - n]? = none := by
    rw [List.getElem?_eq_none_iff]; simp; omega
  unfold handWord
  split
  · rename_i hn
    have words (g : Handing) (hg : g = .words ∨ g = .wordsAndMisses) :
        ∃ t, perform (ldWordKey ⟨n, hn⟩ key) s = .ok t ∧ Handed g n [key] s t := by
      refine ⟨_, perform_ldWordKey _ _ _, ⟨fun r _ _ hr => ?_, rfl, fun k => ?_⟩⟩
      · rcases hg with rfl | rfl <;> cases r <;> first | exact absurd rfl hr | rfl
      · have : (s.word.set n key)[k] =
            ((if k.val < n then none else [key][k.val - n]?).getD s.word[k] : WordKey) := by
          rcases Nat.lt_trichotomy k.val n with hk | hk | hk
          · simp [hk, Vector.getElem_set, Nat.ne_of_gt hk]
          · simp [hk]
          · rw [if_neg (by omega), tail k hk]; simp [Vector.getElem_set, Nat.ne_of_lt hk]
        rcases hg with rfl | rfl <;> exact this
    cases h with
    | words => exact words _ (.inl rfl)
    | wordsAndMisses => exact words _ (.inr rfl)
    | indices =>
      have hr : performRead [] .kidx s =
          .ok (s.kidx.setWidth 32, (s.setReply (some (s.kidx.setWidth 32))).setPort []) := by
        rw [performRead, List.nil_append, perform_rd, perform_nil]; rfl
      have he : (s.kidx.setWidth 32).extractLsb' 0 11 = s.kidx := by
        apply BitVec.eq_of_toNat_eq
        have := s.kidx.isLt
        simp only [BitVec.extractLsb'_toNat, BitVec.toNat_setWidth, Nat.shiftRight_zero]
        omega
      let u := (s.setReply (some (s.kidx.setWidth 32))).setPort []
      let t := ((u.setIdx (u.idx.set n s.kidx)).setReply none).setPort []
      have ht : (performRead [] .kidx s >>= fun (v, t) => perform (ldIdx ⟨n, hn⟩ v) t) = .ok t := by
        rw [hr]
        show perform (ldIdx ⟨n, hn⟩ (s.kidx.setWidth 32)) u = _
        rw [perform_ldIdx, he]
      refine ⟨t, ht, ⟨fun r _ _ hr => ?_, rfl, fun k => ?_⟩⟩
      · cases r <;> first | exact absurd rfl hr | rfl
      · have hidx : t.idx = s.idx.set n s.kidx := rfl
        rcases Nat.lt_trichotomy k.val n with hk | hk | hk
        · simp [slotGiven, hidx, hk, Nat.ne_of_gt hk]
        · simp [slotGiven, hidx, hk, hi rfl]
        · rw [if_neg (by omega), tail k hk]
          simp [slotGiven, hidx, Nat.ne_of_lt hk]
  · rename_i hn
    refine ⟨s, rfl, ⟨fun r _ _ _ => sameReg_refl s r, rfl, fun k => ?_⟩⟩
    rw [if_pos (by omega)]
    cases h <;> rfl

/-! ## A sentence's run (rules R214 to R216) -/

theorem candidates_filler {sch : Scheme} {tok : List Byte} (hf : tok ∈ sch.fillers)
    (toks : List (List Byte)) : sch.candidates (tok :: toks) = sch.candidates toks := by
  simp [Scheme.candidates, hf]

theorem candidates_word {sch : Scheme} {tok : List Byte} (hf : tok ∉ sch.fillers)
    (toks : List (List Byte)) : sch.candidates (tok :: toks) = tok :: sch.candidates toks := by
  simp [Scheme.candidates, hf]

/-- No token both is accepted and misses. -/
theorem not_misses_of_accepts {sch : Scheme} {wl : List WordKey} {tok : List Byte} {key : WordKey}
    (h : sch.accepts wl tok key) : ¬ sch.misses wl tok := by
  rintro ⟨h1, h2⟩
  rcases h with ⟨hk, hc⟩ | ⟨-, w, hw, hk, hc⟩
  · exact hc (h1 key hk)
  · exact hc (h2 w hw key hk)

theorem cam_of_accepts {sch : Scheme} {wl : List WordKey} {tok : List Byte} {key : WordKey}
    (h : sch.accepts wl tok key) : cam wl key ≠ none := by
  rcases h with ⟨-, hc⟩ | ⟨-, w, -, -, hc⟩ <;> exact hc

/-- Every token is accepted or misses. -/
theorem accepts_or_misses (sch : Scheme) (wl : List WordKey) (tok : List Byte) :
    (∃ key, sch.accepts wl tok key) ∨ sch.misses wl tok := by
  by_cases h1 : ∀ k, keyOf tok = some k → cam wl k = none
  · by_cases h2 : ∀ w, sch.strip tok = some w → ∀ k, keyOf w = some k → cam wl k = none
    · exact .inr ⟨h1, h2⟩
    · push Not at h2
      obtain ⟨w, hw, k, hk, hc⟩ := h2
      exact .inl ⟨k, .inr ⟨h1, w, hw, hk, hc⟩⟩
  · push Not at h1
    obtain ⟨k, hk, hc⟩ := h1
    exact .inl ⟨k, .inl ⟨hk, hc⟩⟩

/-- The next token of a run that is no filler and loads a word below the limit of the count. -/
theorem loadTokens_loads {sch : Scheme} {h : Handing} {tok : List Byte} {key : WordKey} {n : Nat}
    {s : State} (hf : tok ∉ sch.fillers) (hl : sch.loads h.misses s.wl tok key) (hn : n < 255)
    (hm : h.misses = true → n < 12) (rest : List (List Byte)) :
    ∃ t, loadTokens sch h (tok :: rest) n s = loadTokens sch h rest (n + 1) t ∧
      Handed h n [key] s t := by
  have fin {found : Option WordKey} {t : State}
      (h1 : findWord (tok :: (sch.strip tok).toList) s = .ok (found, t)) (ha : Asked s t)
      (h2 : keyToLoad h n tok found = .ok key) (h3 : h = .indices → cam t.wl key = some t.kidx) :
      ∃ t, loadTokens sch h (tok :: rest) n s = loadTokens sch h rest (n + 1) t ∧
        Handed h n [key] s t := by
    obtain ⟨u, h4, h5⟩ := handWord_spec h n h3
    refine ⟨u, ?_, ?_⟩
    · rw [loadTokens, if_neg hf, h1]
      show (keyToLoad h n tok found >>= _) = _
      rw [h2]
      show (if n < 255 then handWord h n key t >>= _ else _) = _
      rw [if_pos hn, h4]
      rfl
    · exact ha.handed h5
  rcases hl with hl | ⟨hl', hl, hk⟩
  · obtain ⟨t, h1, h2, h3⟩ := findWord_accepts hl
    refine fin h1 h2 rfl fun _ => ?_
    obtain ⟨i, hi⟩ := Option.ne_none_iff_exists'.1 (cam_of_accepts hl)
    rw [h2.wl, hi, h3 i hi]
  · obtain ⟨t, h1, h2⟩ := findWord_misses hl
    cases h with
    | words => cases hl'
    | indices => cases hl'
    | wordsAndMisses => exact fin h1 h2 (by simp [keyToLoad, hk, hm rfl]) nofun

theorem loadTokens_filler {sch : Scheme} {tok : List Byte} (hf : tok ∈ sch.fillers) (h : Handing)
    (rest : List (List Byte)) (n : Nat) (s : State) :
    loadTokens sch h (tok :: rest) n s = loadTokens sch h rest n s := by
  rw [loadTokens, if_pos hf]

/-- Tokens that load words, whatever follows them: the words are handed on, the fillers discarded, and the
run goes on with the count. -/
theorem loadTokens_loadsAll {sch : Scheme} {h : Handing} {toks : List (List Byte)}
    {keys : List WordKey} {n : Nat} {s : State} (hl : sch.loadsAll h.misses s.wl toks keys)
    (hn : n + keys.length ≤ 255) (hm : h.misses = true → n + keys.length ≤ 12) (rest : List (List Byte)) :
    ∃ t, loadTokens sch h (toks ++ rest) n s = loadTokens sch h rest (n + keys.length) t ∧
      Handed h n keys s t := by
  induction toks generalizing keys n s with
  | nil => cases hl; exact ⟨s, rfl, .nil h n (.refl s)⟩
  | cons tok toks ih =>
    by_cases hf : tok ∈ sch.fillers
    · rw [Scheme.loadsAll, candidates_filler hf] at hl
      rw [List.cons_append, loadTokens_filler hf]
      exact ih hl hn hm
    · have hl' := hl
      rw [Scheme.loadsAll, candidates_word hf] at hl'
      cases hl' with
      | cons h1 h2 =>
        rename_i key keys
        simp only [List.length_cons] at hn hm
        obtain ⟨t, e1, g1⟩ := loadTokens_loads (n := n) hf h1 (by omega)
          (fun h => by have := hm h; omega) (toks ++ rest)
        obtain ⟨u, e2, g2⟩ := ih (s := t) (n := n + 1) (keys := keys)
          (by rw [g1.wl]; exact h2) (by omega) (fun h => by have := hm h; omega)
        refine ⟨u, ?_, g1.cons g2⟩
        rw [List.cons_append, e1, e2, List.length_cons]
        congr 1; omega

/-- A token that is no filler and misses ends the decode, unless its key is loaded (rule R216). -/
theorem loadTokens_misses {sch : Scheme} {h : Handing} {tok : List Byte} {s : State}
    (hf : tok ∉ sch.fillers) (hm : sch.misses s.wl tok) {n : Nat}
    (hk : h.misses = true → keyOf tok = none ∨ 12 ≤ n) (rest : List (List Byte)) :
    loadTokens sch h (tok :: rest) n s = .error (.raised (.unknownWord n)) := by
  obtain ⟨t, h1, -⟩ := findWord_misses hm
  rw [loadTokens, if_neg hf, h1]
  show (keyToLoad h n tok none >>= _) = _
  have : keyToLoad h n tok none = .error (.raised (.unknownWord n)) := by
    cases h with
    | words | indices => rfl
    | wordsAndMisses =>
      rcases hk rfl with hk | hk
      · rw [keyToLoad, hk]
      · rw [keyToLoad]
        cases keyOf tok with
        | none => rfl
        | some key => exact if_neg (by omega)
  rw [this]
  rfl

/-- A 256th accepted word ends the decode (rule R215). -/
theorem loadTokens_tooMany {sch : Scheme} {h : Handing} {tok : List Byte} {key : WordKey} {s : State}
    (hf : tok ∉ sch.fillers) (hl : sch.accepts s.wl tok key) (rest : List (List Byte)) :
    loadTokens sch h (tok :: rest) 255 s = .error .tooManyWords := by
  obtain ⟨t, h1, -⟩ := findWord_accepts hl
  rw [loadTokens, if_neg hf, h1]
  rfl

/-- The handing `loadSentence` chooses leaves misses to the block exactly for twelve candidates. -/
theorem handing_misses (sch : Scheme) (misses : Bool) (toks : List (List Byte)) :
    (if sch.leavesMisses misses toks then Handing.wordsAndMisses else .words).misses =
      sch.leavesMisses misses toks := by
  cases sch.leavesMisses misses toks <;> rfl

theorem leavesMisses_length {sch : Scheme} {misses : Bool} {toks : List (List Byte)}
    (h : sch.leavesMisses misses toks = true) : (sch.candidates toks).length = 12 := by
  simp only [Scheme.leavesMisses, Bool.and_eq_true, beq_iff_eq] at h
  exact h.2

/-- What a whole sentence leaves: the first twelve words in `WORD`, their count in `NWORDS`
(rules R214, R215). -/
theorem loadSentence_loadsAll {sch : Scheme} {misses : Bool} {t : List Byte} {keys : List WordKey}
    {s : State} (hl : sch.loadsAll (sch.leavesMisses misses (sch.tokens t)) s.wl (sch.tokens t) keys)
    (hn : keys.length ≤ 255) :
    ∃ u, loadSentence sch misses t s = .ok u ∧ u.nwords = BitVec.ofNat 8 keys.length ∧
      (∀ k : Fin 12, u.word[k] = (keys[k.val]?).getD s.word[k]) ∧
      (∀ r ∉ [DataReg.key, .kidx, .word, .nwords], sameReg s u r) ∧ u.wl = s.wl := by
  have hm := handing_misses sch misses (sch.tokens t)
  have hlen := hl.length_eq
  obtain ⟨h, hh⟩ : ∃ h : Handing,
      h = if sch.leavesMisses misses (sch.tokens t) then .wordsAndMisses else .words := ⟨_, rfl⟩
  have hreg : h = .words ∨ h = .wordsAndMisses := by
    rw [hh]; split
    · exact .inr rfl
    · exact .inl rfl
  rw [← hh] at hm
  obtain ⟨u, h1, h2⟩ := loadTokens_loadsAll (n := 0) (rest := []) (h := h) (hm ▸ hl) (by omega)
    fun hc => by have := leavesMisses_length (hm ▸ hc); omega
  rw [List.append_nil, Nat.zero_add] at h1
  have hslot (k : Fin 12) : u.word[k] = (keys[k.val]?).getD s.word[k] := by
    have g := h2.slots k
    rw [if_neg (by omega)] at g
    rcases hreg with rfl | rfl <;> exact g
  refine ⟨((writeReg .nwords (BitVec.ofNat 32 keys.length) u).setReply none).setPort [], ?_, ?_,
    hslot, fun r hr => ?_, h2.wl⟩
  · rw [loadSentence]
    show (loadTokens sch (if sch.leavesMisses misses (sch.tokens t) then .wordsAndMisses else .words)
      (sch.tokens t) 0 s >>= _) = _
    rw [← hh, h1]
    show perform [wr .nwords (BitVec.ofNat 32 keys.length)] u = _
    rw [perform_wr (by decide), perform_nil]
  · show (BitVec.ofNat 32 keys.length).extractLsb' 0 8 = _
    apply BitVec.eq_of_toNat_eq
    simp only [BitVec.extractLsb'_toNat, BitVec.toNat_ofNat, Nat.shiftRight_zero]
    omega
  · simp only [List.mem_cons, List.not_mem_nil, or_false, not_or] at hr
    have := h2.same r hr.1 hr.2.1 (by rcases hreg with rfl | rfl <;> exact hr.2.2.1)
    cases r <;> first | exact absurd rfl hr.2.2.2 | exact this

/-- Tokens of at most twelve candidates, misses loaded: every candidate loads a word, or the host raises
UNKNOWN_WORD for one that has no key (rules R81, R216). -/
theorem loadTokens_leaves {sch : Scheme} {toks : List (List Byte)} {n : Nat} {s : State}
    (hn : n + (sch.candidates toks).length ≤ 12) :
    (∃ keys, sch.loadsAll true s.wl toks keys) ∨
      ∃ k, loadTokens sch .wordsAndMisses toks n s = .error (.raised (.unknownWord k)) := by
  induction toks generalizing n s with
  | nil => exact .inl ⟨[], .nil⟩
  | cons tok toks ih =>
    by_cases hf : tok ∈ sch.fillers
    · rw [candidates_filler hf] at hn
      rw [loadTokens_filler hf]
      simpa only [Scheme.loadsAll, candidates_filler hf] using ih hn
    · rw [candidates_word hf, List.length_cons] at hn
      have load (key : WordKey) (hl : sch.loads true s.wl tok key) :
          (∃ keys, sch.loadsAll true s.wl (tok :: toks) keys) ∨
            ∃ k, loadTokens sch .wordsAndMisses (tok :: toks) n s =
              .error (.raised (.unknownWord k)) := by
        obtain ⟨t, e, g⟩ := loadTokens_loads (h := .wordsAndMisses) (n := n) hf hl (by omega)
          (fun _ => by omega) toks
        rw [e]
        refine (ih (n := n + 1) (s := t) (by omega)).imp_left ?_
        rintro ⟨keys, hk⟩
        rw [g.wl] at hk
        exact ⟨key :: keys, by rw [Scheme.loadsAll, candidates_word hf]; exact .cons hl hk⟩
      rcases accepts_or_misses sch s.wl tok with ⟨key, ha⟩ | hm
      · exact load key (.inl ha)
      · cases hk : keyOf tok with
        | some key => exact load key (.inr ⟨rfl, hm, hk⟩)
        | none => exact .inr ⟨n, loadTokens_misses hf hm (fun _ => .inl hk) toks⟩

/-- A command and the read of `STATUS` behind it. -/
theorem perform_cmd_status {i : Instr} {s w : State}
    (h : exec i (issued i [rd .status] s) = .next w) :
    perform [cmdLine i, rd .status] s =
      .ok ((w.setReply (some (w.status.setWidth 32))).setPort []) := by
  rw [perform_cmd h, perform_rd, perform_nil]
  rfl

/-! ## Decoding (rule R214) -/

/-- The verdict on twelve indices: `OK` or Checksum (rules R153, R157). -/
def verdict (v : Vector Index 12) : StatusBits :=
  if verifyFn ((foldIndices v).extractLsb' 4 128) ((foldIndices v).extractLsb' 0 4) then 0 else 3

/-- Stated for any step, so that no proof evaluates one. -/
theorem ok_then {ε α β : Type} (a : α) (f : α → Except ε β) : (Except.ok a >>= f) = f a := rfl

theorem error_then {ε α β : Type} (c : ε) (f : α → Except ε β) :
    (Except.error c >>= f) = .error c := rfl

theorem then_ok {ε α : Type} (x : Except ε α) : (x >>= Except.ok) = x := by cases x <;> rfl

theorem verifyStep_verdict {s : State} {v : Vector Index 12}
    (he : s.ent = (foldIndices v).extractLsb' 4 128) (hc : s.chk = (foldIndices v).extractLsb' 0 4) :
    verifyStep s = if verdict v = 0 then .ok s else .error .checksum := by
  rw [verifyStep, verdict, he, hc]
  cases verifyFn ((foldIndices v).extractLsb' 4 128) ((foldIndices v).extractLsb' 0 4) <;> simp

theorem verdict_error {v : Vector Index 12} (h : verdict v ≠ 0) :
    verdict v = Cause.checksum.status := by
  unfold verdict at h ⊢
  split at h
  · exact absurd rfl h
  · rename_i hc; rw [if_neg hc]; decide

/-- GETE and DEC check the count first (rules R161, R182, R184). -/
theorem decode_wordCount {i : Instr} (hi : i = .gete ∨ i = .dec) {s : State} (hn : s.nwords ≠ 12) :
    ∃ t, exec i s = .next t ∧ t.status = mkStatus 2 1 s.nwords 0 := by
  have h : w2idxStep s = .error (.wordCount s.nwords) := by
    have : s.nwords.toNat ≠ Config.nWords := fun hc => hn (BitVec.eq_of_toNat_eq hc)
    rw [w2idxStep, if_pos this]
  have hg : geteSteps s = .error (.wordCount s.nwords) := by rw [geteSteps, h]; rfl
  have hd : decSteps s = .error (.wordCount s.nwords) := by rw [decSteps, hg]; rfl
  rcases hi with rfl | rfl
  · exact ⟨finish .gete (geteSteps s) s, rfl, by rw [hg]; rfl⟩
  · exact ⟨finish .dec (decSteps s) s, rfl, by rw [hd]; rfl⟩

/-- GETE and DEC of twelve words report the lowest slot that misses (rules R161, R182, R184). -/
theorem decode_unknownWord {i : Instr} (hi : i = .gete ∨ i = .dec) {s : State} (hn : s.nwords = 12)
    {k : Fin 12} (hk : cam s.wl s.word[k] = none)
    (hj : ∀ j : Fin 12, j < k → cam s.wl s.word[j] ≠ none) :
    ∃ t, exec i s = .next t ∧ t.status = mkStatus 2 2 (BitVec.ofNat 8 k) 0 := by
  have hf : (s.word.toList.findIdx? fun w => (cam s.wl w).isNone) = some k.val := by
    rw [List.findIdx?_eq_some_iff_getElem]
    refine ⟨by simp, by simpa using hk, fun j hjk => ?_⟩
    have := hj ⟨j, by omega⟩ hjk
    simpa [Option.isSome_iff_ne_none] using this
  have h : w2idxStep s = .error (.unknownWord k) := by
    rw [w2idxStep, if_neg (by rw [hn]; decide), hf]
  have hg : geteSteps s = .error (.unknownWord k) := by rw [geteSteps, h]; rfl
  have hd : decSteps s = .error (.unknownWord k) := by rw [decSteps, hg]; rfl
  rcases hi with rfl | rfl
  · exact ⟨finish .gete (geteSteps s) s, rfl, by rw [hg]; rfl⟩
  · exact ⟨finish .dec (decSteps s) s, rfl, by rw [hd]; rfl⟩

/-- GETE and DEC of twelve hits report the verdict on their indices, and leave the entropy the indices hold
if it is `OK` (rules R182, R184). -/
theorem decode_hits {i : Instr} (hi : i = .gete ∨ i = .dec) {s : State} {v : Vector Index 12}
    (hn : s.nwords = 12) (hv : ∀ k : Fin 12, cam s.wl s.word[k] = some v[k]) :
    ∃ t, exec i s = .next t ∧ t.status = verdict v ∧
      (t.status = 0 → t.ent = (foldIndices v).extractLsb' 4 128) := by
  have h : w2idxStep s = .ok (s.setIdx v) := by
    have hm : (s.word.toList.findIdx? fun w => (cam s.wl w).isNone) = none := by
      rw [List.findIdx?_eq_none_iff]
      intro w hw
      obtain ⟨k, hk, rfl⟩ := List.getElem_of_mem hw
      simp only [Vector.length_toList] at hk
      have := hv ⟨k, hk⟩
      simp only [Fin.getElem_fin] at this
      simp [this]
    have hx : (Vector.ofFn fun k => (cam s.wl s.word[k]).getD 0) = v := by
      refine Vector.ext fun k hk => ?_
      have := hv ⟨k, hk⟩
      simp only [Fin.getElem_fin] at this
      simp [this]
    rw [w2idxStep, if_neg (by rw [hn]; decide), hm]
    simp only [hx]
  let u := ((s.setIdx v).setChk ((foldIndices v).extractLsb' 0 4)).setEnt
    ((foldIndices v).extractLsb' 4 128)
  have hp : unpackStep (s.setIdx v) = .ok u := rfl
  have hg : geteSteps s = verifyStep u := by rw [geteSteps, h, ok_then, hp, ok_then]
  have hd : decSteps s = verifyStep u >>= renderStep := by rw [decSteps, hg]
  have hu := verifyStep_verdict (s := u) (v := v) rfl rfl
  have fin (f : State → Except Cause State) (hf : ∀ x, ∃ y, f x = .ok y ∧ y.ent = x.ent) :
      (finish i (verifyStep u >>= f) s).status = verdict v ∧
        ((finish i (verifyStep u >>= f) s).status = 0 →
          (finish i (verifyStep u >>= f) s).ent = (foldIndices v).extractLsb' 4 128) := by
    rw [hu]
    by_cases hc : verdict v = 0
    · obtain ⟨y, hy, he⟩ := hf u
      rw [if_pos hc, hc, ok_then, hy, finish_ok, State.setStatus_status,
        State.setStatus_ent]
      exact ⟨rfl, fun _ => he⟩
    · have hs := verdict_error hc
      rw [if_neg hc, error_then, finish_error,
        raise_status]
      exact ⟨hs.symm, fun h => absurd (hs.trans h) hc⟩
  rcases hi with rfl | rfl
  · refine ⟨finish .gete (geteSteps s) s, rfl, ?_⟩
    rw [hg, ← then_ok (verifyStep u)]
    exact fin .ok fun x => ⟨x, rfl, rfl⟩
  · refine ⟨finish .dec (decSteps s) s, rfl, ?_⟩
    rw [hd]
    exact fin renderStep fun x => ⟨_, rfl, by rw [State.setTextLen_ent, State.setText_ent]⟩

/-- UNPACK, VERIFY and the read of `STATUS`: the verdict on `IDX`, and the entropy it holds. -/
theorem perform_unpack_verify (s : State) :
    ∃ t, perform [cmdLine .unpack, cmdLine .verify, rd .status] s = .ok t ∧
      t.status = verdict s.idx ∧ t.ent = (foldIndices s.idx).extractLsb' 4 128 := by
  let u := (((issued .unpack [cmdLine .verify, rd .status] s).setChk
    ((foldIndices s.idx).extractLsb' 0 4)).setEnt ((foldIndices s.idx).extractLsb' 4 128)).setStatus 0
  have hu : exec .unpack (issued .unpack [cmdLine .verify, rd .status] s) = .next u := by
    show Host.Outcome.next (finish .unpack (unpackStep _) _) = _
    rw [unpackStep, finish_ok]
    rfl
  let v := issued .verify [rd .status] u
  have hv : exec .verify v = .next (finish .verify (verifyStep v) v) := rfl
  refine ⟨_, (perform_cmd hu).trans (perform_cmd_status hv), ?_⟩
  rw [State.setPort_status, State.setPort_ent, State.setReply_status, State.setReply_ent]
  rw [verifyStep_verdict (v := s.idx) rfl rfl]
  by_cases hc : verdict s.idx = 0
  · rw [if_pos hc, hc, finish_ok]
    exact ⟨rfl, rfl⟩
  · rw [if_neg hc, finish_error, raise_status]
    exact ⟨(verdict_error hc).symm, rfl⟩

/-! ## The reference scheme's tokens (rule R218) -/

theorem wsPieces_word {x : List Byte} (hx : ∀ b ∈ x, isWs b = false) (t cur : List Byte) :
    wsPieces (x ++ t) cur = wsPieces t (x.reverse ++ cur) := by
  induction x generalizing cur with
  | nil => rfl
  | cons b x ih =>
    rw [List.cons_append, wsPieces, if_neg (by simp [hx b (by simp)]),
      ih (fun c hc => hx c (by simp [hc]))]
    simp

theorem sentenceTokens_nil : sentenceTokens [] = [] := rfl

theorem sentenceTokens_ws {b : Byte} (hb : isWs b = true) (t : List Byte) :
    sentenceTokens (b :: t) = sentenceTokens t := by
  rw [sentenceTokens, wsPieces, if_pos hb]
  rfl

theorem sentenceTokens_word {x : List Byte} (h0 : x ≠ []) (hx : ∀ b ∈ x, isWs b = false)
    {t : List Byte} (ht : ∀ b, t.head? = some b → isWs b = true) :
    sentenceTokens (x ++ t) = x :: sentenceTokens t := by
  rw [sentenceTokens, wsPieces_word hx, List.append_nil]
  cases t with
  | nil => simp [wsPieces, sentenceTokens, h0]
  | cons b t =>
    rw [wsPieces, if_pos (ht b rfl), sentenceTokens_ws (ht b rfl), sentenceTokens]
    simp [h0]

end Sys2Proof.Machine
end

