-- ==== Sys2Proof/Tests/Slice0.lean ====
section
/-! SUPPORT. The model's own tests. Expected values are those of 95_test_vectors.md, under their numbers
there, or of the rule named. Witnesses for the obligations stand at the end. -/

namespace Sys2Proof.Tests

open Sys2Proof.Machine

-- One theorem at a time: evaluated side by side, the hashes take more memory than a check has.
set_option Elab.async false

/-! ## Building small states -/

/-- The `n` bytes of a big-endian number. -/
def bytesOf (n v : Nat) : List Byte :=
  (List.range n).map fun i => BitVec.ofNat 8 (v / 256 ^ (n - 1 - i))

/-- `TWL[i]`, the synthetic test word (section 3.5 of the vectors). -/
def testKey (i : Nat) : WordKey :=
  #v[BitVec.ofNat 8 (0x61 + i / 676), BitVec.ofNat 8 (0x61 + i / 26 % 26),
    BitVec.ofNat 8 (0x61 + i % 26), 0, 0, 0, 0, 0]

/-- The first `n` words of `TWL`; all of it is `testWords 2048`. -/
def testWords (n : Nat) : List WordKey := (List.range n).map testKey

/-- The reset state with a short `TWL`. -/
def base (n : Nat) : State := { State.reset with wl := testWords n }

/-- The state with a text of `n` bytes, given as one big-endian number, as LDTEXT leaves it. -/
def withText (s : State) (n v : Nat) : State :=
  { s with
    text := Vector.ofFn fun i : Fin 64 => (bytesOf n v).getD i 0
    textLen := BitVec.ofNat 7 n }

/-- Twelve indices, zero past the list. -/
def indices (l : List Nat) : Vector Index 12 := Vector.ofFn fun k => BitVec.ofNat 11 (l.getD k 0)

/-- The twelve test words of twelve indices. -/
def mnemonic (l : List Nat) : Vector WordKey 12 := Vector.ofFn fun k => testKey (l.getD k 0)

/-- The state a command leaves. -/
def after (i : Instr) (s : State) : State :=
  match exec i s with
  | .next t => t
  | _ => s

/-- Two accesses: a write, then a read, and what the read returned. -/
def writeRead (r : WindowReg) (v : Word) (q : WindowReg) : Option Word :=
  match runPort { base 0 with port := [wr r v, rd q] } with
  | .next t => t.reply
  | _ => none

/-! ## Decoding: the opcode map's words, bit by bit (rules R70, R72) -/

theorem test_decode_nop : decodeTableWord 32 0x00000000 = some .nop := by decide
theorem test_decode_parse : decodeTableWord 32 0x00000001 = some .parse := by decide
theorem test_decode_render : decodeTableWord 32 0x00000002 = some .render := by decide
theorem test_decode_e2b : decodeTableWord 32 0x00000003 = some .e2b := by decide
theorem test_decode_b2e : decodeTableWord 32 0x00000004 = some .b2e := by decide
theorem test_decode_cksum : decodeTableWord 32 0x00000005 = some .cksum := by decide
theorem test_decode_pack : decodeTableWord 32 0x00000006 = some .pack := by decide
theorem test_decode_unpack : decodeTableWord 32 0x00000007 = some .unpack := by decide
theorem test_decode_verify : decodeTableWord 32 0x00000008 = some .verify := by decide
theorem test_decode_idx2w : decodeTableWord 32 0x00000009 = some .idx2w := by decide
theorem test_decode_w2idx : decodeTableWord 32 0x0000000A = some .w2idx := by decide
theorem test_decode_lookup : decodeTableWord 32 0x0000000B = some .lookup := by decide
theorem test_decode_wordat : decodeTableWord 32 0x0000000C = some .wordat := by decide
theorem test_decode_genw : decodeTableWord 32 0x0000000D = some .genw := by decide
theorem test_decode_gete : decodeTableWord 32 0x0000000E = some .gete := by decide
theorem test_decode_enc : decodeTableWord 32 0x0000000F = some .enc := by decide
theorem test_decode_dec : decodeTableWord 32 0x00000010 = some .dec := by decide
theorem test_decode_clr : decodeTableWord 32 0x00000011 = some .clr := by decide

/-- R74, vectors Y4, Y6, Y7, Y9: none of these is a command. -/
theorem test_decode_illegal :
    [0x12, 0xFF, 0x100, 0x111, 0x80000001, 0xFFFFFFFF].map (decodeTableWord 32) =
      List.replicate 6 none := by decide

/-! ## Well-formedness: what each check refuses -/

theorem test_wf_word_reserved : CommandWord.wf 0x00000101 = false := by decide
theorem test_wf_word_opcode : CommandWord.wf 0x00000012 = false := by decide
theorem test_wf_word_last : CommandWord.wf 0x00000011 = true := by decide

/-- R80: no letter, a letter after the padding, a capital, a digit. -/
theorem test_wf_key_refused :
    [zeroKey, #v[0x61, 0x61, 0x61, 0, 0x62, 0, 0, 0], #v[0x41, 0x61, 0, 0, 0, 0, 0, 0],
      #v[0x61, 0x31, 0, 0, 0, 0, 0, 0]].map WordKey.canonical = List.replicate 4 false := by decide

/-- R80: one letter, and eight. -/
theorem test_wf_key_accepted :
    [(#v[0x7A, 0, 0, 0, 0, 0, 0, 0] : WordKey), Vector.replicate 8 0x61].map WordKey.canonical =
      [true, true] := by decide

/-- R6 (a): too short. -/
theorem test_wf_wordlist_short : ¬ Wordlist.valid (testWords 2) :=
  fun h => absurd h.size (by decide)

/-- R6 (b): an entry that is no canonical key. -/
theorem test_wf_wordlist_key : ¬ Wordlist.valid (zeroKey :: testWords 2047) :=
  fun h => absurd (h.keys zeroKey (by simp)) (by decide)

/-- R6 (c): two equal entries. -/
theorem test_wf_wordlist_unique : ¬ Wordlist.valid (List.replicate 2048 (testKey 0)) :=
  fun h => by
    have := h.unique
    rw [List.nodup_replicate] at this
    omega

/-- R58: a byte access, a misaligned one, one outside the window. -/
theorem test_wf_access :
    [Access.read 0x0C0 1, .read 0x012 4, .write 0x200 4 0].map Access.wf = List.replicate 3 false ∧
      Access.wf (.write 0x1FC 4 0) = true := by decide

theorem testKey_canonical {i : Nat} (h : i < 2048) : (testKey i).canonical = true := by
  have hl (n : Nat) (hn : n < 26) : Byte.isLowerLetter (BitVec.ofNat 8 (0x61 + n)) = true := by
    simp [Byte.isLowerLetter]; omega
  have h1 := hl (i / 676) (by omega)
  have h2 := hl (i / 26 % 26) (by omega)
  have h3 := hl (i % 26) (by omega)
  have h4 : (testKey i).toList.dropWhile Byte.isLowerLetter = [0, 0, 0, 0, 0] := by
    show List.dropWhile _ [_, _, _, _, _, _, _, _] = _
    rw [List.dropWhile_cons, if_pos h1, List.dropWhile_cons, if_pos h2, List.dropWhile_cons,
      if_pos h3]
    decide
  unfold WordKey.canonical
  rw [h4]
  decide

theorem testKey_injective {i j : Nat} (hi : i < 2048) (hj : j < 2048) (h : testKey i = testKey j) :
    i = j := by
  have hb (n m : Nat) (hn : n < 26) (hm : m < 26)
      (h : BitVec.ofNat 8 (0x61 + n) = BitVec.ofNat 8 (0x61 + m)) : n = m := by
    have := congrArg BitVec.toNat h
    simp at this; omega
  have g (k : Nat) (hk : k < 8) := congrArg (fun v : WordKey => v[k]) h
  have h1 := hb (i / 676) (j / 676) (by omega) (by omega) (g 0 (by omega))
  have h2 := hb (i / 26 % 26) (j / 26 % 26) (by omega) (by omega) (g 1 (by omega))
  have h3 := hb (i % 26) (j % 26) (by omega) (by omega) (g 2 (by omega))
  omega

/-- Section 3.5: `TWL` meets every invariant of R6. -/
theorem testWords_valid : Wordlist.valid (testWords 2048) where
  size := by simp [testWords, Config.wlSize]
  keys := by
    intro k hk
    obtain ⟨i, hi, rfl⟩ := List.mem_map.1 hk
    exact testKey_canonical (by simpa using hi)
  unique := by
    refine List.Nodup.map_on ?_ List.nodup_range
    intro i hi j hj h
    exact testKey_injective (by simpa using hi) (by simpa using hj) h

/-! ## The window (vectors A1 to A17) -/

/-- A1, A2, A3, A4: the constants, and ignored writes. -/
theorem test_port_readOnly :
    [writeRead .chk 0 .id, writeRead .chk 0 .param, writeRead .id 0xFFFFFFFF .id,
      writeRead .status 0xFFFFFFFF .status] =
      [some 0x49503653, some 0x40080800, some 0x49503653, some 0] := by decide +kernel

/-- A5 to A8: narrow registers truncate. -/
theorem test_port_narrow :
    [writeRead .chk 0xFFFFFFFF .chk, writeRead (.idx 5) 0xFFFFFFFF (.idx 5),
      writeRead (.idx 5) 0x800 (.idx 5), writeRead .nwords 0x10C .nwords] =
      [some 0xF, some 0x7FF, some 0, some 0xC] := by decide +kernel

/-- A9, A10, A11: `TEXT_LEN` clamps. -/
theorem test_port_textLen :
    [0x40, 0x41, 0x100].map (fun v => writeRead .textLen v .textLen) =
      List.replicate 3 (some 0x40) := by decide +kernel

/-- A12: `BYTES` does not follow `ENT`; R54: the lanes of a key and of `ENT0`. -/
theorem test_port_storage :
    writeRead (.ent 0) 0x12345678 (.byt 0) = some 0 ∧
      (writeReg (.ent 0) 0x12345678 (base 0)).ent = 0x12345678 <<< 96 ∧
      (writeReg (.word 11 1) 0x61626300 (base 0)).word[11] =
        #v[0, 0, 0, 0, 0x61, 0x62, 0x63, 0] := by decide +kernel

/-- A13, A14, A15 and R59: no step. -/
theorem test_port_refused :
    step { base 0 with port := [.access (.read 0x012 4)] } = .fault .busAlignment ∧
      step { base 0 with port := [.access (.write 0x0C0 1 0)] } = .fault .busWidth ∧
      step { base 0 with port := [.access (.read 0x048 4)] } = .fault .busReserved ∧
      step { base 0 with port := [.access (.read 0x160 4)] } = .fault .busReserved ∧
      step { base 0 with port := [.access (.read 0x200 4)] } = .refused .outsideWindow :=
  ⟨rfl, rfl, rfl, rfl, rfl⟩

/-- Log entry 3: a command word placed by `withFetchWord` runs as the first step after reset. -/
theorem test_first_step :
    step (State.reset.withFetchWord 32 0x0B) = exec .lookup { State.reset with cmd := 0x0B } ∧
      step (State.reset.withFetchWord 32 0x11) = exec .clr { State.reset with cmd := 0x11 } :=
  ⟨rfl, rfl⟩

/-! ## The commands -/

/-- Y2: NOP clears `HIT`; `KIDX` stays. -/
theorem test_nop :
    let t := after .nop { base 0 with status := 0x10000, kidx := 2047 }
    t.status = 0 ∧ t.kidx = 2047 := by decide

/-- T4: spaces, capitals, a line feed. -/
theorem test_parse_trim :
    let t := after .parse (withText (base 0) 10 0x2020464538303A3A310A)
    t.status = 0 ∧ t.ent = 0xFE800000000000000000000000000001 := by decide +kernel

/-- T29: `fe80::1%eth0`, group 7; `ENT` reads zero. -/
theorem test_parse_zone :
    let t := after .parse (withText { base 0 with ent := 5 } 12 0x666538303A3A312565746830)
    t.status = 0x00751 ∧ t.ent = 0 := by decide +kernel

/-- N5: `2001:db8:0:0:0:ff00:42:8329`. -/
theorem test_render :
    let t := after .render { base 0 with ent := 0x20010DB8000000000000FF0000428329 }
    t.textLen = 27 ∧
      t.textString = bytesOf 27 0x323030313A6462383A303A303A303A666630303A34323A38333239 := by
  decide +kernel

/-- N2, and the words past it: zero whatever they held. -/
theorem test_render_zeros :
    let t := after .render { base 0 with ent := 1, text := Vector.replicate 64 0x67 }
    readReg (.text 3) t = 0x303A3100 ∧ readReg (.text 4) t = 0 ∧ readReg (.text 15) t = 0 := by
  decide +kernel

/-- B1. -/
theorem test_e2b :
    let t := after .e2b { base 0 with ent := 0x000102030405060708090A0B0C0D0E0F }
    readReg (.byt 0) t = 0x00010203 ∧ readReg (.byt 3) t = 0x0C0D0E0F ∧ t.bytes[7] = 7 := by
  decide +kernel

/-- B4. -/
theorem test_b2e :
    (after .b2e
      { base 0 with
        bytes := #v[0xFE, 0x80, 0, 0, 0, 0, 0, 0, 0x2F, 0xB4, 0x58, 0x66, 0x4C, 0x4D, 0xB9, 0x51] }).ent =
      0xFE800000000000002FB458664C4DB951 := by decide +kernel

/-- H6: a first digest byte of 0x8C gives 8. -/
theorem test_cksum :
    (after .cksum { base 0 with bytes := toBytes 0x20010DB8000000000000FF0000428329 }).chk = 8 := by
  decide +kernel

/-- H1: the whole digest of sixteen zero bytes. -/
theorem test_hash :
    (digestWords (Vector.replicate 16 0)) =
      [0x374708FF, 0xF7719DD5, 0x979EC875, 0xD56CD228, 0x6F6D3CF7, 0xEC317A3B, 0x25632AAB,
        0x28EC37BB] := by decide +kernel

/-- K6. -/
theorem test_pack :
    (after .pack { base 0 with ent := 0x20010DB8000000000000FF0000428329, chk := 8 }).idx =
      indices [256, 67, 880, 0, 0, 0, 0, 255, 0, 16, 1286, 664] := by decide +kernel

/-- V4: the candidate entropy and the claimed checksum, unverified. -/
theorem test_unpack :
    let t := after .unpack
      { base 0 with idx := indices [2036, 0, 0, 0, 0, 0, 1527, 1112, 818, 787, 882, 1297] }
    t.status = 0 ∧ t.ent = 0xFE800000000000002FBC58664C4DB951 ∧ t.chk = 1 := by decide +kernel

/-- V2: entropy 0 with checksum 4. -/
theorem test_verify_mismatch :
    let t := after .verify { base 0 with chk := 4 }
    t.status = 3 ∧ t.chk = 4 := by decide +kernel

/-- V5: a substitution the checksum does not catch. -/
theorem test_verify_match :
    (after .verify { base 0 with ent := 0x00400000000000002FB458664C4DB951, chk := 1 }).status = 0 := by
  decide +kernel

/-- W16 on a shorter table: the lowest slot, and `WORD` zero. -/
theorem test_idx2w_short :
    let t := after .idx2w
      { base 20 with idx := indices [0, 0, 20, 0, 2047], word := mnemonic [1] }
    t.status = 0x00204 ∧ t.word = Vector.replicate 12 zeroKey := by decide +kernel

/-- W2: index 2047. -/
theorem test_idx2w_last :
    (after .idx2w { base 2048 with idx := indices (List.replicate 12 2047) }).word[11] =
      #v[0x64, 0x61, 0x74, 0, 0, 0, 0, 0] := by decide +kernel

/-- W5 on a short table: a capital is folded for the match and left in `WORD`. -/
theorem test_w2idx :
    let t := after .w2idx
      { base 30 with
        word := (mnemonic [26, 0, 25]).set 0 #v[0x41, 0x42, 0x61, 0, 0, 0, 0, 0], nwords := 12 }
    t.status = 0 ∧ t.idx = indices [26, 0, 25] ∧
      t.word[0] = #v[0x41, 0x42, 0x61, 0, 0, 0, 0, 0] := by decide +kernel

/-- W8, W9: the lowest slot that misses; a letter after the padding matches no entry. -/
theorem test_w2idx_unknown :
    let t := after .w2idx
      { base 5 with
        word := ((mnemonic []).set 3 #v[0x61, 0x61, 0x61, 0, 0x62, 0, 0, 0]).set 9 zeroKey,
        nwords := 12, idx := indices [7] }
    t.status = 0x00322 ∧ t.idx = indices [] := by decide +kernel

/-- W10 with a capital on a short table: `aaZ` is entry 25 (the table of section 3.5), the last here. -/
theorem test_lookup_hit :
    let t := after .lookup { base 26 with key := #v[0x61, 0x61, 0x5A, 0, 0, 0, 0, 0] }
    t.kidx = 25 ∧ t.status = 0x10000 := by decide +kernel

/-- W14: `aaaa` does not match `aaa`. -/
theorem test_lookup_miss :
    let t := after .lookup
      { base 5 with key := #v[0x61, 0x61, 0x61, 0x61, 0, 0, 0, 0], kidx := 9, status := 0x10000 }
    t.kidx = 0 ∧ t.status = 0 := by decide +kernel

/-- W15. -/
theorem test_wordat :
    readReg (.key 0) (after .wordat { base 30 with kidx := 26 }) = 0x61626100 := by decide +kernel

/-- R164 on a short table. -/
theorem test_wordat_short :
    let t := after .wordat { base 30 with kidx := 30, key := testKey 1 }
    t.status = 4 ∧ t.key = zeroKey := by decide +kernel

/-- G1. -/
theorem test_genw :
    let t := after .genw (base 4)
    t.status = 0 ∧ t.chk = 3 ∧ t.idx = indices [0, 0, 0, 0, 0, 0, 0, 0, 0, 0, 0, 3] ∧
      t.word = mnemonic [0, 0, 0, 0, 0, 0, 0, 0, 0, 0, 0, 3] := by decide +kernel

/-- R181 with R240: a table too short by one entry for G1. -/
theorem test_genw_short :
    let t := after .genw { base 3 with chk := 9 }
    t.status = 0x00B04 ∧ t.chk = 0 ∧ t.idx = indices [] ∧ t.word = Vector.replicate 12 zeroKey := by
  decide +kernel

/-- The example of R182: `aaa` eleven times and `aad`. -/
theorem test_gete :
    let t := after .gete
      { base 5 with word := mnemonic [0, 0, 0, 0, 0, 0, 0, 0, 0, 0, 0, 3], nwords := 12, ent := 5 }
    t.status = 0 ∧ t.ent = 0 ∧ t.chk = 3 := by decide +kernel

/-- The same example with `aae`: Checksum, and nothing is left (as G5). -/
theorem test_gete_checksum :
    let t := after .gete
      { base 5 with
        word := mnemonic [0, 0, 0, 0, 0, 0, 0, 0, 0, 0, 0, 4], nwords := 12, ent := 5, chk := 5,
        idx := indices (List.replicate 12 5) }
    t.status = 3 ∧ t.ent = 0 ∧ t.chk = 0 ∧ t.idx = indices [] := by decide +kernel

/-- Program P1: `::1`. -/
theorem test_enc :
    let t := after .enc (withText (base 24) 3 0x3A3A31)
    t.status = 0 ∧ t.ent = 1 ∧ t.chk = 7 ∧ t.idx = indices [0, 0, 0, 0, 0, 0, 0, 0, 0, 0, 0, 23] ∧
      t.word = mnemonic [0, 0, 0, 0, 0, 0, 0, 0, 0, 0, 0, 23] := by decide +kernel

/-- E2: an empty text zeroes all five destinations. -/
theorem test_enc_empty :
    let t := after .enc
      { base 24 with ent := 7, chk := 7, bytes := Vector.replicate 16 7, word := mnemonic [1] }
    t.status = 0x00011 ∧ t.ent = 0 ∧ t.chk = 0 ∧ t.bytes = Vector.replicate 16 0 ∧
      t.word = Vector.replicate 12 zeroKey := by decide +kernel

/-- Program P2: the words of `::1` render as fifteen bytes. -/
theorem test_dec :
    let t := after .dec
      { base 24 with word := mnemonic [0, 0, 0, 0, 0, 0, 0, 0, 0, 0, 0, 23], nwords := 12 }
    t.status = 0 ∧ t.ent = 1 ∧ t.textString = bytesOf 15 0x303A303A303A303A303A303A303A31 := by
  decide +kernel

/-- D2: eleven words; the text `abc` is gone. -/
theorem test_dec_count :
    let t := after .dec (withText { base 24 with word := mnemonic [], nwords := 11 } 3 0x616263)
    t.status = 0x00B12 ∧ t.textLen = 0 ∧ t.text = Vector.replicate 64 0 := by decide +kernel

/-- Y3: everything but `CMD`. -/
theorem test_clr :
    let t := after .clr
      (withText { base 3 with cmd := 0x11, nwords := 12, kidx := 9, status := 0x10000 } 3 0x616263)
    t.nwords = 0 ∧ t.kidx = 0 ∧ t.textLen = 0 ∧ t.text[0] = 0 ∧ t.status = 0 ∧ t.cmd = 0x11 := by
  decide +kernel

/-- Y6, Y9: reserved bits make NOP's opcode illegal; `INFO` is the low byte. -/
theorem test_illegal :
    (∃ t, step { base 0 with ent := 9, port := [wr .cmd 0x00000100] } = .next t ∧
      t.status = 0x00005 ∧ t.ent = 9) ∧
    ∃ t, step { base 0 with ent := 9, port := [wr .cmd 0xFFFFFFFF] } = .next t ∧
      t.status = 0x0FF05 ∧ t.cmd = 0xFFFFFFFF :=
  ⟨⟨_, rfl, by decide, by decide⟩, ⟨_, rfl, by decide, by decide⟩⟩

/-- F1, F3 in small: the sentence of two words, and the tokens of one with doubled spaces. -/
theorem test_format :
    formatWords [bytesOf 3 0x646169, bytesOf 3 0x616161] = bytesOf 7 0x64616920616161 ∧
      sentenceTokens (bytesOf 11 0x2020646169202061616120) =
        [bytesOf 3 0x646169, bytesOf 3 0x616161] := by decide +kernel

/-- A token of three letters. -/
def tok3 (v : Nat) : List Byte := bytesOf 3 v

/-- A sentence of `n` times `aaa` and then these tokens. -/
def aaaThen (n : Nat) (l : List (List Byte)) : List Byte :=
  formatWords (List.replicate n (tok3 0x616161) ++ l)

/-- `STATUS` where a decode ends, or the error the host ends it with. -/
def ending (r : Except HostStop State) : Except HostStop StatusBits := r.map (·.status)

/-- F5, F6 with words of a short table: the counts 11 and 13 fail in the block. -/
theorem test_sentence_count :
    (ending (decodeSentence referenceScheme false .dec (aaaThen 11 []) (base 5))).toOption =
        some 0x00B12 ∧
      (ending (decodeSentence referenceScheme false .dec (aaaThen 13 []) (base 5))).toOption =
        some 0x00D12 := by decide +kernel

/-- F8: the miss `the` in slot 6, its key loaded, and by a host that fails itself. -/
theorem test_sentence_miss :
    let t := aaaThen 6 (tok3 0x746865 :: List.replicate 5 (tok3 0x616161))
    (ending (decodeSentence referenceScheme true .dec t (base 5))).toOption = some 0x00622 ∧
      (match decodeSentence referenceScheme false .dec t (base 5) with
        | .error e => some e
        | .ok _ => none) = some (.raised (.unknownWord 6)) := by decide +kernel

/-- R216: a miss past the last slot, and one among thirteen candidates, fail with UNKNOWN_WORD and not with
the count, whatever the host does with misses. -/
theorem test_sentence_late_miss :
    let stop (r : Except HostStop State) := match r with
      | .error e => some e
      | .ok _ => none
    let the := tok3 0x746865
    stop (decodeSentence referenceScheme true .dec (aaaThen 12 [the]) (base 5)) =
        some (.raised (.unknownWord 12)) ∧
      stop (decodeSentence referenceScheme true .dec
        (aaaThen 3 (the :: List.replicate 9 (tok3 0x616161))) (base 5)) =
        some (.raised (.unknownWord 3)) ∧
      stop (decodeSentence referenceScheme true .dec
        (aaaThen 3 (the :: List.replicate 7 (tok3 0x616161))) (base 5)) =
        some (.raised (.unknownWord 3)) := by decide +kernel

/-- F9: `abandoned` has no key and is not asked for, whatever the host does with misses. -/
theorem test_sentence_long :
    (match loadSentence referenceScheme true
        (aaaThen 6 (bytesOf 9 0x6162616E646F6E6564 :: List.replicate 5 (tok3 0x616161))) (base 5) with
      | .error e => some e
      | .ok _ => none) = some (.raised (.unknownWord 6)) := by decide +kernel

/-- The example of R182 as a sentence with a capital (F4), both ways; and a wrong checksum (V2). -/
theorem test_sentence_ways :
    let ent (r : Except HostStop State) := r.toOption.map fun s => (s.status, s.ent, s.nwords)
    let s := { base 5 with ent := 9 }
    ent (decodeSentence referenceScheme false .gete (aaaThen 11 [tok3 0x416164]) s) =
        some (0, 0, 12) ∧
      ent (decodeSentenceByIndices referenceScheme (aaaThen 11 [tok3 0x416164]) s) = some (0, 0, 0) ∧
      (ending (decodeSentenceByIndices referenceScheme (aaaThen 11 [tok3 0x616165]) s)).toOption =
        some 3 := by decide +kernel

/-- The transformation of R213: an `s` that forms a plural. -/
def unplural (w : List Byte) : Option (List Byte) :=
  if w.getLast? = some 0x73 then some w.dropLast else none

/-- A scheme with that plural and with the filler `the`. -/
def pluralScheme : Scheme where
  format := formatWords
  tokens := sentenceTokens
  strip := unplural
  fillers := [tok3 0x746865]

/-- R213, R216: `the` is discarded, `aabs` is entry 1, `aac` is entry 2. -/
theorem test_sentence_plural :
    (loadSentence pluralScheme false
      (formatWords [tok3 0x746865, bytesOf 4 0x61616273, tok3 0x616163]) (base 5)).toOption.map
        (fun s => (s.nwords, s.word[0], s.word[1], s.word[2])) =
      some (2, testKey 1, testKey 2, zeroKey) := by decide +kernel

/-! ## Witnesses: states and operands that meet every hypothesis of an obligation together -/

theorem exec_after (i : Instr) (s : State) : exec i s = .next (after i s) := by
  obtain ⟨t, h⟩ := exec_next i s
  simp [after, h]

theorem base_wl (n : Nat) : (base n).wl = testWords n := rfl

theorem withText_wl (s : State) (n v : Nat) : (withText s n v).wl = s.wl := by simp only [withText]

/-- The value of a result, if it is one. -/
def okOf {ε α : Type} : Except ε α → Option α
  | .ok a => some a
  | .error _ => none

/-- The error of a result, if it is one. -/
def errorOf {ε α : Type} : Except ε α → Option ε
  | .ok _ => none
  | .error e => some e

theorem eq_of_okOf {ε α : Type} {x : Except ε α} {a : α} (h : okOf x = some a) : x = .ok a := by
  cases x <;> simp_all [okOf]

theorem eq_of_errorOf {ε α : Type} {x : Except ε α} {e : ε} (h : errorOf x = some e) :
    x = .error e := by
  cases x <;> simp_all [errorOf]

/-- A state whose registers hold something. -/
def dirty : State :=
  { base 5 with
    ent := 9, chk := 9, nwords := 77, kidx := 99, cmd := 7, status := 0x10000, reply := some 3,
    bytes := Vector.replicate 16 0x67, text := Vector.replicate 64 0x67, textLen := 64 }

theorem witness_ResetPulseZeroesEveryRegister :
    ({ dirty with port := [.reset, rd .id] } : State).port = .reset :: [rd .id] := rfl

theorem witness_StepRunsTheDecodedCommand :
    ({ dirty with port := [.access (.write 0x008 4 0x11), rd .id] } : State).port =
      .access (.write 0x008 4 0x11) :: [rd .id] ∧ decode 0x11 = .ok .clr := ⟨rfl, rfl⟩

theorem witness_IllegalCommandWordIsReported :
    ∀ v ∈ ([0x00000012, 0x00000100, 0x000000FF, 0xFFFFFFFF] : List Word),
      ({ dirty with port := [wr .cmd v] } : State).port = wr .cmd v :: [] ∧
        (v.extractLsb' 8 24 ≠ 0 ∨ 0x11 < (v.extractLsb' 0 8).toNat) := by
  intro v hv
  refine ⟨rfl, ?_⟩
  simp only [List.mem_cons, List.not_mem_nil, or_false] at hv
  rcases hv with rfl | rfl | rfl | rfl <;> decide

theorem witness_CmdHoldsTheLastWordWritten :
    ({ dirty with port := [wr .cmd 0xFFFFFFFF] } : State).port = wr .cmd 0xFFFFFFFF :: [] ∧
      ({ dirty with port := [wr .cmd 0] } : State).port = wr .cmd 0 :: [] ∧ decode 0 = .ok .nop ∧
      ({ dirty with port := [rd .cmd] } : State).port = rd .cmd :: [] ∧
      exec .clr dirty = .next (after .clr dirty) :=
  ⟨rfl, rfl, rfl, rfl, rfl⟩

theorem witness_PortIsServedInOrder :
    ∃ t, ({ dirty with port := [rd .id, rd .cmd] } : State).port = rd .id :: [rd .cmd] ∧
      step { dirty with port := [rd .id, rd .cmd] } = .next t := ⟨_, rfl, rfl⟩

/-- The last word of the map; a state with a wordlist of 2048 entries. -/
theorem witness_ReadReturnsTheListedContents :
    ({ dirty with port := [rd (.word 11 1)] } : State).port = rd (.word 11 1) :: [] ∧
      (base 2048).wl.length = 2048 := by
  refine ⟨rfl, ?_⟩
  rw [base_wl]
  exact testWords_valid.size

/-- One state per narrow register, and 64 and 65 for `TEXT_LEN`. -/
theorem witness_NarrowRegistersTruncateOrClamp :
    ∀ e ∈ [wr .chk 0xFFFFFFFF, wr .nwords 0x10C, wr .kidx 0x800, wr (.idx 0) 0x7FF,
        wr (.idx 11) 0x800, wr .textLen 64, wr .textLen 65],
      ({ dirty with port := [e] } : State).port = e :: [] := fun _ _ => rfl

theorem witness_WriteThenReadOfAnyTwoWords :
    WindowReg.textLen ≠ .cmd ∧
      ({ dirty with port := [wr .textLen 65, rd .textLen] } : State).port =
        wr .textLen 65 :: rd .textLen :: [] ∧
      ({ dirty with port := [wr (.ent 0) 1, rd (.byt 0)] } : State).port =
        wr (.ent 0) 1 :: rd (.byt 0) :: [] := ⟨by decide, rfl, rfl⟩

/-- The last listed offset, a reserved one, a misaligned one and a byte access inside the window, and
the first offset outside. -/
theorem witness_OnlyListedWordAccessesGetAStep :
    ∀ a ∈ [Access.read 0x15C 4, .write 0x15C 4 7, .read 0x1FC 4, .read 0x1FE 4, .read 0x1FC 1,
        .write 0x200 4 7],
      ∃ off bytes v, (a = .read off bytes ∨ a = .write off bytes v) ∧
        ({ dirty with port := [.access a] } : State).port = .access a :: [] := by
  intro a ha
  fin_cases ha
  · exact ⟨_, _, 0, .inl rfl, rfl⟩
  · exact ⟨_, _, _, .inr rfl, rfl⟩
  · exact ⟨_, _, 0, .inl rfl, rfl⟩
  · exact ⟨_, _, 0, .inl rfl, rfl⟩
  · exact ⟨_, _, 0, .inl rfl, rfl⟩
  · exact ⟨_, _, _, .inr rfl, rfl⟩

/-- The reserved offset of that list is no word's offset. -/
theorem witness_OnlyListedWordAccessesGetAStep_reserved : ∀ r : WindowReg, 0x1FC ≠ r.offset := by
  intro r h
  have := (offset_of_ofOffset (off := 0x1FC) (r := r))
  rw [h] at this
  have h2 : WindowReg.ofOffset 0x1FC = some r := by rw [h]; exact ofOffset_offset r
  exact absurd h2 (by simp [WindowReg.ofOffset])

theorem witness_NopOnlyClearsStatus :
    ({ dirty with port := [wr .cmd 0, rd .status] } : State).port = wr .cmd 0 :: [rd .status] := rfl

theorem witness_ClrReachesResetStateButForCmd :
    ({ dirty with port := [wr .cmd 0x11, rd .id] } : State).port = wr .cmd 0x11 :: [rd .id] := rfl

theorem witness_EntropyAndBytesAreInverses :
    (exec .e2b dirty = .next (after .e2b dirty) ∧ readReg (.ent 3) dirty = 9 ∧
      exec .b2e (after .e2b dirty) = .next (after .b2e (after .e2b dirty))) ∧
    exec .b2e dirty = .next (after .b2e dirty) ∧
      exec .e2b (after .b2e dirty) = .next (after .e2b (after .b2e dirty)) :=
  ⟨⟨exec_after _ _, by decide, exec_after _ _⟩, exec_after _ _, exec_after _ _⟩

/-- The wrapper's block, and the first and last words of both clauses' ranges. -/
theorem witness_ScheduleObeysItsRecurrence :
    (messageBlock (Vector.replicate 16 0)).length = 16 ∧ 0 < 16 ∧ 15 < 16 ∧ 16 ≤ 16 ∧ 63 < 64 := by
  decide

theorem witness_PackAndUnpackAreInverses :
    (exec .pack dirty = .next (after .pack dirty) ∧
      exec .unpack (after .pack dirty) = .next (after .unpack (after .pack dirty))) ∧
    exec .unpack dirty = .next (after .unpack dirty) ∧
      exec .pack (after .unpack dirty) = .next (after .pack (after .unpack dirty)) :=
  ⟨⟨exec_after _ _, exec_after _ _⟩, exec_after _ _, exec_after _ _⟩

/-- Entropy 0 with checksum 3, then with 4 (vectors V1, V2). -/
theorem witness_VerifyComparesAndWritesNothing :
    cksum4 (toBytes ({ base 0 with chk := 3 } : State).ent) = ({ base 0 with chk := 3 } : State).chk ∧
      cksum4 (toBytes ({ base 0 with chk := 4 } : State).ent) ≠
        ({ base 0 with chk := 4 } : State).chk := by decide +kernel

/-- The largest table, a key with a capital, and its fold. -/
theorem witness_CamFindsTheLowestExactMatch :
    (testWords 2048).length ≤ 2048 ∧
      ∀ j : Fin 8, (testKey 2047)[j] =
        let k : WordKey := #v[0x44, 0x61, 0x74, 0, 0, 0, 0, 0]
        if 0x41 ≤ k[j].toNat ∧ k[j].toNat ≤ 0x5A then k[j] + 0x20 else k[j] :=
  ⟨by simp [testWords], by decide⟩

/-- Entry 0 and the last entry; then the first and the last slot out of range. -/
theorem witness_Idx2wReadsTheEntries :
    (∀ k : Fin 12, (testWords 30)[(indices [0, 29])[k].toNat]? = some (mnemonic [0, 29])[k]) ∧
      (testWords 30).length ≤ (indices [30])[(0 : Fin 12)].toNat ∧
      (testWords 30).length ≤ (indices [0, 0, 0, 0, 0, 0, 0, 0, 0, 0, 0, 2047])[(11 : Fin 12)].toNat ∧
      ∀ j : Fin 12, j < 11 →
        (indices [0, 0, 0, 0, 0, 0, 0, 0, 0, 0, 0, 2047])[j].toNat < (testWords 30).length := by
  decide +kernel

/-- A valid wordlist and an all-zero key, which is its own fold and not canonical. -/
theorem witness_W2idxCountsThenLooksUp_valid :
    Wordlist.valid (testWords 2048) ∧
      WordKey.canonical (Vector.ofFn fun j => lower zeroKey[j]) = false :=
  ⟨testWords_valid, by decide⟩

/-- A valid wordlist and the words of its first and last entry. -/
theorem witness_Idx2wReadsTheEntries_valid :
    Wordlist.valid (testWords 2048) ∧
      ∀ k : Fin 12, (testWords 2048)[(indices [0, 2047])[k].toNat]? = some (mnemonic [0, 2047])[k] :=
  ⟨testWords_valid, by decide +kernel⟩

/-- A count of 11 and of 13; a miss in the first and in the last slot; twelve hits. -/
theorem witness_W2idxCountsThenLooksUp :
    (11 : BitVec 8) ≠ 12 ∧ (13 : BitVec 8) ≠ 12 ∧
      cam (testWords 5) ((mnemonic []).set 0 zeroKey)[(0 : Fin 12)] = none ∧
      cam (testWords 5) ((mnemonic []).set 11 zeroKey)[(11 : Fin 12)] = none ∧
      (∀ j : Fin 12, j < 11 → cam (testWords 5) ((mnemonic []).set 11 zeroKey)[j] ≠ none) ∧
      ∀ k : Fin 12, cam (testWords 5) (mnemonic [4])[k] = some (indices [4])[k] := by
  decide +kernel

theorem witness_IndicesAndWordsAreInverses :
    Wordlist.valid (testWords 2048) ∧
      ∀ k : Fin 12, cam (testWords 2048) (mnemonic [3])[k] ≠ none :=
  ⟨testWords_valid, by decide +kernel⟩

/-- A hit on entry 0, a hit on the last entry, a miss. -/
theorem witness_LookupAnswersHitOrMiss :
    cam (testWords 5) (testKey 0) = some 0 ∧ cam (testWords 5) (testKey 4) = some 4 ∧
      cam (testWords 5) (testKey 5) = none := by decide +kernel

/-- The last entry of a table of 30, and the first index past it. -/
theorem witness_WordatReadsOneEntry :
    (testWords 30)[(29 : Index).toNat]? = some (testKey 29) ∧
      (testWords 30).length ≤ (30 : Index).toNat := by decide +kernel

/-- What PARSE and ENC read in a state with that text. -/
def parsed (n v : Nat) : Except Cause Entropy :=
  parseFn ((withText (base 4) n v).text.toList.take (withText (base 4) n v).textLen.toNat)

/-- One text for each row of R232's AddressFormat causes, at the ends of the range of its number: no
bytes; `::::`; nine groups and 32 (the most a text of 64 bytes holds); `:` and seven groups;
`g::` and seven groups before a `g`. -/
theorem parsed_errors :
    parsed 0 0 = .error .empty ∧ parsed 4 0x3A3A3A3A = .error .multiDColon ∧
      parsed 17 0x313A313A313A313A313A313A313A313A31 = .error (.tooManyGroups 9) ∧
      parsed 63 (0x313A * ((2 ^ 496 - 1) / (2 ^ 16 - 1)) * 2 ^ 8 + 0x31) =
        .error (.tooManyGroups 32) ∧
      parsed 1 0x3A = .error (.tooFewGroups 0) ∧
      parsed 13 0x313A313A313A313A313A313A31 = .error (.tooFewGroups 7) ∧
      parsed 3 0x673A3A = .error (.badGroup 0) ∧
      parsed 15 0x313A313A313A313A313A313A313A67 = .error (.badGroup 7) := by
  refine ⟨?_, ?_, ?_, ?_, ?_, ?_, ?_, ?_⟩ <;> exact eq_of_errorOf (by decide +kernel)

/-- `::1`; then every error of `parse_fn`, at both ends of its number's range. -/
theorem witness_ParseWritesEntropyOrReports :
    parsed 3 0x3A3A31 = .ok 1 ∧ parsed 0 0 = .error .empty ∧
      parsed 4 0x3A3A3A3A = .error .multiDColon ∧
      (∃ n v, parsed n v = .error (.tooManyGroups 9)) ∧
      (∃ n v, parsed n v = .error (.tooManyGroups 32)) ∧
      (∃ n v, parsed n v = .error (.tooFewGroups 0)) ∧
      (∃ n v, parsed n v = .error (.tooFewGroups 7)) ∧
      (∃ n v, parsed n v = .error (.badGroup 0)) ∧ ∃ n v, parsed n v = .error (.badGroup 7) := by
  obtain ⟨h1, h2, h3, h4, h5, h6, h7, h8⟩ := parsed_errors
  exact ⟨eq_of_okOf (by decide +kernel), h1, h2, ⟨_, _, h3⟩, ⟨_, _, h4⟩, ⟨_, _, h5⟩, ⟨_, _, h6⟩,
    ⟨_, _, h7⟩, _, _, h8⟩

/-- R100, R232: the group count saturates at 255. -/
theorem test_parse_groupCount :
    [32, 255, 256].map (fun n => (Cause.tooManyGroups n).info) = [32, 255, 255] := by decide

/-- T32: the byte at `TEXT_LEN` differs, those below do not. -/
theorem witness_BytesPastTextLenAreIgnored :
    let s := withText (base 24) 3 0x3A3A31
    let text := s.text.set 3 0x67
    (∀ k : Fin 64, k.val < s.textLen.toNat → text[k] = s.text[k]) ∧ text[3] ≠ s.text[3] ∧
      exec .parse s = .next (after .parse s) ∧
      exec .parse { s with text := text } = .next (after .parse { s with text := text }) ∧
      exec .enc s = .next (after .enc s) ∧
      exec .enc { s with text := text } = .next (after .enc { s with text := text }) :=
  ⟨by decide +kernel, by decide +kernel, exec_after _ _, exec_after _ _, exec_after _ _,
    exec_after _ _⟩

/-- The first and last byte of each class and their neighbours; both ends of the trimmed text exist
(T4), and T16 has none. -/
theorem witness_TrimAndTheEmptyText :
    [0x08, 0x09, 0x0D, 0x0E, 0x1F, 0x20, 0x21].map charClass =
        [.other, .ws, .ws, .other, .other, .ws, .other] ∧
      [0x2F, 0x30, 0x39, 0x3A, 0x3B].map charClass = [.other, .digit, .digit, .colon, .other] ∧
      [0x40, 0x41, 0x46, 0x47, 0x60, 0x61, 0x66, 0x67].map charClass =
        [.other, .hexUc, .hexUc, .other, .other, .hexLc, .hexLc, .other] ∧
      (trim (bytesOf 10 0x2020464538303A3A310A)).head? = some 0x46 ∧
      (trim (bytesOf 10 0x2020464538303A3A310A)).getLast? = some 0x31 ∧
      (∀ x ∈ bytesOf 3 0x202020, charClass x = .ws) := by decide +kernel

/-- T18: `::::` holds two, T14: `:::` does not parse as two (rule R102). -/
theorem witness_CaseIsFoldedAndTwoDoubleColonsFail :
    parseFn [0x3A, 0x3A, 0x3A, 0x3A] = .error .multiDColon ∧ parseFn [0x3A, 0x3A, 0x3A] = .ok 0 :=
  ⟨eq_of_errorOf (by decide +kernel), eq_of_okOf (by decide +kernel)⟩

/-- The 43 bytes of rule R269, and one colon more. -/
theorem witness_AcceptedTextIsAtMost43Bytes :
    let s := bytesOf 43
      0x3A313131313A323232323A333333333A343434343A3A3A353535353A363636363A373737373A383838383A
    parseFn s = .ok 0x11112222333344445555666677778888 ∧ (trim s).length = 43 ∧
      parseFn (s ++ [0x3A]) = .error .multiDColon :=
  ⟨eq_of_okOf (by decide +kernel), by decide +kernel, eq_of_errorOf (by decide +kernel)⟩

theorem witness_AcceptedTextIsHexAndColons :
    parseFn (bytesOf 10 0x2020464538303A3A310A) = .ok 0xFE800000000000000000000000000001 :=
  eq_of_okOf (by decide +kernel)

/-- Nine groups; seven, and none, without `::`; eight without `::`, eight with it (T10) and none with it.
A group of five digits in place 0, and a `g` in place 7 after seven that fit. -/
theorem witness_GroupsAreCountedCheckedAndFolded :
    (8 < (List.replicate 9 ([0x31] : List Byte)).length + ([] : List (List Byte)).length) ∧
      (List.replicate 7 ([0x31] : List Byte)).length + ([] : List (List Byte)).length < 8 ∧
      (List.replicate 8 ([0x31] : List Byte)).length + ([] : List (List Byte)).length = 8 ∧
      ([] : List (List Byte)).length + ([] : List (List Byte)).length < 8 ∧
      ¬ (List.replicate 5 (0x31 : Byte)).length ≤ 4 ∧
      (∀ b ∈ ([0x66, 0x30] : List Byte), charClass b = .digit ∨ charClass b = .hexLc) ∧
      ¬ (charClass 0x67 = .digit ∨ charClass 0x67 = .hexLc) ∧
      assembleGroups true (List.replicate 8 [0x31]) [] = .ok 0x00010001000100010001000100010001 ∧
      assembleGroups false (List.replicate 7 [0x31]) [[0x67]] = .error (.badGroup 7) :=
  ⟨by decide, by decide, by decide, by decide, by decide, by decide, by decide,
    eq_of_okOf (by decide +kernel), eq_of_errorOf (by decide +kernel)⟩

/-- The cuts of a text: ` 1:A::b: ` is `1:a` and `b:`, with two tokens and one; `:1` has no `::` and one
token; a side that is empty has none; and in `:::` the leftmost `::` leaves `:` on the right. -/
theorem witness_GroupsAreCountedCheckedAndFolded_cut :
    (trim (bytesOf 9 0x20313A413A3A623A20)).map lower =
        [0x31, 0x3A, 0x61] ++ [0x3A, 0x3A] ++ [0x62, 0x3A] ∧
      ¬ [0x3A, 0x3A] <:+: ([0x31, 0x3A, 0x61] ++ [0x3A] : List Byte) ∧
      ¬ [0x3A, 0x3A] <:+: ([0x62, 0x3A] : List Byte) ∧
      ([0x31, 0x3A, 0x61] : List Byte) = [0x3A].intercalate [[0x31], [0x61]] ∧
      ([0x62, 0x3A] : List Byte) = [0x3A].intercalate [[0x62], []] ∧
      ([[0x62], []] : List (List Byte)).filter (fun p => !p.isEmpty) = [[0x62]] ∧
      (∀ p ∈ ([[0x31], [0x61], [0x62], []] : List (List Byte)), (0x3A : Byte) ∉ p) ∧
      parseFn (bytesOf 9 0x20313A413A3A623A20) = .ok 0x0001000A00000000000000000000000B ∧
      trim [0x3A, 0x31] ≠ [] ∧
      ¬ [0x3A, 0x3A] <:+: ((trim [0x3A, 0x31]).map lower) ∧
      (trim [0x3A, 0x31]).map lower = [0x3A].intercalate [[], [0x31]] ∧
      ([] : List Byte) = [0x3A].intercalate [[]] ∧
      ([0x3A, 0x3A, 0x3A] : List Byte) = [] ++ [0x3A, 0x3A] ++ [0x3A] ∧
      ¬ [0x3A, 0x3A] <:+: ([] ++ [0x3A] : List Byte) ∧ ¬ [0x3A, 0x3A] <:+: ([0x3A] : List Byte) :=
  ⟨by decide +kernel, by decide, by decide, by decide, by decide, by decide, by decide,
    eq_of_okOf (by decide +kernel), by decide, by decide, by decide, by decide, by decide, by decide,
    by decide⟩

/-- The hypothesis of the cut as the statement words it: no `::` in `1:a:`, nor in `b:`. -/
theorem witness_GroupsAreCountedCheckedAndFolded_single :
    (¬ ∃ a b, ([0x31, 0x3A, 0x61] ++ [0x3A] : List Byte) = a ++ [0x3A, 0x3A] ++ b) ∧
      ¬ ∃ a b, ([0x62, 0x3A] : List Byte) = a ++ [0x3A, 0x3A] ++ b := by
  have h := witness_GroupsAreCountedCheckedAndFolded_cut
  exact ⟨fun ⟨a, b, e⟩ => h.2.1 ⟨a, b, e.symm⟩, fun ⟨a, b, e⟩ => h.2.2.1 ⟨a, b, e.symm⟩⟩

/-- The last clause of R110's statement: `::1` parses. -/
theorem witness_ParseOfRenderIsTheValue :
    parseFn ((withText dirty 3 0x3A3A31).text.toList.take
      (withText dirty 3 0x3A3A31).textLen.toNat) = .ok 1 := eq_of_okOf (by decide +kernel)

/-- Group 0 zero, and group 7 one digit (vector N2). -/
theorem witness_RenderedTextIsExpandedForm :
    (hexMin 0).head? = some 0x30 ∧ hexMin 0 = [0x30] ∧ hexMin 1 = [0x31] ∧
      hexMin 0xFFFF = [0x66, 0x66, 0x66, 0x66] := by decide +kernel

/-- G1's indices, found in a table of four; missing from a table of three, in the last slot. -/
theorem witness_GenwWritesTheMnemonic :
    let v := indices [0, 0, 0, 0, 0, 0, 0, 0, 0, 0, 0, 3]
    let s := base 4
    (∀ k : Fin 12, v[k] = (s.ent ++ cksum4 (toBytes s.ent)).extractLsb' (121 - 11 * k) 11) ∧
      (∀ k : Fin 12, s.wl[v[k].toNat]? =
        some (mnemonic [0, 0, 0, 0, 0, 0, 0, 0, 0, 0, 0, 3])[k]) ∧
      (base 3).wl.length ≤ v[(11 : Fin 12)].toNat ∧
      (∀ j : Fin 12, j < 11 → v[j].toNat < (base 3).wl.length) ∧
      (base 0).wl.length ≤ v[(0 : Fin 12)].toNat := by decide +kernel

/-- The sources of GETE in its three clauses: a count of 13; a first slot that misses; twelve hits whose
indices hold entropy 0 with checksum 3, which is its own, and with 4, which is not. -/
theorem witness_GeteReadsTheMnemonic :
    (13 : BitVec 8) ≠ 12 ∧ cam (testWords 5) zeroKey = none ∧
      (∀ k : Fin 12, cam (testWords 5) (mnemonic [0, 0, 0, 0, 0, 0, 0, 0, 0, 0, 0, 3])[k] =
        some (indices [0, 0, 0, 0, 0, 0, 0, 0, 0, 0, 0, 3])[k]) ∧
      (∀ k : Fin 12, (indices [0, 0, 0, 0, 0, 0, 0, 0, 0, 0, 0, 3])[k] =
        ((0 : Entropy) ++ (3 : Checksum)).extractLsb' (121 - 11 * k) 11) ∧
      cksum4 (toBytes 0) = 3 ∧
      (∀ k : Fin 12, cam (testWords 5) (mnemonic [0, 0, 0, 0, 0, 0, 0, 0, 0, 0, 0, 4])[k] =
        some (indices [0, 0, 0, 0, 0, 0, 0, 0, 0, 0, 0, 4])[k]) ∧
      (∀ k : Fin 12, (indices [0, 0, 0, 0, 0, 0, 0, 0, 0, 0, 0, 4])[k] =
        ((0 : Entropy) ++ (4 : Checksum)).extractLsb' (121 - 11 * k) 11) ∧
      cksum4 (toBytes 0) ≠ 4 := by decide +kernel

/-- DEC has GETE's sources and hypotheses. -/
theorem witness_DecDecodesThenRenders :
    (11 : BitVec 8) ≠ 12 ∧
      cam (testWords 5) ((mnemonic []).set 11 zeroKey)[(11 : Fin 12)] = none ∧
      (∀ j : Fin 12, j < 11 → cam (testWords 5) ((mnemonic []).set 11 zeroKey)[j] ≠ none) ∧
      (∀ k : Fin 12, cam (testWords 5) (mnemonic [0, 0, 0, 0, 0, 0, 0, 0, 0, 0, 0, 3])[k] =
        some (indices [0, 0, 0, 0, 0, 0, 0, 0, 0, 0, 0, 3])[k]) ∧
      (∀ k : Fin 12, (indices [0, 0, 0, 0, 0, 0, 0, 0, 0, 0, 0, 3])[k] =
        ((0 : Entropy) ++ (3 : Checksum)).extractLsb' (121 - 11 * k) 11) ∧
      cksum4 (toBytes 0) = 3 := by decide +kernel

/-- ENC: the texts of `parsed_errors`, each with its error; `::` with the table of four of G1, and with a table of three. -/
theorem witness_EncParsesThenEncodes :
    let s := withText (base 4) 2 0x3A3A
    let v := indices [0, 0, 0, 0, 0, 0, 0, 0, 0, 0, 0, 3]
    parsed 0 0 = .error .empty ∧ parsed 4 0x3A3A3A3A = .error .multiDColon ∧
      (∃ n v, parsed n v = .error (.tooManyGroups 9)) ∧
      (∃ n v, parsed n v = .error (.tooManyGroups 32)) ∧
      (∃ n v, parsed n v = .error (.tooFewGroups 0)) ∧
      (∃ n v, parsed n v = .error (.tooFewGroups 7)) ∧
      (∃ n v, parsed n v = .error (.badGroup 0)) ∧ (∃ n v, parsed n v = .error (.badGroup 7)) ∧
      parseFn (s.text.toList.take s.textLen.toNat) = .ok 0 ∧
      (∀ k : Fin 12, v[k] =
        ((0 : Entropy) ++ cksum4 (toBytes 0)).extractLsb' (121 - 11 * k) 11) ∧
      (∀ k : Fin 12, s.wl[v[k].toNat]? =
        some (mnemonic [0, 0, 0, 0, 0, 0, 0, 0, 0, 0, 0, 3])[k]) ∧
      (base 3).wl.length ≤ v[(11 : Fin 12)].toNat ∧
      ∀ j : Fin 12, j < 11 → v[j].toNat < (base 3).wl.length := by
  obtain ⟨h1, h2, h3, h4, h5, h6, h7, h8⟩ := parsed_errors
  exact ⟨h1, h2, ⟨_, _, h3⟩, ⟨_, _, h4⟩, ⟨_, _, h5⟩, ⟨_, _, h6⟩, ⟨_, _, h7⟩, ⟨_, _, h8⟩,
    eq_of_okOf (by decide +kernel), by decide +kernel, by decide +kernel, by decide +kernel,
    by decide +kernel⟩

/-- The states of each composite's steps exist, and a first step fails and succeeds. -/
theorem witness_CompositeIsItsStepsInOrder :
    (∀ (i : Instr) (s : State), exec i s = .next (after i s)) ∧
      statusErr (after .w2idx (base 5)).status ≠ 0 ∧
      statusErr (after .w2idx { base 5 with word := mnemonic [], nwords := 12 }).status = 0 ∧
      statusErr (after .parse (base 5)).status ≠ 0 ∧
      statusErr (after .parse (withText (base 5) 2 0x3A3A)).status = 0 ∧
      statusErr (after .gete (base 5)).status ≠ 0 ∧
      statusErr (after .gete
        { base 5 with
          word := mnemonic [0, 0, 0, 0, 0, 0, 0, 0, 0, 0, 0, 3], nwords := 12 }).status = 0 :=
  ⟨exec_after, by decide +kernel, by decide +kernel, by decide +kernel, by decide +kernel,
    by decide +kernel, by decide +kernel⟩

theorem witness_SentenceRoundTrip :
    Wordlist.valid (withText (base 2048) 3 0x3A3A31).wl ∧
      parseFn ((withText (base 2048) 3 0x3A3A31).text.toList.take
        (withText (base 2048) 3 0x3A3A31).textLen.toNat) = .ok 1 := by
  rw [withText_wl, base_wl]
  exact ⟨testWords_valid, eq_of_okOf (by decide +kernel)⟩

/-- One error of each kind a command can report. -/
theorem witness_ErrorsZeroTheDestinations :
    (exec .enc dirty = .next (after .enc dirty) ∧ statusErr (after .enc dirty).status = 1) ∧
      (exec .dec dirty = .next (after .dec dirty) ∧ statusErr (after .dec dirty).status = 2) ∧
      (exec .verify dirty = .next (after .verify dirty) ∧
        statusErr (after .verify dirty).status = 3) ∧
      (exec .wordat dirty = .next (after .wordat dirty) ∧
        statusErr (after .wordat dirty).status = 4) :=
  ⟨⟨exec_after _ _, by decide +kernel⟩, ⟨exec_after _ _, by decide +kernel⟩,
    ⟨exec_after _ _, by decide +kernel⟩, exec_after _ _, by decide +kernel⟩

/-- An illegal word at the port. -/
theorem witness_ErrorsZeroTheDestinations_illegal :
    ({ dirty with port := [wr .cmd 0x12] } : State).port = wr .cmd 0x12 :: [] ∧
      decode 0x12 = .error .unknownOpcode ∧
      ∃ t, step { dirty with port := [wr .cmd 0x12] } = .next t := ⟨rfl, rfl, _, rfl⟩

/-- Two states with one entropy and one wordlist, and nothing else in common. -/
theorem witness_CommandsDependOnTheirSourcesOnly :
    (∀ r ∈ sources .genw, sameReg (base 5) { dirty with ent := 0 } r) ∧
      (base 5).wl = ({ dirty with ent := 0 } : State).wl ∧ (base 5).status ≠ dirty.status ∧
      exec .genw (base 5) = .next (after .genw (base 5)) ∧
      exec .genw { dirty with ent := 0 } = .next (after .genw { dirty with ent := 0 }) :=
  ⟨by simp [sources, sameReg, base, State.reset], rfl, by decide, exec_after _ _, exec_after _ _⟩

theorem witness_RetryFailsIdentically :
    exec .dec dirty = .next (after .dec dirty) ∧ statusErr (after .dec dirty).status ≠ 0 ∧
      (∀ r ∈ sources .dec, sameReg dirty { dirty with ent := 0, status := 0 } r) ∧
      dirty.wl = ({ dirty with ent := 0, status := 0 } : State).wl :=
  ⟨exec_after _ _, by decide +kernel, by simp [sources, sameReg], rfl⟩

/-- A hit, and the key it needs. -/
theorem witness_OnlyLookupSetsHit :
    exec .lookup { dirty with key := testKey 4 } = .next (after .lookup { dirty with key := testKey 4 }) ∧
      cam ({ dirty with key := testKey 4 } : State).wl (testKey 4) ≠ none :=
  ⟨exec_after _ _, by decide +kernel⟩

theorem witness_InternalInvariantIsUnreachable :
    (base 2048).wl.length = 2048 ∧ exec .idx2w (base 2048) = .next (after .idx2w (base 2048)) := by
  rw [base_wl]
  exact ⟨testWords_valid.size, exec_after _ _⟩

theorem witness_NoStepWritesTheWordlist :
    ∃ t, step { dirty with port := [wr .cmd 0x11] } = .next t := ⟨_, rfl⟩

/-- A state that meets the invariant, about to store 65 in `TEXT_LEN`. -/
theorem witness_StepKeepsTheInvariant :
    ({ dirty with port := [wr .textLen 65] } : State).Inv ∧
      ∃ t, step { dirty with port := [wr .textLen 65] } = .next t :=
  ⟨⟨by decide, .inl (by decide)⟩, _, rfl⟩

/-- `aaa` loads entry 0, as a token of its own and as often as it stands. -/
theorem aaa_loads (n : Nat) :
    List.Forall₂ (referenceScheme.loads false (testWords 5)) (List.replicate n (tok3 0x616161))
      (List.replicate n (testKey 0)) := by
  have h : referenceScheme.loads false (testWords 5) (tok3 0x616161) (testKey 0) :=
    .inl (.inl ⟨by decide +kernel, by decide +kernel⟩)
  induction n with
  | zero => exact .nil
  | succ n ih => exact .cons h ih

theorem aaa_loadsAll (n : Nat) :
    referenceScheme.loadsAll false (testWords 5) (List.replicate n (tok3 0x616161))
      (List.replicate n (testKey 0)) := by
  have := aaa_loads n
  simpa [Scheme.loadsAll, Scheme.candidates, referenceScheme] using this

/-- `n` times `aaa`, then `the`, which misses. -/
def aaaTokens (n : Nat) : List (List Byte) := List.replicate n (tok3 0x616161) ++ [tok3 0x746865]

/-- `the` is no word of the short table. -/
theorem the_misses : referenceScheme.misses (base 5).wl (tok3 0x746865) := by
  refine ⟨fun k hk => ?_, nofun⟩
  have h : keyOf (tok3 0x746865) = some #v[0x74, 0x68, 0x65, 0, 0, 0, 0, 0] := by decide +kernel
  rw [h] at hk; injection hk with hk; subst hk
  decide +kernel

/-- The empty text and a full buffer; one byte more has no program. Then runs over a sentence: of no words,
of 13 and of 255, the most that can be counted; a plural behind a filler; a miss behind 13 words, as a
scheme without and with a transformation sees it, one that is loaded, and the numbers of candidates
where it is (12) and is not (13); a token without a key; and a 256th word. -/
theorem witness_LoadSequencesLoadWholeOperands :
    (∃ p, ldText [] = some p) ∧ (∃ p, ldText (List.replicate 64 0x31) = some p) ∧
      ldText (List.replicate 65 0x31) = none ∧
      (∀ n, n ∈ [0, 13, 255] → (List.replicate n (testKey 0)).length ≤ 255 ∧
        referenceScheme.loadsAll false (base 5).wl (List.replicate n (tok3 0x616161))
          (List.replicate n (testKey 0))) ∧
      pluralScheme.loadsAll false (base 5).wl [tok3 0x746865, bytesOf 4 0x61616273] [testKey 1] ∧
      sentenceTokens (aaaThen 13 [tok3 0x746865]) =
        List.replicate 13 (tok3 0x616161) ++ tok3 0x746865 :: [] ∧
      tok3 0x746865 ∉ referenceScheme.fillers ∧
      referenceScheme.misses (base 5).wl (tok3 0x746865) ∧
      pluralScheme.misses (base 5).wl (bytesOf 4 0x74686573) ∧
      (referenceScheme.candidates (aaaTokens 11)).length = 12 ∧
      (referenceScheme.candidates (aaaTokens 12)).length = 13 ∧
      referenceScheme.loads true (base 5).wl (tok3 0x746865) #v[0x74, 0x68, 0x65, 0, 0, 0, 0, 0] ∧
      referenceScheme.misses (base 5).wl (bytesOf 9 0x6162616E646F6E6564) ∧
      keyOf (bytesOf 9 0x6162616E646F6E6564) = none ∧
      (List.replicate 255 (testKey 0)).length = 255 ∧
      ∃ key, referenceScheme.loads false (base 5).wl (tok3 0x616161) key := by
  have miss := the_misses
  have h4 : keyOf (bytesOf 4 0x74686573) = some #v[0x74, 0x68, 0x65, 0x73, 0, 0, 0, 0] := by
    decide +kernel
  have h3 : keyOf (tok3 0x746865) = some #v[0x74, 0x68, 0x65, 0, 0, 0, 0, 0] := by decide +kernel
  have hs : unplural (bytesOf 4 0x74686573) = some (tok3 0x746865) := by decide +kernel
  have h9 : keyOf (bytesOf 9 0x6162616E646F6E6564) = none := by decide +kernel
  refine ⟨⟨_, rfl⟩, ⟨_, rfl⟩, rfl, fun n hn => ⟨?_, aaa_loadsAll n⟩, ?_, by decide +kernel, by decide,
    miss, ⟨fun k hk => ?_, fun w hw k hk => ?_⟩, by decide +kernel, by decide +kernel,
    .inr ⟨rfl, miss, h3⟩, ⟨?_, nofun⟩, h9, List.length_replicate, _,
    .inl (.inl ⟨(by decide +kernel : keyOf (tok3 0x616161) = some (testKey 0)), by decide +kernel⟩)⟩
  · rw [List.length_replicate]; fin_cases hn <;> decide
  · have hf : pluralScheme.candidates [tok3 0x746865, bytesOf 4 0x61616273] =
        [bytesOf 4 0x61616273] := by decide +kernel
    rw [Scheme.loadsAll, hf]
    refine .cons (.inl (.inr ⟨fun k hk => ?_, tok3 0x616162, ?_, ?_, ?_⟩)) .nil
    · have h : keyOf (bytesOf 4 0x61616273) = some #v[0x61, 0x61, 0x62, 0x73, 0, 0, 0, 0] := by
        decide +kernel
      rw [h] at hk; injection hk with hk; subst hk
      decide +kernel
    · exact (by decide +kernel : unplural (bytesOf 4 0x61616273) = some (tok3 0x616162))
    · decide +kernel
    · decide +kernel
  · rw [h4] at hk; injection hk with hk; subst hk
    decide +kernel
  · have hw' : unplural (bytesOf 4 0x74686573) = some w := hw
    rw [hs] at hw'; injection hw' with hw'; subst hw'
    rw [h3] at hk; injection hk with hk; subst hk
    decide +kernel
  · intro k hk; rw [h9] at hk; cases hk

/-- Eleven times the first word and once the last: three letters each, spelled by entries 0 and 2047. Bytes
of class `WS` and not; the counts 11, 12 and 13 behind a run; a miss behind no word, in the last slot of
twelve candidates, and past it. -/
theorem witness_UnformatUndoesFormat :
    let w := List.replicate 11 ([0x61, 0x61, 0x61] : List Byte) ++ [[0x64, 0x61, 0x74]]
    let spelled (x : List Byte) (k : WordKey) : Prop :=
      k ∈ testWords 2048 ∧ 1 ≤ x.length ∧ x.length ≤ 8 ∧ (0 : Byte) ∉ x ∧
        ∀ j : Fin 8, k[j] = x.getD j 0
    Wordlist.valid (testWords 2048) ∧ w.length = 12 ∧ (∀ x ∈ w, ∃ k, spelled x k) ∧
      (∀ n, List.Forall₂ spelled (List.replicate n [0x61, 0x61, 0x61])
        (List.replicate n (testKey 0))) ∧
      charClass 0x0A = .ws ∧ charClass 0x61 ≠ .ws ∧
      (∀ n, n ∈ [11, 12, 13] → (List.replicate n (testKey 0)).length = n ∧
        referenceScheme.loadsAll false (base 5).wl (List.replicate n (tok3 0x616161))
          (List.replicate n (testKey 0))) ∧
      (∀ n ∈ [0, 11, 12], sentenceTokens (aaaThen n [tok3 0x746865]) =
        List.replicate n (tok3 0x616161) ++ tok3 0x746865 :: []) ∧
      tok3 0x746865 ∉ referenceScheme.fillers ∧
      referenceScheme.misses (base 5).wl (tok3 0x746865) := by
  intro w spelled
  have h0 : spelled [0x61, 0x61, 0x61] (testKey 0) :=
    ⟨List.mem_map.2 ⟨0, by simp, rfl⟩, by decide, by decide, by decide, by decide⟩
  refine ⟨testWords_valid, by decide, fun x hx => ?_, fun n => ?_, by decide, by decide,
    fun n _ => ⟨List.length_replicate, aaa_loadsAll n⟩, by decide +kernel, by decide, the_misses⟩
  · rcases List.mem_append.1 hx with hx | hx
    · rw [(List.mem_replicate.1 hx).2]
      exact ⟨_, h0⟩
    · rw [List.mem_singleton.1 hx]
      exact ⟨testKey 2047, List.mem_map.2 ⟨2047, by simp, rfl⟩, by decide, by decide, by decide,
        by decide⟩
  · induction n with
    | zero => exact .nil
    | succ n ih => exact .cons h0 ih

end Sys2Proof.Tests
end

/-! ## The scope of a command (rules R8, R9): where it writes, and what its values depend on -/

namespace Sys2Proof.Machine

/-! ### Registers of two states that agree -/

theorem sameReg_symm {s t : State} {r : DataReg} (h : sameReg s t r) : sameReg t s r := by
  cases r <;> exact Eq.symm h

/-- Zero is one value. -/
theorem sameReg_of_regIsZero {s t : State} {r : DataReg} (hs : regIsZero s r)
    (ht : regIsZero t r) : sameReg s t r := by
  cases r with
  | ent | chk | nwords | kidx | textLen => exact Eq.trans ht (Eq.symm hs)
  | bytes | idx | key | text => exact Vector.ext fun i hi => (ht ⟨i, hi⟩).trans (hs ⟨i, hi⟩).symm
  | word =>
    exact Vector.ext fun k hk => Vector.ext fun j hj =>
      (ht ⟨k, hk⟩ ⟨j, hj⟩).trans (hs ⟨k, hk⟩ ⟨j, hj⟩).symm

/-- Registers that are zeroed in both states agree, whatever they held. -/
theorem sameReg_zeroRegs_both {ds : List DataReg} (s s' : State) :
    ∀ r ∈ ds, sameReg (zeroRegs ds s) (zeroRegs ds s') r :=
  fun _ hr => sameReg_of_regIsZero (zeroRegs_regIsZero s hr) (zeroRegs_regIsZero s' hr)

theorem sameReg_setStatus_both (s t : State) (v w : StatusBits) (r : DataReg) :
    sameReg (s.setStatus v) (t.setStatus w) r ↔ sameReg s t r := by cases r <;> rfl

/-- The two states hold the same values in the registers of `rs`, and the same wordlist: all that a
command with the sources `rs` may look at (rule R8). -/
structure AgreeOn (rs : List DataReg) (s s' : State) : Prop where
  same : ∀ r ∈ rs, sameReg s s' r
  wl : s'.wl = s.wl

theorem AgreeOn.mono {rs qs : List DataReg} {s s' : State} (h : AgreeOn rs s s') (hq : qs ⊆ rs) :
    AgreeOn qs s s' :=
  ⟨fun r hr => h.same r (hq hr), h.wl⟩

/-- Where two runs wrote the registers of `ds` only, and alike, the registers that agreed before
agree still. -/
theorem AgreeOn.of_wroteOnly {ds rs : List DataReg} {s s' t t' : State} (h : AgreeOn rs s s')
    (w : WroteOnly ds s t) (w' : WroteOnly ds s' t') (hd : ∀ r ∈ ds, sameReg t t' r) :
    AgreeOn (ds ++ rs) t t' := by
  obtain ⟨-, hwl, -⟩ := w.outside
  obtain ⟨-, hwl', -⟩ := w'.outside
  refine ⟨fun r hr => ?_, hwl'.trans (h.wl.trans hwl.symm)⟩
  by_cases hrd : r ∈ ds
  · exact hd r hrd
  · have hrs : r ∈ rs := (List.mem_append.1 hr).resolve_left hrd
    exact sameReg_trans (sameReg_symm (w.same r hrd))
      (sameReg_trans (h.same r hrs) (w'.same r hrd))

theorem AgreeOn.cons {d : DataReg} {rs : List DataReg} {s s' t t' : State} (h : AgreeOn rs s s')
    (w : WroteOnly [d] s t) (w' : WroteOnly [d] s' t') (hd : sameReg t t' d) :
    AgreeOn (d :: rs) t t' :=
  h.of_wroteOnly w w' (List.forall_mem_singleton.2 hd)

/-! ### One value written to both states

The value is a variable in each lemma: with a checksum written out in its place the kernel would
unfold the hash to compare the two states. -/

section
variable {rs : List DataReg} {s s' : State}

theorem AgreeOn.setEnt (h : AgreeOn rs s s') (v : Entropy) :
    AgreeOn (.ent :: rs) (s.setEnt v) (s'.setEnt v) :=
  h.cons (.setEnt s v) (.setEnt s' v) rfl

theorem AgreeOn.setBytes (h : AgreeOn rs s s') (v : EntropyBytes) :
    AgreeOn (.bytes :: rs) (s.setBytes v) (s'.setBytes v) :=
  h.cons (.setBytes s v) (.setBytes s' v) rfl

theorem AgreeOn.setChk (h : AgreeOn rs s s') (v : Checksum) :
    AgreeOn (.chk :: rs) (s.setChk v) (s'.setChk v) :=
  h.cons (.setChk s v) (.setChk s' v) rfl

theorem AgreeOn.setIdx (h : AgreeOn rs s s') (v : Vector Index 12) :
    AgreeOn (.idx :: rs) (s.setIdx v) (s'.setIdx v) :=
  h.cons (.setIdx s v) (.setIdx s' v) rfl

theorem AgreeOn.setKey (h : AgreeOn rs s s') (v : WordKey) :
    AgreeOn (.key :: rs) (s.setKey v) (s'.setKey v) :=
  h.cons (.setKey s v) (.setKey s' v) rfl

theorem AgreeOn.setWord (h : AgreeOn rs s s') (v : Vector WordKey 12) :
    AgreeOn (.word :: rs) (s.setWord v) (s'.setWord v) :=
  h.cons (.setWord s v) (.setWord s' v) rfl

theorem AgreeOn.setText (h : AgreeOn rs s s') (v : Vector Byte 64) :
    AgreeOn (.text :: rs) (s.setText v) (s'.setText v) :=
  h.cons (.setText s v) (.setText s' v) rfl

theorem AgreeOn.setTextLen (h : AgreeOn rs s s') (v : BitVec 7) :
    AgreeOn (.textLen :: rs) (s.setTextLen v) (s'.setTextLen v) :=
  h.cons (.setTextLen s v) (.setTextLen s' v) rfl

end

/-! ### Steps determined by the registers they read -/

/-- Two runs of a command's steps end alike: both complete, in states that agree on `rs`, or both
stop at the same error. -/
inductive EndAlike (rs : List DataReg) : Except Cause State → Except Cause State → Prop where
  | ok {t t' : State} (h : AgreeOn rs t t') : EndAlike rs (.ok t) (.ok t')
  | error (c : Cause) : EndAlike rs (.error c) (.error c)

theorem EndAlike.mono {rs qs : List DataReg} {x x' : Except Cause State} (h : EndAlike rs x x')
    (hq : qs ⊆ rs) : EndAlike qs x x' := by
  cases h with
  | ok h => exact .ok (h.mono hq)
  | error c => exact .error c

theorem EndAlike.bind {rs qs : List DataReg} {x x' : Except Cause State}
    {g : State → Except Cause State} (h : EndAlike rs x x')
    (hg : ∀ t t', AgreeOn rs t t' → EndAlike qs (g t) (g t')) :
    EndAlike qs (x >>= g) (x' >>= g) := by
  cases h with
  | ok h => exact hg _ _ h
  | error c => exact .error c

/-- The steps read the registers of `srcs` only, and write the same values to `dsts` wherever those
and the wordlist are the same; whatever else agreed before agrees afterwards too, so that the next
steps may read it. -/
def DeterminedBy (srcs dsts : List DataReg) (f : State → Except Cause State) : Prop :=
  ∀ (rs : List DataReg) (s s' : State), srcs ⊆ rs → AgreeOn rs s s' →
    EndAlike (dsts ++ rs) (f s) (f s')

theorem DeterminedBy.mono {a b d : List DataReg} {f : State → Except Cause State}
    (h : DeterminedBy a b f) (hd : d ⊆ b) : DeterminedBy a d f :=
  fun rs s s' hr hs => (h rs s s' hr hs).mono (List.append_subset.2
    ⟨List.subset_append_of_subset_left _ hd, List.subset_append_right _ _⟩)

/-- Steps that read only what the steps before them read or wrote are determined by the sources of
those. -/
theorem DeterminedBy.bind {a b c d : List DataReg} {f g : State → Except Cause State}
    (hf : DeterminedBy a b f) (hg : DeterminedBy c d g) (hc : c ⊆ b ++ a) :
    DeterminedBy a (d ++ b) fun s => f s >>= g := by
  intro rs s s' hr hs
  have hcr : c ⊆ b ++ rs := List.Subset.trans hc (List.append_subset.2
    ⟨List.subset_append_left _ _, List.subset_append_of_subset_right _ hr⟩)
  rw [List.append_assoc]
  exact (hf rs s s' hr hs).bind fun t t' ht => hg (b ++ rs) t t' hcr ht

/-! ### Each command's steps -/

theorem parseStep_determinedBy : DeterminedBy [.text, .textLen] [.ent] parseStep := by
  intro rs s s' hr h
  have ht : s'.text = s.text := h.same .text (hr (by simp))
  have hl : s'.textLen = s.textLen := h.same .textLen (hr (by simp))
  have htext : s'.textString = s.textString := by rw [State.textString, State.textString, ht, hl]
  unfold parseStep
  rw [htext]
  cases parseFn s.textString with
  | error c => exact .error c
  | ok v => exact .ok (h.setEnt v)

theorem renderStep_determinedBy : DeterminedBy [.ent] [.text, .textLen] renderStep := by
  intro rs s s' hr h
  have he : s'.ent = s.ent := h.same .ent (hr (by simp))
  unfold renderStep
  rw [he]
  exact (EndAlike.ok ((h.setText _).setTextLen _)).mono (by simp)

theorem e2bStep_determinedBy : DeterminedBy [.ent] [.bytes] e2bStep := by
  intro rs s s' hr h
  have he : s'.ent = s.ent := h.same .ent (hr (by simp))
  unfold e2bStep
  rw [he]
  exact .ok (h.setBytes _)

theorem b2eStep_determinedBy : DeterminedBy [.bytes] [.ent] b2eStep := by
  intro rs s s' hr h
  have hb : s'.bytes = s.bytes := h.same .bytes (hr (by simp))
  unfold b2eStep
  rw [hb]
  exact .ok (h.setEnt _)

theorem cksumStep_determinedBy : DeterminedBy [.bytes] [.chk] cksumStep := by
  intro rs s s' hr h
  have hb : s'.bytes = s.bytes := h.same .bytes (hr (by simp))
  unfold cksumStep
  rw [hb]
  exact .ok (h.setChk _)

theorem packStep_determinedBy : DeterminedBy [.ent, .chk] [.idx] packStep := by
  intro rs s s' hr h
  have he : s'.ent = s.ent := h.same .ent (hr (by simp))
  have hc : s'.chk = s.chk := h.same .chk (hr (by simp))
  unfold packStep
  rw [he, hc]
  exact .ok (h.setIdx _)

theorem unpackStep_determinedBy : DeterminedBy [.idx] [.ent, .chk] unpackStep := by
  intro rs s s' hr h
  have hi : s'.idx = s.idx := h.same .idx (hr (by simp))
  unfold unpackStep
  rw [hi]
  exact .ok ((h.setChk _).setEnt _)

theorem verifyStep_determinedBy : DeterminedBy [.ent, .chk] [] verifyStep := by
  intro rs s s' hr h
  have he : s'.ent = s.ent := h.same .ent (hr (by simp))
  have hc : s'.chk = s.chk := h.same .chk (hr (by simp))
  unfold verifyStep
  rw [he, hc]
  split
  · exact .ok h
  · exact .error _

theorem idx2wStep_determinedBy : DeterminedBy [.idx] [.word] idx2wStep := by
  intro rs s s' hr h
  have hi : s'.idx = s.idx := h.same .idx (hr (by simp))
  unfold idx2wStep
  rw [hi, h.wl]
  split
  · exact .error _
  · exact .ok (h.setWord _)

theorem w2idxStep_determinedBy : DeterminedBy [.word, .nwords] [.idx] w2idxStep := by
  intro rs s s' hr h
  have hw : s'.word = s.word := h.same .word (hr (by simp))
  have hn : s'.nwords = s.nwords := h.same .nwords (hr (by simp))
  unfold w2idxStep
  rw [hw, hn, h.wl]
  split
  · exact .error _
  split
  · exact .error _
  · exact .ok (h.setIdx _)

theorem wordatStep_determinedBy : DeterminedBy [.kidx] [.key] wordatStep := by
  intro rs s s' hr h
  have hk : s'.kidx = s.kidx := h.same .kidx (hr (by simp))
  unfold wordatStep
  rw [hk, h.wl]
  split
  · exact .error _
  · exact .ok (h.setKey _)

theorem clr_determinedBy : DeterminedBy [] (dests .clr) (stepsOf .clr) := by
  intro rs s s' _ h
  exact .ok (h.of_wroteOnly (stepsOf_wroteOnly (i := .clr) rfl) (stepsOf_wroteOnly (i := .clr) rfl)
    (sameReg_zeroRegs_both s s'))

theorem genwSteps_determinedBy : DeterminedBy [.ent] [.bytes, .chk, .idx, .word] genwSteps :=
  (((e2bStep_determinedBy.bind cksumStep_determinedBy (by simp)).bind packStep_determinedBy
    (by simp)).bind idx2wStep_determinedBy (by simp)).mono (by simp)

theorem geteSteps_determinedBy : DeterminedBy [.word, .nwords] [.idx, .ent, .chk] geteSteps :=
  ((w2idxStep_determinedBy.bind unpackStep_determinedBy (by simp)).bind verifyStep_determinedBy
    (by simp)).mono (by simp)

theorem encSteps_determinedBy :
    DeterminedBy [.text, .textLen] [.ent, .bytes, .chk, .idx, .word] encSteps :=
  (parseStep_determinedBy.bind genwSteps_determinedBy (by simp)).mono (by simp)

theorem decSteps_determinedBy :
    DeterminedBy [.word, .nwords] [.idx, .ent, .chk, .text, .textLen] decSteps :=
  (geteSteps_determinedBy.bind renderStep_determinedBy (by simp)).mono (by simp)

/-- The columns `sources` and `destinations` of the opcode map hold of every command but LOOKUP, whose
effect is not that of steps (rules R8, R72). -/
theorem stepsOf_determinedBy {i : Instr} (hi : i ≠ .lookup) :
    DeterminedBy (sources i) (dests i) (stepsOf i) := by
  cases i with
  | lookup => exact absurd rfl hi
  | nop => exact fun _ _ _ _ h => .ok h
  | clr => exact clr_determinedBy
  | parse => exact parseStep_determinedBy
  | render => exact renderStep_determinedBy
  | e2b => exact e2bStep_determinedBy
  | b2e => exact b2eStep_determinedBy
  | cksum => exact cksumStep_determinedBy
  | pack => exact packStep_determinedBy
  | unpack => exact unpackStep_determinedBy
  | verify => exact verifyStep_determinedBy
  | idx2w => exact idx2wStep_determinedBy
  | w2idx => exact w2idxStep_determinedBy
  | wordat => exact wordatStep_determinedBy
  | genw => exact genwSteps_determinedBy
  | gete => exact geteSteps_determinedBy
  | enc => exact encSteps_determinedBy
  | dec => exact decSteps_determinedBy

/-! ### The end of a command -/

/-- LOOKUP's answer is that of the CAM for its key (rule R163). -/
theorem lookupEffect_congr {s s' : State} (hk : s'.key = s.key) (hwl : s'.wl = s.wl) :
    (lookupEffect s).status = (lookupEffect s').status ∧
      (lookupEffect s').kidx = (lookupEffect s).kidx := by
  simp only [lookupEffect, hk, hwl]
  cases cam s.wl s.key <;> exact ⟨rfl, rfl⟩

/-- Steps that end alike end their command alike: with one `STATUS`, and equal or zero destinations. -/
theorem finish_congr {i : Instr} {x x' : Except Cause State} (s s' : State)
    (hx : EndAlike (dests i) x x') :
    (finish i x s).status = (finish i x' s').status ∧
      ∀ r ∈ dests i, sameReg (finish i x s) (finish i x' s') r := by
  cases hx with
  | ok h => exact ⟨rfl, fun r hr => (sameReg_setStatus_both _ _ _ _ r).2 (h.same r hr)⟩
  | error c =>
    exact ⟨rfl, fun r hr => (sameReg_setStatus_both _ _ _ _ r).2
      (sameReg_zeroRegs_both s s' r hr)⟩

/-- Two states alike in a command's sources and in the wordlist end alike in `STATUS` and in its
destinations (rules R8, R35). -/
theorem exec_congr {i : Instr} {s s' t t' : State} (hs : AgreeOn (sources i) s s')
    (ht : exec i s = .next t) (ht' : exec i s' = .next t') :
    t.status = t'.status ∧ ∀ r ∈ dests i, sameReg t t' r := by
  by_cases hi : i = .lookup
  · subst hi
    rw [exec_lookup] at ht ht'
    cases ht
    cases ht'
    have ⟨hst, hkidx⟩ := lookupEffect_congr (hs.same .key (by simp [sources])) hs.wl
    exact ⟨hst, List.forall_mem_singleton.2 hkidx⟩
  · rw [exec_eq_finish hi] at ht ht'
    cases ht
    cases ht'
    exact finish_congr s s' ((stepsOf_determinedBy hi _ s s' (List.Subset.refl _) hs).mono
      (List.subset_append_left _ _))

/-- Settles O50: `exec_next` completes every command, `exec_wrote` frames it. -/
theorem everyCommandCompletesWritingItsDestinations :
    Obligations.EveryCommandCompletesWritingItsDestinations := by
  unfold Obligations.EveryCommandCompletesWritingItsDestinations
  refine ⟨fun i s => ?_, rfl⟩
  obtain ⟨t, ht⟩ := exec_next i s
  exact ⟨t, ht, exec_wrote ht⟩

/-- Settles O52: each step's sources, composed along the composites' `>>=`. -/
theorem commandsDependOnTheirSourcesOnly : Obligations.CommandsDependOnTheirSourcesOnly := by
  unfold Obligations.CommandsDependOnTheirSourcesOnly
  exact ⟨fun i s s' t t' hs hwl ht ht' => exec_congr ⟨hs, hwl.symm⟩ ht ht', rfl⟩

end Sys2Proof.Machine

/-! ## The state: reset, `CMD`, the window's storage, and what every step keeps (rules R20 to R38) -/

namespace Sys2Proof.Machine

/-! ### The legal forms of `STATUS` (rules R34, R232) -/

theorem statusLegal_zero : statusLegal 0 := .inl ⟨rfl, rfl, rfl⟩

theorem statusLegal_statusLookup (hit : Bool) : statusLegal (statusLookup hit) :=
  .inl ⟨statusErr_mkStatus _ _ _ _, statusSub_mkStatus _ _ _ _, statusInfo_mkStatus _ _ _ _⟩

/-- A cause whose numbers are a row of rule R232's table is reported in a legal form. -/
theorem Cause.statusLegal_status {c : Cause}
    (h : statusErrorForm c.err.toNat c.sub.toNat c.info.toNat) : statusLegal c.status :=
  .inr ⟨c.statusHit_status, by simpa [Cause.status] using h⟩

/-- LOOKUP's `STATUS` is success, with `HIT` telling whether the CAM answered (rule R163). -/
theorem lookupEffect_status (s : State) :
    (lookupEffect s).status = statusLookup (cam s.wl s.key).isSome := by
  unfold lookupEffect
  cases cam s.wl s.key <;> rfl

/-- A command leaves `STATUS` in a legal form, whatever it was before. -/
theorem exec_statusLegal {i : Instr} {s t : State} (h : exec i s = .next t) :
    statusLegal t.status := by
  rcases exec_cases h with ⟨-, rfl⟩ | ⟨-, u, -, rfl⟩ | ⟨-, c, hc, rfl⟩
  · exact lookupEffect_status s ▸ statusLegal_statusLookup _
  · exact statusLegal_zero
  · exact Cause.statusLegal_status (stepsOf_error_form hc)

/-! ### The bound of `TEXT_LEN` (rule R30) -/

theorem clampTextLen_toNat (v : Word) : (clampTextLen v).toNat = min v.toNat 64 := by
  simp only [clampTextLen, Config.textMax, BitVec.toNat_ofNat]
  omega

theorem writeReg_textLen_le (r : WindowReg) (v : Word) {s : State}
    (h : s.textLen.toNat ≤ Config.textMax) :
    (writeReg r v s).textLen.toNat ≤ Config.textMax := by
  cases r with
  | textLen =>
    rw [writeReg, State.setTextLen_textLen, clampTextLen_toNat]
    exact Nat.min_le_right _ _
  | _ => simpa [writeReg] using h

theorem renderStep_textLen_le {s t : State} (h : renderStep s = .ok t) :
    t.textLen.toNat ≤ Config.textMax := by
  obtain ⟨t', ht', hlen, -⟩ := renderStep_ok s
  obtain rfl : t' = t := Except.ok.inj (ht'.symm.trans h)
  have hbound := (renderFn_length s.ent).2
  rw [hlen, Config.textMax]
  omega

/-- The commands that write `TEXT_LEN` (rule R72). -/
theorem textLen_mem_dests_iff (i : Instr) :
    DataReg.textLen ∈ dests i ↔ i = .render ∨ i = .dec ∨ i = .clr := by
  cases i <;> decide

/-- Steps that write `TEXT_LEN` end in RENDER's, or write it to zero. -/
theorem stepsOf_textLen_le {i : Instr} {s t : State} (hi : DataReg.textLen ∈ dests i)
    (h : stepsOf i s = .ok t) : t.textLen.toNat ≤ Config.textMax := by
  rcases (textLen_mem_dests_iff i).1 hi with rfl | rfl | rfl
  · exact renderStep_textLen_le h
  · obtain ⟨u, -, hu⟩ := bind_ok h
    exact renderStep_textLen_le hu
  · obtain rfl := Except.ok.inj h
    exact Nat.zero_le _

theorem exec_textLen_le {i : Instr} {s t : State} (hs : s.textLen.toNat ≤ Config.textMax)
    (h : exec i s = .next t) : t.textLen.toNat ≤ Config.textMax := by
  by_cases hi : DataReg.textLen ∈ dests i
  · rcases exec_cases h with ⟨rfl, -⟩ | ⟨-, u, hu, rfl⟩ | ⟨-, c, -, rfl⟩
    · simp [dests] at hi
    · rw [State.setStatus_textLen]
      exact stepsOf_textLen_le hi hu
    · have hzero : (raise (dests i) c s).textLen = 0 := (raise_spec (dests i) c s).1 _ hi
      simp [hzero]
  · have hsame : t.textLen = s.textLen := (exec_wrote h).1 _ hi
    rwa [hsame]

/-! ### The invariant, step by step -/

theorem exec_inv {i : Instr} {s t : State} (hs : s.Inv) (h : exec i s = .next t) : t.Inv :=
  ⟨exec_textLen_le hs.textLen h, exec_statusLegal h⟩

theorem runCommandWord_inv {v : Word} {s t : State} (hs : s.Inv)
    (h : runCommandWord v s = .next t) : t.Inv := by
  rcases runCommandWord_cases v s with ⟨i, -, hv⟩ | ⟨e, -, hv⟩
  · exact exec_inv hs (hv.symm.trans h)
  · obtain rfl := Host.Outcome.next.inj (hv.symm.trans h)
    refine ⟨hs.textLen, Cause.statusLegal_status ?_⟩
    simp [statusErrorForm, Cause.err, Cause.sub]

theorem resetBlock_inv (s : State) : (resetBlock s).Inv := ⟨Nat.zero_le _, statusLegal_zero⟩

theorem step_inv {s t : State} (hs : s.Inv) (h : step s = .next t) : t.Inv := by
  rcases step_cases h with ⟨-, rfl⟩ | ⟨e, rest, -, he⟩
  · exact hs
  rcases he with ⟨-, rfl⟩ | ⟨r, -, rfl⟩ | ⟨r, v, -, -, rfl⟩ | ⟨v, -, hv⟩
  · exact resetBlock_inv _
  · exact ⟨hs.textLen, hs.status⟩
  · exact ⟨writeReg_textLen_le r v hs.textLen, writeReg_status r v s ▸ hs.status⟩
  · exact runCommandWord_inv (s := { s with port := rest, cmd := v, reply := none })
      ⟨hs.textLen, hs.status⟩ hv

/-- Settles O57: `step_cases` names the step's event; a command word is the only hard one. -/
theorem stepKeepsTheInvariant : Obligations.StepKeepsTheInvariant := by
  unfold Obligations.StepKeepsTheInvariant
  exact fun _ _ hs h => step_inv hs h

/-- Settles O58: the registers of the reset state are those a reset pulse leaves. -/
theorem resetMeetsTheInvariant : Obligations.ResetMeetsTheInvariant := by
  unfold Obligations.ResetMeetsTheInvariant
  exact resetBlock_inv State.reset

/-! ### The reset state (rule R38) -/

theorem reset_regIsZero (r : DataReg) : regIsZero State.reset r := by
  cases r <;> simp [regIsZero, State.reset, zeroKey]

/-- Settles O1: register by register. -/
theorem resetStateIsAllZero : Obligations.ResetStateIsAllZero := by
  unfold Obligations.ResetStateIsAllZero
  exact ⟨reset_regIsZero, rfl, rfl, rfl, rfl, rfl⟩

/-! ### What no command writes: `CMD` and the wordlist (rules R33, R36) -/

theorem runCommandWord_sameOutside {v : Word} {s t : State} (h : runCommandWord v s = .next t) :
    sameOutside s t := by
  obtain ⟨u, hu, hsame⟩ := runCommandWord_next v s
  exact Host.Outcome.next.inj (hu.symm.trans h) ▸ hsame

theorem step_wl {s t : State} (h : step s = .next t) : t.wl = s.wl := by
  rcases step_cases h with ⟨-, rfl⟩ | ⟨e, rest, -, he⟩
  · rfl
  rcases he with ⟨-, rfl⟩ | ⟨r, -, rfl⟩ | ⟨r, v, -, -, rfl⟩ | ⟨v, -, hv⟩
  · exact resetBlock_wl _
  · rfl
  · exact writeReg_wl r v s
  · obtain ⟨-, hwl, -⟩ := runCommandWord_sameOutside hv
    exact hwl

/-- Settles O56: `step_cases` names the step's event, and none writes the wordlist. -/
theorem noStepWritesTheWordlist : Obligations.NoStepWritesTheWordlist := by
  unfold Obligations.NoStepWritesTheWordlist
  exact fun _ _ h => step_wl h

/-- A write of a command word completes with the word in `CMD` and its event taken, legal or not. -/
theorem step_commandWord_next {s : State} {v : Word} {rest : List PortEvent}
    (h : s.port = commandWrite v :: rest) :
    ∃ t, step s = .next t ∧ t.cmd = v ∧ t.port = rest := by
  obtain ⟨t, ht, hcmd, -, hport, -⟩ :=
    runCommandWord_next v { s with port := rest, cmd := v, reply := none }
  exact ⟨t, (step_commandWord h).trans ht, hcmd, hport⟩

theorem runCommandWord_of_decode {v : Word} {i : Instr} (h : decode v = .ok i) (s : State) :
    runCommandWord v s = exec i s := by
  rw [runCommandWord, h]

/-- Settles O7: the port's step on a write of `CMD`, its step on a read, and the frame of `exec`. -/
theorem cmdHoldsTheLastWordWritten : Obligations.CmdHoldsTheLastWordWritten := by
  unfold Obligations.CmdHoldsTheLastWordWritten
  refine ⟨fun s rest v hp => ?_, fun s rest hp => step_read hp, rfl, fun i s t h => ?_⟩
  · obtain ⟨t, ht, hcmd, hport⟩ := step_commandWord_next hp
    exact ⟨t, ht, hcmd, hport, fun i hi =>
      ⟨none, (step_commandWord hp).trans (runCommandWord_of_decode hi _)⟩⟩
  · obtain ⟨-, hcmd, -⟩ := exec_wrote h
    exact hcmd

/-! ### `HIT` (rules R34, R163) -/

theorem statusHit_statusLookup (hit : Bool) : statusHit (statusLookup hit) = 1 ↔ hit = true := by
  rw [statusLookup, statusHit_mkStatus]
  cases hit <;> decide

/-- Settles O54: LOOKUP sets `HIT` on a hit; success and every report clear it. -/
theorem onlyLookupSetsHit : Obligations.OnlyLookupSetsHit := by
  unfold Obligations.OnlyLookupSetsHit
  intro i s t h
  rcases exec_cases h with ⟨rfl, rfl⟩ | ⟨hi, u, -, rfl⟩ | ⟨hi, c, -, rfl⟩
  · rw [lookupEffect_status, statusHit_statusLookup, Option.isSome_iff_ne_none]
    exact (and_iff_right rfl).symm
  · simp [hi, statusHit]
  · simp [hi]

/-! ### The bytes of `TEXT` below `TEXT_LEN` (rules R30, R106) -/

/-- Two states that agree in every register and outside them are one state. -/
theorem State.eq_of_sameReg {s t : State} (hreg : ∀ r, sameReg s t r) (hout : sameOutside s t)
    (hst : t.status = s.status) : t = s := by
  obtain ⟨hcmd, hwl, hport, hreply⟩ := hout
  cases s
  cases t
  rw [State.mk.injEq]
  exact ⟨hreg .ent, hreg .bytes, hreg .chk, hreg .idx, hreg .nwords, hreg .kidx, hreg .key,
    hreg .word, hreg .text, hreg .textLen, hcmd, hst, hwl, hport, hreply⟩

/-- The text is made of the bytes below `TEXT_LEN` only. -/
theorem textString_setText {s : State} {text : Vector Byte 64}
    (h : ∀ k : Fin 64, k.val < s.textLen.toNat → text[k] = s.text[k]) :
    (s.setText text).textString = s.textString := by
  unfold State.textString
  refine List.ext_getElem (by simp) fun k hk _ => ?_
  simp only [List.length_take, Vector.length_toList, lt_min_iff] at hk
  obtain ⟨hlen, h64⟩ := hk
  simpa using h ⟨k, h64⟩ hlen

/-- PARSE's step looks at the text only. -/
theorem parseStep_endAlike {rs : List DataReg} {s s' : State} (h : AgreeOn rs s s')
    (ht : s'.textString = s.textString) : EndAlike (.ent :: rs) (parseStep s) (parseStep s') := by
  rw [parseStep, parseStep, ht]
  cases parseFn s.textString with
  | error c => exact .error c
  | ok v => exact .ok (h.setEnt v)

theorem encSteps_endAlike {s s' : State} (h : AgreeOn [] s s')
    (ht : s'.textString = s.textString) :
    EndAlike (dests .enc) (encSteps s) (encSteps s') :=
  ((parseStep_endAlike h ht).bind fun t t' hp =>
    genwSteps_determinedBy [.ent] t t' (List.Subset.refl _) hp).mono (by simp [dests])

/-- PARSE and ENC from two states with one text and one wordlist end alike (rule R106). -/
theorem exec_congr_textString {i : Instr} {s s' t t' : State} (hi : i = .parse ∨ i = .enc)
    (hwl : s'.wl = s.wl) (htext : s'.textString = s.textString)
    (ht : exec i s = .next t) (ht' : exec i s' = .next t') :
    t.status = t'.status ∧ ∀ r ∈ dests i, sameReg t t' r := by
  have hagree : AgreeOn [] s s' := ⟨by simp, hwl⟩
  have hsteps : EndAlike (dests i) (stepsOf i s) (stepsOf i s') := by
    rcases hi with rfl | rfl
    · exact parseStep_endAlike hagree htext
    · exact encSteps_endAlike hagree htext
  have hlookup : i ≠ .lookup := by rcases hi with rfl | rfl <;> decide
  rw [exec_eq_finish hlookup] at ht ht'
  obtain rfl := Host.Outcome.next.inj ht
  obtain rfl := Host.Outcome.next.inj ht'
  exact finish_congr s s' hsteps

/-- A register that held one value before a command in both states, or that the command writes alike,
holds one value after it. -/
theorem exec_sameReg {i : Instr} {s s' t t' : State} {r : DataReg} (hs : sameReg s s' r)
    (hd : r ∈ dests i → sameReg t t' r) (ht : exec i s = .next t) (ht' : exec i s' = .next t') :
    sameReg t t' r := by
  by_cases hr : r ∈ dests i
  · exact hd hr
  · have hkept : sameReg s t r := (exec_wrote ht).1 r hr
    have hkept' : sameReg s' t' r := (exec_wrote ht').1 r hr
    exact sameReg_trans (sameReg_symm hkept) (sameReg_trans hs hkept')

theorem sameReg_setText (s : State) (v : Vector Byte 64) {r : DataReg} (hr : r ≠ .text) :
    sameReg s (s.setText v) r :=
  (WroteOnly.setText s v).same r (by simpa using hr)

/-- Settles O35: the destinations agree since the text is one, the other registers since each command
keeps them. -/
theorem bytesPastTextLenAreIgnored : Obligations.BytesPastTextLenAreIgnored := by
  unfold Obligations.BytesPastTextLenAreIgnored
  intro i s t u text hi hbytes ht hu
  have hu : exec i (s.setText text) = .next u := hu
  obtain ⟨hst, hdest⟩ := exec_congr_textString (s := s) (s' := s.setText text) hi rfl
    (textString_setText hbytes) ht hu
  refine State.eq_of_sameReg (s := t.setText text) (fun r => ?_) ?_ hst.symm
  · by_cases hr : r = .text
    · subst hr
      have htext : DataReg.text ∉ dests i := by rcases hi with rfl | rfl <;> simp [dests]
      exact (exec_wrote hu).1 .text htext
    · exact sameReg_trans (sameReg_symm (sameReg_setText t text hr))
        (exec_sameReg (sameReg_setText s text hr) (hdest r) ht hu)
  · obtain ⟨hcmd, hwl, hport, hreply⟩ := (exec_wrote ht).2
    obtain ⟨hcmd', hwl', hport', hreply'⟩ := (exec_wrote hu).2
    exact ⟨hcmd'.trans hcmd.symm, hwl'.trans hwl.symm, hport'.trans hport.symm,
      hreply'.trans hreply.symm⟩

/-! ### One word of the window written, another read (rules R21, R56, R57) -/

/-- The words of an entropy made of four (rule R52). -/
theorem entWord_cat4 (a b c d : Word) (i : Fin 4) :
    entWord (a ++ b ++ c ++ d) i = #v[a, b, c, d][i] := by
  have drop {n : Nat} (x : BitVec n) (y : Word) (k : Nat) :
      (x ++ y).extractLsb' (k + 32) 32 = x.extractLsb' k 32 :=
    BitVec.extractLsb'_append_eq_of_le (Nat.le_add_left 32 k)
  fin_cases i
  · exact (drop _ d 64).trans ((drop _ c 32).trans ((drop a b 0).trans BitVec.extractLsb'_eq_self))
  · exact (drop _ d 32).trans ((drop _ c 0).trans BitVec.extractLsb'_append_eq_right)
  · exact (drop _ d 0).trans BitVec.extractLsb'_append_eq_right
  · exact BitVec.extractLsb'_append_eq_right

theorem entWord_setEntWord (e : Entropy) (i j : Fin 4) (v : Word) :
    entWord (setEntWord e j v) i = if i = j then v else entWord e i := by
  simp only [← Fin.val_inj]
  refine (entWord_cat4 _ _ _ _ i).trans ?_
  fin_cases i <;> rfl

/-- A byte of an array after a write of word `j`: the word's lane, or the byte that stood there. -/
theorem byteAt_setLaneWord {n : Nat} (a : Vector Byte n) (j : Nat) (v : Word) {i : Nat} (h : i < n) :
    byteAt (setLaneWord a j v) i = if i / 4 = j then lane v (i % 4) else byteAt a i := by
  simp [byteAt, setLaneWord, h]

theorem laneWord_setLaneWord {n m : Nat} (hm : 4 * m ≤ n) (a : Vector Byte n) (i j : Fin m)
    (v : Word) : laneWord (setLaneWord a j v) i = if i = j then v else laneWord a i := by
  have hbyte (k : Nat) (hk : k < 4) : byteAt (setLaneWord a j v) (4 * i + k) =
      if i = j then lane v k else byteAt a (4 * i + k) := by
    rw [byteAt_setLaneWord a j v (by omega), Nat.mul_add_div (by omega), Nat.mul_add_mod,
      Nat.div_eq_of_lt hk, Nat.mod_eq_of_lt hk, Nat.add_zero]
    simp only [Fin.val_inj]
  rw [laneWord, show byteAt (setLaneWord a j v) (4 * i) = _ from hbyte 0 (by omega),
    hbyte 1 (by omega), hbyte 2 (by omega), hbyte 3 (by omega)]
  split
  · exact cat4_lane v
  · rfl

/-- A write of one word of the window is not seen at another: no two words share storage. -/
theorem readReg_writeReg_of_ne {r q : WindowReg} (h : q ≠ r) (v : Word) (s : State) :
    readReg q (writeReg r v s) = readReg q s := by
  cases r with
  | id | param | status => rfl
  | cmd | chk | nwords | kidx | textLen =>
    cases q <;> simp [readReg, writeReg] at h ⊢
  | ent j =>
    cases q with
    | ent i => exact (entWord_setEntWord s.ent i j v).trans (if_neg (mt (congrArg _) h))
    | _ => simp [readReg, writeReg]
  | byt j =>
    cases q with
    | byt i =>
      exact (laneWord_setLaneWord (by decide) s.bytes i j v).trans (if_neg (mt (congrArg _) h))
    | _ => simp [readReg, writeReg]
  | key j =>
    cases q with
    | key i =>
      exact (laneWord_setLaneWord (by decide) s.key i j v).trans (if_neg (mt (congrArg _) h))
    | _ => simp [readReg, writeReg]
  | text j =>
    cases q with
    | text i =>
      exact (laneWord_setLaneWord (by decide) s.text i j v).trans (if_neg (mt (congrArg _) h))
    | _ => simp [readReg, writeReg]
  | idx k =>
    cases q with
    | idx i =>
      have hne : k.val ≠ i.val := fun hki => h (by rw [Fin.ext hki])
      simp [readReg, writeReg, hne]
    | _ => simp [readReg, writeReg]
  | word k j =>
    cases q with
    | word l i =>
      by_cases hkl : k = l
      · subst hkl
        have hij : i ≠ j := mt (congrArg _) h
        simp [readReg, writeReg, laneWord_setLaneWord (show 4 * 2 ≤ 8 by decide), hij]
      · have hne : k.val ≠ l.val := fun hki => hkl (Fin.ext hki)
        simp [readReg, writeReg, hne]
    | _ => simp [readReg, writeReg]

theorem clampTextLen_setWidth (v : Word) :
    (clampTextLen v).setWidth 32 = if v.toNat ≤ 64 then v else 64 := by
  apply BitVec.eq_of_toNat_eq
  rw [BitVec.toNat_setWidth, clampTextLen_toNat]
  split <;> simp <;> omega

/-- The low `n` bits of a word, zero-extended, are the word under their mask (rule R57). -/
theorem setWidth_extractLsb'_eq_and {n : Nat} {mask : Word} (h : mask.toNat = 2 ^ n - 1) (v : Word) :
    (v.extractLsb' 0 n).setWidth 32 = v &&& mask := by
  apply BitVec.eq_of_toNat_eq
  have hlt : v.toNat % 2 ^ n < 2 ^ 32 := (Nat.mod_le _ _).trans_lt v.isLt
  simpa [h, Nat.and_two_pow_sub_one_eq_mod] using hlt

/-- A read looks at no field of the port's. -/
theorem readReg_atPort (r : WindowReg) (s : State) (p : List PortEvent) (x : Option Word) :
    readReg r { s with port := p, reply := x } = readReg r s := by cases r <;> rfl

/-- A write of a word but `CMD`, then a read: what the read returns. -/
theorem step_write_then_read {s : State} {r q : WindowReg} {v : Word} {rest : List PortEvent}
    (hr : r ≠ .cmd) (h : s.port = wr r v :: rd q :: rest) :
    ∃ t u, step s = .next t ∧ step t = .next u ∧ u.reply = some (readReg q (writeReg r v s)) :=
  ⟨_, _, step_write hr h, step_read rfl, congrArg some (readReg_atPort q _ _ _)⟩

/-- Settles O12: another word is not written; the word itself holds the bits it implements. -/
theorem writeThenReadOfAnyTwoWords : Obligations.WriteThenReadOfAnyTwoWords := by
  unfold Obligations.WriteThenReadOfAnyTwoWords
  intro s rest r q v hr hp
  obtain ⟨t, u, ht, hu, hreply⟩ := step_write_then_read hr hp
  refine ⟨t, u, ht, hu, hreply.trans (congrArg some ?_)⟩
  split
  next hq => exact readReg_writeReg_of_ne hq v s
  next hq =>
    obtain rfl : q = r := not_not.1 hq
    cases q with
    | cmd => exact absurd rfl hr
    | id | param | status => rfl
    | ent j => exact (entWord_setEntWord s.ent j j v).trans (if_pos rfl)
    | byt j => exact (laneWord_setLaneWord (by decide) s.bytes j j v).trans (if_pos rfl)
    | key j => exact (laneWord_setLaneWord (by decide) s.key j j v).trans (if_pos rfl)
    | text j => exact (laneWord_setLaneWord (by decide) s.text j j v).trans (if_pos rfl)
    | word k j =>
      simp [readReg, writeReg, laneWord_setLaneWord (show 4 * 2 ≤ 8 by decide)]
    | chk | nwords | kidx => exact setWidth_extractLsb'_eq_and rfl v
    | idx k => simpa [readReg, writeReg] using setWidth_extractLsb'_eq_and (n := 11) rfl v
    | textLen => exact clampTextLen_setWidth v

end Sys2Proof.Machine

/-! ## The register window and the port: the map, reads, writes, and which accesses get a step
(rules R50 to R62) -/

namespace Sys2Proof.Machine

/-! ### The register map (rule R52) -/

theorem ofOffset_eq_some_iff (off : Nat) (r : WindowReg) :
    WindowReg.ofOffset off = some r ↔ off = r.offset :=
  ⟨offset_of_ofOffset, fun h => h ▸ ofOffset_offset r⟩

/-- Settles O9: the numbers are the map's own; `ofOffset_eq_some_iff` is its inverse. -/
theorem registerMapIsOneToOne : Obligations.RegisterMapIsOneToOne := by
  unfold Obligations.RegisterMapIsOneToOne
  refine ⟨rfl, rfl, rfl, rfl, fun _ => rfl, fun _ => rfl, rfl, rfl, rfl, rfl, fun _ => rfl,
    fun _ => rfl, fun _ => rfl, fun k => ⟨rfl, ?_⟩, ofOffset_eq_some_iff,
    fun r => ⟨offset_aligned r, offset_lt_window r⟩⟩
  simp only [WindowReg.offset, Fin.val_one]
  omega

/-! ### Reads (rules R54, R55) -/

theorem byteAt_of_lt {n i : Nat} (a : Vector Byte n) (h : i < n) : byteAt a i = a[i] := by
  simp [byteAt, h]

/-- The lanes of a word of a byte array are the array's bytes, the lowest index in lane 0. -/
theorem lane_laneWord_of_le {n j : Nat} (a : Vector Byte n) (m : Fin 4) (h : 4 * j + 4 ≤ n) :
    lane (laneWord a j) m = a[4 * j + m.val] := by
  rw [laneWord, lane_cat4]
  fin_cases m <;> exact byteAt_of_lt a (by omega)

/-- Settles O10: `step_read` is the access; the contents go word by word, `PARAM` a constant whatever
the wordlist, the byte arrays by their lanes. -/
theorem readReturnsTheListedContents : Obligations.ReadReturnsTheListedContents := by
  unfold Obligations.ReadReturnsTheListedContents
  refine ⟨fun s rest r hp => step_read hp, fun s => ⟨rfl, fun _ => rfl, rfl,
    BitVec.toNat_setWidth_of_le (by decide), BitVec.toNat_setWidth_of_le (by decide),
    BitVec.toNat_setWidth_of_le (by decide), BitVec.toNat_setWidth_of_le (by decide),
    BitVec.toNat_setWidth_of_le (by decide), fun _ => rfl,
    fun _ => BitVec.toNat_setWidth_of_le (by decide), fun m => ⟨?_, ?_, ?_, ?_⟩⟩⟩
  · exact fun j => lane_laneWord_of_le s.bytes m (by omega)
  · exact fun j => lane_laneWord s.key j m
  · exact fun j => lane_laneWord_of_le s.text m (by omega)
  · exact fun k j => lane_laneWord s.word[k] j m

/-! ### Writes of the narrow registers (rules R30, R57) -/

/-- Settles O11: `step_write` is the access; each narrow register takes what `writeReg` stores. -/
theorem narrowRegistersTruncateOrClamp : Obligations.NarrowRegistersTruncateOrClamp := by
  unfold Obligations.NarrowRegistersTruncateOrClamp
  intro s rest v
  refine ⟨fun hp => ⟨_, step_write (by decide) hp, rfl⟩,
    fun hp => ⟨_, step_write (by decide) hp, rfl⟩,
    fun hp => ⟨_, step_write (by decide) hp, rfl⟩,
    fun k hp => ⟨_, step_write (by simp) hp, ?_, fun j hj => ?_, rfl⟩,
    fun hp => ⟨_, step_write (by decide) hp, clampTextLen_toNat v, rfl⟩,
    fun _ => rfl, rfl, rfl, rfl, rfl⟩
  · simp [writeReg]
  · have hne : k.val ≠ j.val := fun hkj => hj (Fin.ext hkj.symm)
    simp [writeReg, hne]

/-! ### The step on a command word, and the order of events (rules R60, R62) -/

/-- Settles O3: the port's step on the write of a command word, and the word's decoding. -/
theorem stepRunsTheDecodedCommand : Obligations.StepRunsTheDecodedCommand := by
  unfold Obligations.StepRunsTheDecodedCommand
  exact fun _ _ _ _ hp hi => (step_commandWord hp).trans (runCommandWord_of_decode hi _)

/-- A step that completes takes the oldest event at the port. -/
theorem step_port {s t : State} {e : PortEvent} {rest : List PortEvent} (hp : s.port = e :: rest)
    (h : step s = .next t) : t.port = rest := by
  rcases step_cases h with ⟨hnil, -⟩ | ⟨e', rest', hp', he⟩
  · exact absurd (hp.symm.trans hnil) (List.cons_ne_nil e rest)
  obtain rfl : rest' = rest := (List.cons.inj (hp'.symm.trans hp)).2
  rcases he with ⟨-, rfl⟩ | ⟨r, -, rfl⟩ | ⟨r, v, -, -, rfl⟩ | ⟨v, -, hv⟩
  · rfl
  · rfl
  · rfl
  · obtain ⟨-, -, hport, -⟩ := runCommandWord_sameOutside hv
    exact hport

/-- Settles O8: `step_cases` names the step's event; a command word's run leaves the queue alone. -/
theorem portIsServedInOrder : Obligations.PortIsServedInOrder := by
  unfold Obligations.PortIsServedInOrder
  exact fun _ _ _ _ hp h => step_port hp h

/-! ### Which accesses get a step (rules R58, R59) -/

section
variable {off bytes : Nat} {k : WindowReg → Host.Outcome State Fault Refusal}

/-- An access at `0x200` or above is not this block's. -/
theorem atWindow_outside (h : Config.windowBytes ≤ off) :
    atWindow off bytes k = .refused .outsideWindow := if_pos h

/-- Inside the window, an access of another width or at an offset of no listed word is a bus error;
a misaligned offset is one of no word. -/
theorem atWindow_fault (hoff : off < Config.windowBytes)
    (h : bytes ≠ 4 ∨ ∀ r : WindowReg, off ≠ r.offset) : ∃ f, atWindow off bytes k = .fault f := by
  unfold atWindow
  rw [if_neg (Nat.not_le.2 hoff)]
  split
  · exact ⟨_, rfl⟩
  next hbytes =>
    split
    · exact ⟨_, rfl⟩
    split
    · exact ⟨_, rfl⟩
    next r hr => exact absurd (offset_of_ofOffset hr) (h.resolve_left hbytes r)

/-- Where the window's continuation always goes on, exactly the 32-bit accesses at listed offsets do. -/
theorem atWindow_next_iff (hk : ∀ r, ∃ t, k r = .next t) :
    (∃ t, atWindow off bytes k = .next t) ↔ bytes = 4 ∧ ∃ r : WindowReg, off = r.offset := by
  constructor
  · rintro ⟨t, ht⟩
    obtain ⟨hbytes, r, hoff, -⟩ := atWindow_next ht
    exact ⟨hbytes, r, hoff⟩
  · rintro ⟨rfl, r, rfl⟩
    rw [atWindow_offset]
    exact hk r

end

/-- The step on a read or a write hands the access to the window, and every listed word goes on. -/
theorem step_access {s : State} {rest : List PortEvent} {off bytes : Nat} {v : Word} {a : Access}
    (ha : a = .read off bytes ∨ a = .write off bytes v) (hp : s.port = .access a :: rest) :
    ∃ k, (∀ r, ∃ t, k r = .next t) ∧ step s = atWindow off bytes k := by
  rcases ha with rfl | rfl
  · have hstep : step s = serveRead off bytes (s.setPort rest) := by simp only [step, hp, serve]
    exact ⟨_, fun r => ⟨_, rfl⟩, hstep⟩
  · have hstep : step s = serveWrite off bytes v (s.setPort rest) := by simp only [step, hp, serve]
    refine ⟨_, fun r => ?_, hstep⟩
    dsimp only
    split
    · obtain ⟨t, ht, -⟩ := runCommandWord_next v ((writeReg r v (s.setPort rest)).setReply none)
      exact ⟨t, ht⟩
    · exact ⟨_, rfl⟩

/-- Settles O13: the step is the window's answer, and the window's three answers are told apart. -/
theorem onlyListedWordAccessesGetAStep : Obligations.OnlyListedWordAccessesGetAStep := by
  unfold Obligations.OnlyListedWordAccessesGetAStep
  intro s rest off bytes v a ha hp
  obtain ⟨k, hk, hstep⟩ := step_access ha hp
  rw [hstep]
  refine ⟨atWindow_next_iff hk, atWindow_outside, fun hoff hbad => atWindow_fault hoff ?_⟩
  rcases hbad with hbytes | halign | hnone
  · exact .inl hbytes
  · exact .inr fun r hr => halign (hr ▸ offset_aligned r)
  · exact .inr hnone

end Sys2Proof.Machine

/-! ## Command words: the decoder and the encoder are inverse (rules R70, R72, R74, R75) -/

namespace Sys2Proof

theorem decode_encode (i : Instr) : decode (encode i) = .ok i := by cases i <;> rfl

/-- A word is its two fields: the opcode below the reserved bits (rule R70). -/
theorem toNat_eq_fields (v : Word) : v.toNat = (rsvField v).toNat * 256 + (opField v).toNat := by
  have hlt := v.isLt
  simp only [rsvField, opField, BitVec.extractLsb'_toNat, Nat.shiftRight_eq_div_pow]
  omega

/-- The opcode map's rows are the low bytes of the commands' words, each of one row (rule R72). -/
theorem toNat_encode_of_decodeOp {op : Nat} {i : Instr} (h : decodeOp op = some i) :
    (encode i).toNat = op := by
  unfold decodeOp at h
  split at h <;> cases h <;> rfl

/-- What decodes to a command: no reserved bit set, and the opcode of its row (rules R70, R74). -/
theorem decode_eq_ok_iff (v : Word) (i : Instr) :
    decode v = .ok i ↔ rsvField v = 0 ∧ decodeOp (opField v).toNat = some i := by
  unfold decode
  split
  next hrsv => exact iff_of_false nofun fun h => hrsv h.1
  next hrsv =>
    rw [not_not] at hrsv
    cases decodeOp (opField v).toNat <;> simp [hrsv]

/-- Every bit of a command's word counts: a word that decodes to the command is its encoding. -/
theorem eq_encode_of_decode {v : Word} {i : Instr} (h : decode v = .ok i) : v = encode i := by
  obtain ⟨hrsv, hop⟩ := (decode_eq_ok_iff v i).1 h
  apply BitVec.eq_of_toNat_eq
  calc v.toNat = (rsvField v).toNat * 256 + (opField v).toNat := toNat_eq_fields v
    _ = (opField v).toNat := by simp [hrsv]
    _ = (encode i).toNat := (toNat_encode_of_decodeOp hop).symm

/-- Settles O5: `decode_encode` one way, `eq_encode_of_decode` the other. -/
theorem decodeIsInverseOfEncode : Obligations.DecodeIsInverseOfEncode := by
  unfold Obligations.DecodeIsInverseOfEncode
  exact fun v i => ⟨eq_encode_of_decode, fun h => h ▸ decode_encode i⟩

/-- Settles O4: the eighteen words are the commands' encodings, the three others fail in a field. -/
theorem opcodeMapWordsDecode : Obligations.OpcodeMapWordsDecode := by
  unfold Obligations.OpcodeMapWordsDecode
  exact ⟨decode_encode .nop, decode_encode .parse, decode_encode .render, decode_encode .e2b,
    decode_encode .b2e, decode_encode .cksum, decode_encode .pack, decode_encode .unpack,
    decode_encode .verify, decode_encode .idx2w, decode_encode .w2idx, decode_encode .lookup,
    decode_encode .wordat, decode_encode .genw, decode_encode .gete, decode_encode .enc,
    decode_encode .dec, decode_encode .clr, rfl, rfl, rfl⟩

end Sys2Proof

/-! ## Loading operands (rules R80 to R83, R213 to R216) -/

namespace Sys2Proof.Machine

/-! ### The window determines the registers (rules R20, R52) -/

theorem eq_of_entWord {e f : Entropy} (h : ∀ j : Fin 4, entWord e j = entWord f j) : e = f := by
  apply BitVec.eq_of_getLsbD_eq
  intro i hi
  have hbit := congrArg (fun w => w.getLsbD (i % 32)) (h ⟨3 - i / 32, by omega⟩)
  have hplace : 96 - 32 * (3 - i / 32) + i % 32 = i := by omega
  have hlt : i % 32 < 32 := by omega
  simpa [entWord, hplace, hlt] using hbit

/-- A byte of an array is the lane of its word (rule R54). -/
theorem lane_laneWord_div {m i : Nat} (a : Vector Byte (4 * m)) (hi : i < 4 * m) :
    lane (laneWord a (i / 4)) (i % 4) = a[i] := by
  have hbyte := lane_laneWord_of_le (j := i / 4) a ⟨i % 4, by omega⟩ (by omega)
  simpa only [Nat.div_add_mod] using hbyte

theorem eq_of_laneWord {m : Nat} {a b : Vector Byte (4 * m)}
    (h : ∀ j : Fin m, laneWord a j = laneWord b j) : a = b := by
  refine Vector.ext fun i hi => ?_
  have hword : laneWord a (i / 4) = laneWord b (i / 4) := h ⟨i / 4, by omega⟩
  rw [← lane_laneWord_div a hi, ← lane_laneWord_div b hi, hword]

theorem eq_of_setWidth_eq {n : Nat} (hn : n ≤ 32) {a b : BitVec n}
    (h : a.setWidth 32 = b.setWidth 32) : a = b := by
  have hval := congrArg BitVec.toNat h
  rw [BitVec.toNat_setWidth_of_le hn, BitVec.toNat_setWidth_of_le hn] at hval
  exact BitVec.eq_of_toNat_eq hval

/-- Two states are one when every word of the window reads alike and what the window does not show
is alike. -/
theorem State.eq_of_readReg {s t : State} (h : ∀ r, readReg r s = readReg r t) (hwl : s.wl = t.wl)
    (hport : s.port = t.port) (hreply : s.reply = t.reply) : s = t := by
  cases s
  cases t
  rw [State.mk.injEq]
  exact ⟨eq_of_entWord fun j => h (.ent j), eq_of_laneWord (m := 4) fun j => h (.byt j),
    eq_of_setWidth_eq (by decide) (h .chk),
    Vector.ext fun k hk => eq_of_setWidth_eq (by decide) (h (.idx ⟨k, hk⟩)),
    eq_of_setWidth_eq (by decide) (h .nwords), eq_of_setWidth_eq (by decide) (h .kidx),
    eq_of_laneWord (m := 2) fun j => h (.key j),
    Vector.ext fun k hk => eq_of_laneWord (m := 2) fun j => h (.word ⟨k, hk⟩ j),
    eq_of_laneWord (m := 16) fun j => h (.text j), eq_of_setWidth_eq (by decide) (h .textLen),
    h .cmd, eq_of_setWidth_eq (by decide) (h .status), hwl, hport, hreply⟩

/-! ### Writing words of the window (rules R56, R63) -/

/-- The contents a word of the window has in some state, written back, read the same. `STATUS` takes no
write, and `TEXT_LEN` none above 64. -/
theorem readReg_writeReg_readReg {r : WindowReg} {t : State} (hstatus : r ≠ .status)
    (hlen : r = .textLen → t.textLen.toNat ≤ 64) (s : State) :
    readReg r (writeReg r (readReg r t) s) = readReg r t := by
  have narrow {n : Nat} (hn : n ≤ 32) (x : BitVec n) :
      ((x.setWidth 32).extractLsb' 0 n).setWidth 32 = x.setWidth 32 := by
    congr 1
    apply BitVec.eq_of_toNat_eq
    rw [BitVec.extractLsb'_toNat, BitVec.toNat_setWidth_of_le hn, Nat.shiftRight_zero,
      Nat.mod_eq_of_lt x.isLt]
  cases r with
  | status => exact absurd rfl hstatus
  | id | param | cmd => rfl
  | ent j => exact (entWord_setEntWord s.ent j j _).trans (if_pos rfl)
  | byt j => exact (laneWord_setLaneWord (by decide) s.bytes j j _).trans (if_pos rfl)
  | key j => exact (laneWord_setLaneWord (by decide) s.key j j _).trans (if_pos rfl)
  | text j => exact (laneWord_setLaneWord (by decide) s.text j j _).trans (if_pos rfl)
  | word k j => simp [readReg, writeReg, laneWord_setLaneWord (show 4 * 2 ≤ 8 by decide)]
  | chk | nwords | kidx => exact narrow (by decide) _
  | idx k => simpa [readReg, writeReg] using narrow (by decide) t.idx[k]
  | textLen =>
    refine (clampTextLen_setWidth _).trans (if_pos ?_)
    exact (BitVec.toNat_setWidth_of_le (by decide)).trans_le (hlen rfl)

/-- Writing words of `t`, from a state that reads like `t` at every other word, leaves `t`, with nothing
at the port and no reply. -/
theorem perform_writes_eq {t : State} (rs : List WindowReg) {s : State} (hwl : t.wl = s.wl)
    (hrs : ∀ r ∈ rs, r ≠ .cmd ∧ r ≠ .status ∧ (r = .textLen → t.textLen.toNat ≤ 64))
    (hsame : ∀ q ∉ rs, readReg q t = readReg q s) (hreply : s.reply = none ∨ rs ≠ []) :
    perform (rs.map fun r => wr r (readReg r t)) s = .ok { t with port := [], reply := none } := by
  induction rs generalizing s with
  | nil =>
    have hnone : s.reply = none := hreply.resolve_right (not_not.2 rfl)
    rw [List.map_nil, perform_nil]
    refine congrArg Except.ok (State.eq_of_readReg (fun r => ?_) hwl.symm rfl hnone)
    calc readReg r (s.setPort []) = readReg r s := readReg_atPort r s [] s.reply
      _ = readReg r t := (hsame r List.not_mem_nil).symm
      _ = _ := (readReg_atPort r t [] none).symm
  | cons r rs ih =>
    obtain ⟨hcmd, hstatus, hlen⟩ := hrs r List.mem_cons_self
    rw [List.map_cons, perform_wr hcmd]
    refine ih (hwl.trans (writeReg_wl r _ s).symm) (fun q hq => hrs q (List.mem_cons_of_mem r hq))
      (fun q hq => Eq.trans ?_ (readReg_atPort q (writeReg r (readReg r t) s) _ none).symm) (.inl rfl)
    by_cases hqr : q = r
    · rw [hqr, readReg_writeReg_readReg hstatus hlen]
    · rw [readReg_writeReg_of_ne hqr, hsame q (by simp [hqr, hq])]

/-- A program the host performs is one the block runs at its port. -/
theorem runPort_of_perform {p : List PortEvent} {s t : State} (h : perform p s = .ok t) :
    runPort { s with port := p } = .next t := by
  unfold perform at h
  split at h
  next u hu => exact hu.trans (congrArg _ (Except.ok.inj h))
  all_goals cases h

/-! ### The load sequences (rule R83) -/

/-- `TEXT` after the words of a text are written: whole words, so up to three bytes past the text are
0x00, and the bytes behind them are as they were. Irreducible, so that no unifier runs its 64 bytes. -/
@[irreducible] def loadedText (x : List Byte) (a : Vector Byte 64) : Vector Byte 64 :=
  Vector.ofFn fun i => if 4 * (i.val / 4) < x.length then x.getD i 0 else a[i]

theorem laneWord_loadedText (x : List Byte) (a : Vector Byte 64) (j : Fin 16) :
    laneWord (loadedText x a) j = if 4 * j.val < x.length then textWord x j else laneWord a j := by
  have hbyte (k : Nat) (hk : k < 4) : byteAt (loadedText x a) (4 * j + k) =
      if 4 * j.val < x.length then x.getD (4 * j + k) 0 else byteAt a (4 * j + k) := by
    have hi : 4 * j.val + k < 64 := by omega
    have hword : (4 * j.val + k) / 4 = j := by omega
    rw [byteAt_of_lt _ hi, byteAt_of_lt _ hi]
    simp only [loadedText, Vector.getElem_ofFn, hword, Fin.getElem_fin]
  rw [laneWord, show byteAt (loadedText x a) (4 * j) = _ from hbyte 0 (by omega),
    hbyte 1 (by omega), hbyte 2 (by omega), hbyte 3 (by omega)]
  split <;> rfl

theorem loadedText_take {x : List Byte} (hx : x.length ≤ 64) (a : Vector Byte 64) :
    (loadedText x a).toList.take x.length = x := by
  refine List.ext_getElem (by simp [hx]) fun i hi hix => ?_
  have hword : 4 * (i / 4) < x.length := by omega
  simp [loadedText, hword, hix]

/-- The state LDTEXT leaves, but for the port and its reply. -/
def State.withLoadedText (x : List Byte) (s : State) : State :=
  (s.setText (loadedText x s.text)).setTextLen (BitVec.ofNat 7 x.length)

/-- The words LDTEXT writes (rule R83). -/
def ldTextWords (x : List Byte) : List WindowReg :=
  ((List.finRange 16).filter fun j => 4 * j.val < x.length).map .text ++ [.textLen]

theorem mem_ldTextWords (x : List Byte) (r : WindowReg) :
    r ∈ ldTextWords x ↔ (∃ j : Fin 16, 4 * j.val < x.length ∧ .text j = r) ∨ r = .textLen := by
  simp [ldTextWords]

/-- A text of more than 64 bytes has no program (rule R269). -/
theorem length_le_of_ldText {x : List Byte} {p : List PortEvent} (hp : ldText x = some p) :
    x.length ≤ 64 := by
  unfold ldText at hp
  split at hp
  next hx => exact hx
  next => cases hp

section
variable {x : List Byte} (hx : x.length ≤ 64) (s : State)
include hx

theorem withLoadedText_textLen : (s.withLoadedText x).textLen.toNat = x.length := by
  rw [State.withLoadedText, State.setTextLen_textLen, BitVec.toNat_ofNat]
  omega

theorem textString_withLoadedText : (s.withLoadedText x).textString = x := by
  rw [State.textString, withLoadedText_textLen hx]
  exact loadedText_take hx s.text

/-- LDTEXT's accesses write the words of the state it leaves. -/
theorem ldText_eq : ldText x =
    some ((ldTextWords x).map fun r => wr r (readReg r (s.withLoadedText x))) := by
  have hlen : readReg .textLen (s.withLoadedText x) = BitVec.ofNat 32 x.length := by
    apply BitVec.eq_of_toNat_eq
    rw [readReg, BitVec.toNat_setWidth_of_le (by decide), withLoadedText_textLen hx,
      BitVec.toNat_ofNat]
    omega
  rw [ldText, if_pos (show x.length ≤ Config.textMax from hx), ldTextWords, List.map_append,
    List.map_map, List.map_singleton, hlen]
  refine congrArg (fun l => some (l ++ _)) (List.map_congr_left fun j hj => ?_)
  have hword : 4 * j.val < x.length := by simpa using hj
  have htext := (laneWord_loadedText x s.text j).trans (if_pos hword)
  exact congrArg (wr (.text j)) htext.symm

theorem perform_ldText {p : List PortEvent} (hp : ldText x = some p) :
    perform p s = .ok { s.withLoadedText x with port := [], reply := none } := by
  obtain rfl := Option.some.inj (hp.symm.trans (ldText_eq hx s))
  refine perform_writes_eq (ldTextWords x) rfl (fun r hr => ?_) (fun q hq => ?_)
    (.inr (List.append_ne_nil_of_right_ne_nil _ (List.cons_ne_nil _ _)))
  · rcases (mem_ldTextWords x r).1 hr with ⟨j, -, rfl⟩ | rfl
    · exact ⟨nofun, nofun, nofun⟩
    · exact ⟨nofun, nofun, fun _ => (withLoadedText_textLen hx s).trans_le hx⟩
  · rw [mem_ldTextWords, not_or] at hq
    obtain ⟨htext, htextLen⟩ := hq
    cases q with
    | text j =>
      have hword : ¬ 4 * j.val < x.length := fun h => htext ⟨j, h, rfl⟩
      exact (laneWord_loadedText x s.text j).trans (if_neg hword)
    | textLen => exact absurd rfl htextLen
    | _ => rfl

end

theorem perform_ldEnt (v : Entropy) (s : State) :
    perform (ldEnt v) s = .ok { s with port := [], reply := none, ent := v } := by
  refine perform_writes_eq (t := { s with ent := v }) ((List.finRange 4).map .ent) rfl
    (fun r hr => ?_) (fun q hq => ?_) (.inr nofun)
  · obtain ⟨j, -, rfl⟩ := List.mem_map.1 hr
    exact ⟨nofun, nofun, nofun⟩
  · cases q with
    | ent j => simp at hq
    | _ => rfl

/-- The words that twelve LDWORD and WR NWORDS write (rule R186). -/
def ldMnemonicWords : List WindowReg :=
  (List.finRange 12).flatMap (fun k => (List.finRange 2).map (.word k)) ++ [.nwords]

theorem mem_ldMnemonicWords (r : WindowReg) :
    r ∈ ldMnemonicWords ↔ (∃ k j, .word k j = r) ∨ r = .nwords := by
  simp only [ldMnemonicWords, List.mem_append, List.mem_flatMap, List.mem_map, List.mem_finRange,
    true_and, List.mem_singleton]

theorem ldMnemonic_eq (keys : Vector WordKey 12) (n : BitVec 8) (s : State) : ldMnemonic keys n =
    ldMnemonicWords.map fun r => wr r (readReg r { s with word := keys, nwords := n }) := by
  simp only [ldMnemonic, ldWordKey, ldMnemonicWords, List.map_append, List.map_flatMap, List.map_map]
  rfl

theorem perform_ldMnemonic (keys : Vector WordKey 12) (n : BitVec 8) (s : State) :
    perform (ldMnemonic keys n) s =
      .ok { s with port := [], reply := none, word := keys, nwords := n } := by
  rw [ldMnemonic_eq keys n s]
  refine perform_writes_eq (t := { s with word := keys, nwords := n }) ldMnemonicWords rfl
    (fun r hr => ?_) (fun q hq => ?_)
    (.inr (List.append_ne_nil_of_right_ne_nil _ (List.cons_ne_nil _ _)))
  · rcases (mem_ldMnemonicWords r).1 hr with ⟨k, j, rfl⟩ | rfl <;> exact ⟨nofun, nofun, nofun⟩
  · rw [mem_ldMnemonicWords, not_or] at hq
    obtain ⟨hword, hnwords⟩ := hq
    cases q with
    | word k j => exact absurd ⟨k, j, rfl⟩ hword
    | nwords => exact absurd rfl hnwords
    | _ => rfl

/-! ### Keys of words (rules R80, R81) -/

theorem keyOf_eq_some_iff (x : List Byte) (key : WordKey) : keyOf x = some key ↔
    1 ≤ x.length ∧ x.length ≤ 8 ∧ ∀ j : Fin 8, key[j] = x.getD j 0 := by
  unfold keyOf
  split
  next hlen =>
    rw [Option.some.injEq, ← and_assoc, and_iff_right hlen]
    constructor
    · rintro rfl j
      simp
    · exact fun h => Vector.ext fun j hj => by simpa using (h ⟨j, hj⟩).symm
  next hlen => exact iff_of_false nofun fun ⟨h1, h8, _⟩ => hlen ⟨h1, h8⟩

/-! ### A sentence cut short (rules R214 to R216) -/

theorem leavesMisses_eq (sch : Scheme) (misses : Bool) (toks : List (List Byte)) :
    sch.leavesMisses misses toks = (misses && decide ((sch.candidates toks).length = 12)) := by
  rw [Scheme.leavesMisses, beq_eq_decide, Config.nWords]

theorem candidates_append_length (sch : Scheme) (toks rest : List (List Byte)) :
    (sch.candidates toks).length ≤ (sch.candidates (toks ++ rest)).length := by
  rw [Scheme.candidates, Scheme.candidates, List.filter_append, List.length_append]
  exact Nat.le_add_right _ _

/-- A sentence that begins with tokens that load `keys`: the run comes to the tokens behind them with
their number, and an error there is the run's. -/
theorem loadSentence_error_of_loaded {sch : Scheme} {misses : Bool} {s : State} {t : List Byte}
    {toks rest : List (List Byte)} {keys : List WordKey} (htoks : sch.tokens t = toks ++ rest)
    (hload : sch.loadsAll (sch.leavesMisses misses (sch.tokens t)) s.wl toks keys)
    (hlen : keys.length ≤ 255) :
    ∃ h u, h.misses = sch.leavesMisses misses (sch.tokens t) ∧ u.wl = s.wl ∧
      ∀ e, loadTokens sch h rest keys.length u = .error e →
        loadSentence sch misses t s = .error e := by
  have hmisses := handing_misses sch misses (sch.tokens t)
  rw [loadSentence]
  generalize (if sch.leavesMisses misses (sch.tokens t) then Handing.wordsAndMisses else .words) = h
    at hmisses
  rw [← hmisses] at hload
  have hslots (hm : h.misses = true) : 0 + keys.length ≤ 12 := by
    have htwelve := leavesMisses_length (hmisses ▸ hm)
    rw [htoks] at htwelve
    have hle := candidates_append_length sch toks rest
    rw [Nat.zero_add, ← hload.length_eq]
    omega
  obtain ⟨u, hrun, hgiven⟩ := loadTokens_loadsAll hload (by omega) hslots rest
  rw [Nat.zero_add] at hrun
  refine ⟨h, u, hmisses, hgiven.wl, fun e he => ?_⟩
  rw [htoks]
  show (loadTokens sch h (toks ++ rest) 0 s >>= _) = _
  rw [hrun, he, error_then]

section
variable {sch : Scheme} {misses : Bool} {s : State} {t : List Byte} {toks rest : List (List Byte)}
  {tok : List Byte} {keys : List WordKey} (htoks : sch.tokens t = toks ++ tok :: rest)
  (hfiller : tok ∉ sch.fillers)
  (hload : sch.loadsAll (sch.leavesMisses misses (sch.tokens t)) s.wl toks keys)
include htoks hfiller hload

/-- The first token that misses and is not loaded ends the run (rule R216). -/
theorem loadSentence_misses (hlen : keys.length ≤ 255) (hmiss : sch.misses s.wl tok)
    (hkey : sch.leavesMisses misses (sch.tokens t) = true → keyOf tok = none) :
    loadSentence sch misses t s = .error (.raised (.unknownWord keys.length)) := by
  obtain ⟨h, u, hh, hwl, herror⟩ := loadSentence_error_of_loaded htoks hload hlen
  exact herror _ (loadTokens_misses hfiller (hwl ▸ hmiss) (fun hm => .inl (hkey (hh ▸ hm))) rest)

/-- A 256th accepted word ends the run (rule R215). -/
theorem loadSentence_tooMany (hlen : keys.length = 255) {key : WordKey}
    (haccept : sch.accepts s.wl tok key) :
    loadSentence sch misses t s = .error .tooManyWords := by
  obtain ⟨h, u, -, hwl, herror⟩ := loadSentence_error_of_loaded htoks hload hlen.le
  exact herror _ (hlen ▸ loadTokens_tooMany hfiller (hwl ▸ haccept) rest)

end

/-- Settles O59: the load sequences by the state whose words they write, the keys by
`keyOf_eq_some_iff`, the runs by the tokens they load. -/
theorem loadSequencesLoadWholeOperands : Obligations.LoadSequencesLoadWholeOperands := by
  unfold Obligations.LoadSequencesLoadWholeOperands
  refine ⟨fun s x p hp => ?_, fun s v => runPort_of_perform (perform_ldEnt v s),
    fun s keys n => runPort_of_perform (perform_ldMnemonic keys n s), keyOf_eq_some_iff,
    fun sch misses s t keys => ?_⟩
  · have hx := length_le_of_ldText hp
    exact ⟨_, runPort_of_perform (perform_ldText hx s hp), textString_withLoadedText hx s, rfl⟩
  · rw [← leavesMisses_eq]
    refine ⟨fun hload hlen => ?_, fun toks rest tok htoks hfiller hload =>
      ⟨loadSentence_misses htoks hfiller hload,
        fun hlen ⟨_, haccept⟩ => loadSentence_tooMany htoks hfiller hload hlen haccept⟩⟩
    obtain ⟨u, hu, hn, hword, hsame, hwl⟩ := loadSentence_loadsAll hload hlen
    refine ⟨u, hu, ?_, hword, hsame, hwl⟩
    rw [hn, BitVec.toNat_ofNat]
    omega

end Sys2Proof.Machine

/-! ## The address parser and the renderer (rules R76 to R79, R100 to R111) -/

namespace Sys2Proof.Machine

/-! ### Byte classes and case folding (rules R76, R78) -/

theorem charClass_eq_ws_iff (b : Byte) :
    charClass b = .ws ↔ (0x09 ≤ b.toNat ∧ b.toNat ≤ 0x0D) ∨ b.toNat = 0x20 := by
  revert b; decide

theorem charClass_eq_colon_iff (b : Byte) : charClass b = .colon ↔ b.toNat = 0x3A := by
  revert b; decide

theorem charClass_eq_digit_iff (b : Byte) :
    charClass b = .digit ↔ 0x30 ≤ b.toNat ∧ b.toNat ≤ 0x39 := by
  revert b; decide

theorem charClass_eq_hexLc_iff (b : Byte) :
    charClass b = .hexLc ↔ 0x61 ≤ b.toNat ∧ b.toNat ≤ 0x66 := by
  revert b; decide

theorem charClass_eq_hexUc_iff (b : Byte) :
    charClass b = .hexUc ↔ 0x41 ≤ b.toNat ∧ b.toNat ≤ 0x46 := by
  revert b; decide

theorem isWs_iff (b : Byte) : isWs b = true ↔ charClass b = .ws := beq_iff_eq

theorem isHexDigit_iff (b : Byte) :
    isHexDigit b = true ↔ charClass b = .digit ∨ charClass b = .hexLc := by
  rw [isHexDigit, Bool.or_eq_true, beq_iff_eq, beq_iff_eq]

theorem isWs_lower (b : Byte) : isWs (lower b) = isWs b := by
  revert b; decide

theorem lower_eq_colonByte_iff (b : Byte) : lower b = colonByte ↔ b = colonByte := by
  revert b; decide

/-- The bytes that fold to a colon or a digit of a group (rules R76, R78). -/
theorem charClass_of_lower {b : Byte} (h : lower b = colonByte ∨ isHexDigit (lower b) = true) :
    charClass b ∈ [.colon, .digit, .hexLc, .hexUc] := by
  revert b; decide

/-! ### Trimming (rule R101) -/

theorem trim_eq_rdropWhile (s : List Byte) : trim s = (s.dropWhile isWs).rdropWhile isWs := rfl

/-- A text is the whitespace before it, the trimmed text, and the whitespace behind it. -/
theorem eq_append_trim_append (s : List Byte) :
    s = s.takeWhile isWs ++ trim s ++ (s.dropWhile isWs).rtakeWhile isWs := by
  rw [trim_eq_rdropWhile, List.append_assoc, List.rdropWhile_append_rtakeWhile,
    List.takeWhile_append_dropWhile]

theorem isWs_head?_trim {s : List Byte} {x : Byte} (h : (trim s).head? = some x) :
    isWs x = false := by
  have hhead : (s.dropWhile isWs).head? = some x := by
    obtain ⟨rest, hrest⟩ := List.rdropWhile_prefix isWs (l := s.dropWhile isWs)
    rw [← hrest, List.head?_append, ← trim_eq_rdropWhile, h]
    rfl
  have hnot := List.head?_dropWhile_not isWs s
  rwa [hhead] at hnot

theorem isWs_getLast?_trim {s : List Byte} {x : Byte} (h : (trim s).getLast? = some x) :
    isWs x = false := by
  have hnot := List.head?_dropWhile_not isWs (s.dropWhile isWs).reverse
  rw [trim, List.getLast?_reverse] at h
  rwa [h] at hnot

theorem trim_map_lower (s : List Byte) : trim (s.map lower) = (trim s).map lower := by
  have hcomp : isWs ∘ lower = isWs := funext isWs_lower
  simp only [trim, List.dropWhile_map, ← List.map_reverse, hcomp]

/-- Where no byte is whitespace there is nothing to trim. -/
theorem trim_eq_self {s : List Byte} (h : ∀ b ∈ s, isWs b = false) : trim s = s := by
  have hdrop {x : List Byte} (hx : ∀ b ∈ x, isWs b = false) : x.dropWhile isWs = x := by
    cases x with
    | nil => rfl
    | cons b x => simp [hx b (by simp)]
  rw [trim, hdrop h, hdrop (fun b hb => h b (List.mem_reverse.1 hb)), List.reverse_reverse]

/-! ### When a text is empty, and when it has two `::` (rules R101, R102) -/

theorem parseFn_of_trim_eq_nil {s : List Byte} (h : trim s = []) : parseFn s = .error .empty := by
  rw [parseFn, h]; rfl

theorem parseFn_of_trim_ne_nil {s : List Byte} (h : trim s ≠ []) :
    parseFn s = parseLowered ((trim s).map lower) :=
  if_neg (mt List.isEmpty_iff.1 h)

/-- The checks on the groups report groups (rules R103, R104). -/
theorem assembleGroups_ne_error {c : Cause} (h : c = .empty ∨ c = .multiDColon) (hasDc : Bool)
    (l r : List (List Byte)) : assembleGroups hasDc l r ≠ .error c := by
  intro hc
  rcases assembleGroups_error hc with ⟨-, rfl⟩ | ⟨-, -, rfl⟩ | ⟨i, -, rfl⟩ <;> simp at h

theorem parseLowered_ne_empty (u : List Byte) : parseLowered u ≠ .error .empty := by
  rcases parseLowered_cases u with ⟨a, -, hp⟩ | ⟨a, b, -, hp⟩ | ⟨-, hp⟩
  · exact hp ▸ assembleGroups_ne_error (.inl rfl) _ _ _
  · exact hp ▸ assembleGroups_ne_error (.inl rfl) _ _ _
  · rw [hp]; nofun

theorem parseFn_eq_empty_iff (s : List Byte) : parseFn s = .error .empty ↔ trim s = [] := by
  refine ⟨fun h => ?_, parseFn_of_trim_eq_nil⟩
  by_contra hne
  exact parseLowered_ne_empty _ ((parseFn_of_trim_ne_nil hne).symm.trans h)

theorem parseLowered_eq_multiDColon_iff (u : List Byte) :
    parseLowered u = .error .multiDColon ↔
      ∃ a b c, u = a ++ [colonByte, colonByte] ++ b ++ [colonByte, colonByte] ++ c := by
  rw [← three_pieces_iff (by simp) u [], ← split]
  rcases parseLowered_cases u with ⟨a, hs, hp⟩ | ⟨a, b, hs, hp⟩ | ⟨hs, hp⟩
  · exact iff_of_false (hp ▸ assembleGroups_ne_error (.inr rfl) _ _ _) (by simp [hs])
  · exact iff_of_false (hp ▸ assembleGroups_ne_error (.inr rfl) _ _ _) (by simp [hs])
  · exact iff_of_true hp hs

theorem map_lower_eq_dcolon_iff (x : List Byte) :
    x.map lower = [colonByte, colonByte] ↔ x = [colonByte, colonByte] := by
  constructor
  · intro h
    obtain ⟨a, y, rfl, ha, hy⟩ := List.map_eq_cons_iff.1 h
    obtain ⟨b, z, rfl, hb, hz⟩ := List.map_eq_cons_iff.1 hy
    rw [(lower_eq_colonByte_iff a).1 ha, (lower_eq_colonByte_iff b).1 hb, List.map_eq_nil_iff.1 hz]
  · rintro rfl; rfl

/-- Folding neither makes nor removes a `::`. -/
theorem two_dcolons_map_lower_iff (x : List Byte) :
    (∃ a b c, x.map lower = a ++ [colonByte, colonByte] ++ b ++ [colonByte, colonByte] ++ c) ↔
      ∃ a b c, x = a ++ [colonByte, colonByte] ++ b ++ [colonByte, colonByte] ++ c := by
  constructor
  · rintro ⟨a, b, c, h⟩
    obtain ⟨y, c', rfl, h, -⟩ := List.map_eq_append_iff.1 h
    obtain ⟨y, d₂, rfl, h, hd₂⟩ := List.map_eq_append_iff.1 h
    obtain ⟨y, b', rfl, h, -⟩ := List.map_eq_append_iff.1 h
    obtain ⟨a', d₁, rfl, -, hd₁⟩ := List.map_eq_append_iff.1 h
    rw [map_lower_eq_dcolon_iff] at hd₁ hd₂
    exact ⟨a', b', c', by rw [hd₁, hd₂]⟩
  · rintro ⟨a, b, c, rfl⟩
    exact ⟨a.map lower, b.map lower, c.map lower, by simp [(lower_eq_colonByte_iff _).2]⟩

theorem parseFn_eq_multiDColon_iff (s : List Byte) : parseFn s = .error .multiDColon ↔
    ∃ a b c, trim s = a ++ [colonByte, colonByte] ++ b ++ [colonByte, colonByte] ++ c := by
  by_cases h : trim s = []
  · rw [parseFn_of_trim_eq_nil h, h]
    exact iff_of_false nofun (by simp)
  · rw [parseFn_of_trim_ne_nil h, parseLowered_eq_multiDColon_iff, two_dcolons_map_lower_iff]

theorem parseFn_map_lower (s : List Byte) : parseFn (s.map lower) = parseFn s := by
  have hfold : lower ∘ lower = lower := funext lower_lower
  rw [parseFn, parseFn, trim_map_lower, List.map_map, hfold, List.isEmpty_map]

/-- Settles O36: the classes byte by byte; whitespace, the trimmed text, whitespace; nothing is left
exactly when all is whitespace. -/
theorem trimAndTheEmptyText : Obligations.TrimAndTheEmptyText := by
  unfold Obligations.TrimAndTheEmptyText
  refine ⟨fun b => ⟨charClass_eq_ws_iff b, charClass_eq_colon_iff b, charClass_eq_digit_iff b,
    charClass_eq_hexLc_iff b, charClass_eq_hexUc_iff b⟩, fun s => ⟨⟨_, _, eq_append_trim_append s,
    fun x hx => ?_, fun x hx => ?_, fun x hx => ?_⟩, ?_⟩⟩
  · rcases List.mem_append.1 hx with hx | hx
    · exact (isWs_iff x).1 (List.mem_takeWhile_imp hx)
    · exact (isWs_iff x).1 (List.mem_rtakeWhile_imp hx)
  · simpa [isWs] using isWs_head?_trim hx
  · simpa [isWs] using isWs_getLast?_trim hx
  · simp only [parseFn_eq_empty_iff, trim_eq_nil_iff, isWs_iff]

/-- Settles O37: trimming commutes with folding, which folds nothing twice; three pieces are two
separators without overlap. -/
theorem caseIsFoldedAndTwoDoubleColonsFail : Obligations.CaseIsFoldedAndTwoDoubleColonsFail := by
  unfold Obligations.CaseIsFoldedAndTwoDoubleColonsFail
  exact ⟨parseFn_map_lower, parseFn_eq_multiDColon_iff⟩

/-! ### The groups of an accepted text (rules R103, R104) -/

theorem groupOk_iff (x : List Byte) : groupOk x = true ↔ 1 ≤ x.length ∧ x.length ≤ 4 ∧
    ∀ b ∈ x, charClass b = .digit ∨ charClass b = .hexLc := by
  simp only [groupOk, Bool.and_eq_true, decide_eq_true_eq, List.all_eq_true, isHexDigit_iff,
    and_assoc]

/-- The eight groups that are checked and folded, `0` where `::` stood (rule R103). -/
def eightGroups (l r : List (List Byte)) : List (List Byte) :=
  l ++ List.replicate (8 - (l.length + r.length)) [0x30] ++ r

theorem eightGroups_length {l r : List (List Byte)} (h : l.length + r.length ≤ 8) :
    (eightGroups l r).length = 8 := by
  simp only [eightGroups, List.length_append, List.length_replicate]
  omega

theorem assembleGroups_tooMany (hasDc : Bool) {l r : List (List Byte)}
    (h : 8 < l.length + r.length) :
    assembleGroups hasDc l r = .error (.tooManyGroups (l.length + r.length)) := if_pos h

theorem assembleGroups_tooFew {l r : List (List Byte)} (h : l.length + r.length < 8) :
    assembleGroups false l r = .error (.tooFewGroups (l.length + r.length)) := by
  unfold assembleGroups
  rw [if_neg h.not_gt, if_pos (by simpa using h.ne)]

/-- With the right number of tokens, the first group that is none decides (rules R103, R104). -/
theorem assembleGroups_of_count {hasDc : Bool} {l r : List (List Byte)}
    (h : l.length + r.length = 8 ∨ (hasDc = true ∧ l.length + r.length < 8)) :
    assembleGroups hasDc l r =
      match (eightGroups l r).findIdx? fun x => !groupOk x with
      | some i => .error (.badGroup i)
      | none => .ok (foldGroups (eightGroups l r)) := by
  unfold assembleGroups
  rw [if_neg (by omega), if_neg]
  · rfl
  · rcases h with h | ⟨rfl, -⟩
    · simp [h]
    · simp

theorem assembleGroups_badGroup {hasDc : Bool} {l r : List (List Byte)}
    (h : l.length + r.length = 8 ∨ (hasDc = true ∧ l.length + r.length < 8)) {i : Nat}
    {x : List Byte} (hi : (eightGroups l r)[i]? = some x) (hx : groupOk x = false)
    (hbelow : ∀ (j : Nat) (y : List Byte), j < i → (eightGroups l r)[j]? = some y →
      groupOk y = true) :
    assembleGroups hasDc l r = .error (.badGroup i) := by
  obtain ⟨hlt, rfl⟩ := List.getElem?_eq_some_iff.1 hi
  have hfind : (eightGroups l r).findIdx? (fun x => !groupOk x) = some i := by
    refine List.findIdx?_eq_some_iff_getElem.2 ⟨hlt, by simp [hx], fun j hj => ?_⟩
    simp [hbelow j _ hj (List.getElem?_eq_getElem (by omega))]
  rw [assembleGroups_of_count h, hfind]

theorem assembleGroups_ok {hasDc : Bool} {l r : List (List Byte)}
    (h : l.length + r.length = 8 ∨ (hasDc = true ∧ l.length + r.length < 8))
    (hok : ∀ x ∈ eightGroups l r, groupOk x = true) :
    assembleGroups hasDc l r = .ok (foldGroups (eightGroups l r)) := by
  have hfind : (eightGroups l r).findIdx? (fun x => !groupOk x) = none :=
    List.findIdx?_eq_none_iff.2 fun x hx => by simp [hok x hx]
  rw [assembleGroups_of_count h, hfind]

/-- Only groups that match are folded to a value (rule R104). -/
theorem groupOk_of_assembleGroups_ok {hasDc : Bool} {l r : List (List Byte)} {v : Entropy}
    (h : assembleGroups hasDc l r = .ok v) : ∀ x ∈ eightGroups l r, groupOk x = true := by
  have hcount : l.length + r.length = 8 ∨ (hasDc = true ∧ l.length + r.length < 8) := by
    rcases Nat.lt_trichotomy (l.length + r.length) 8 with hlt | heq | hgt
    · cases hasDc with
      | true => exact .inr ⟨rfl, hlt⟩
      | false => rw [assembleGroups_tooFew hlt] at h; cases h
    · exact .inl heq
    · rw [assembleGroups_tooMany hasDc hgt] at h; cases h
  intro x hx
  rw [assembleGroups_of_count hcount] at h
  split at h
  · cases h
  next hfind => simpa using List.findIdx?_eq_none_iff.1 hfind x hx

/-! ### The bytes of an accepted text (rules R104, R111) -/

theorem mem_intercalate {sep : List Byte} {ps : List (List Byte)} {b : Byte}
    (h : b ∈ sep.intercalate ps) : b ∈ sep ∨ ∃ p ∈ ps, b ∈ p := by
  induction ps with
  | nil => simp at h
  | cons p ps ih =>
    cases ps with
    | nil => exact .inr ⟨p, by simp, by simpa using h⟩
    | cons q qs =>
      rw [List.intercalate_cons_cons, List.mem_append, List.mem_append] at h
      rcases h with (h | h) | h
      · exact .inr ⟨p, by simp, h⟩
      · exact .inl h
      · exact (ih h).imp_right fun ⟨r, hr, hb⟩ => ⟨r, List.mem_cons_of_mem p hr, hb⟩

/-- A byte of a side is a colon or stands in a token. -/
theorem eq_colonByte_or_mem_groupTokens {side : List Byte} {b : Byte} (h : b ∈ side) :
    b = colonByte ∨ ∃ x ∈ groupTokens side, b ∈ x := by
  rw [← intercalate_split (sep := [colonByte]) (by simp) side] at h
  rcases mem_intercalate h with h | ⟨p, hp, hb⟩
  · exact .inl (by simpa using h)
  · refine .inr ⟨p, List.mem_filter.2 ⟨hp, ?_⟩, hb⟩
    simpa using List.ne_nil_of_mem hb

theorem colon_or_hexDigit_of_groupOk {side : List Byte}
    (h : ∀ x ∈ groupTokens side, groupOk x = true) :
    ∀ b ∈ side, b = colonByte ∨ isHexDigit b = true := by
  intro b hb
  refine (eq_colonByte_or_mem_groupTokens hb).imp_right fun ⟨x, hx, hbx⟩ => ?_
  obtain ⟨-, -, hdigits⟩ := (groupOk_iff x).1 (h x hx)
  exact (isHexDigit_iff b).2 (hdigits b hbx)

theorem parseLowered_ok_bytes {u : List Byte} {v : Entropy} (h : parseLowered u = .ok v) :
    ∀ b ∈ u, b = colonByte ∨ isHexDigit b = true := by
  intro b hb
  rw [← intercalate_split (sep := [colonByte, colonByte]) (by simp) u] at hb
  rcases mem_intercalate hb with hb | ⟨side, hside, hb⟩
  · exact .inl (by simpa using hb)
  refine colon_or_hexDigit_of_groupOk (side := side) (fun x hx => ?_) b hb
  rcases parseLowered_cases u with ⟨l, hs, hp⟩ | ⟨l, r, hs, hp⟩ | ⟨-, hp⟩
  · obtain rfl : side = l := by simpa [hs] using hside
    exact groupOk_of_assembleGroups_ok (hp.symm.trans h) x (by simp [eightGroups, hx])
  · have hok := groupOk_of_assembleGroups_ok (hp.symm.trans h)
    obtain rfl | rfl : side = l ∨ side = r := by simpa [hs] using hside
    · exact hok x (by simp [eightGroups, hx])
    · exact hok x (by simp [eightGroups, hx])
  · rw [hp] at h; cases h

theorem parseFn_ok_bytes {s : List Byte} {v : Entropy} (h : parseFn s = .ok v) :
    ∀ b ∈ trim s, charClass b ∈ [.colon, .digit, .hexLc, .hexUc] := by
  intro b hb
  rw [parseFn_of_trim_ne_nil (List.ne_nil_of_mem hb)] at h
  exact charClass_of_lower (parseLowered_ok_bytes h _ (List.mem_map_of_mem hb))

/-- Settles O38: each byte is one of a separator or of a group that was checked. -/
theorem acceptedTextIsHexAndColons : Obligations.AcceptedTextIsHexAndColons := by
  unfold Obligations.AcceptedTextIsHexAndColons
  exact fun _ _ h => parseFn_ok_bytes h

/-! ### The cut of a text, and its groups' values (rules R77, R100, R103, R105) -/

theorem dcolon_infix_iff (x : List Byte) :
    [colonByte, colonByte] <:+: x ↔ ∃ a b, x = a ++ [colonByte, colonByte] ++ b :=
  exists₂_congr fun _ _ => eq_comm

theorem hexVal_of_isHexDigit {b : Byte} (h : isHexDigit b = true) :
    hexVal b = if b.toNat ≤ 0x39 then b.toNat - 0x30 else b.toNat - 0x61 + 10 := by
  revert b; decide

theorem groupVal_of_groupOk {x : List Byte} (h : groupOk x = true) :
    groupVal x = x.foldl (fun m b => 16 * m +
      if b.toNat ≤ 0x39 then b.toNat - 0x30 else b.toNat - 0x61 + 10) 0 := by
  obtain ⟨-, -, hdigits⟩ := (groupOk_iff x).1 h
  rw [groupVal_eq_foldl]
  refine List.foldl_ext _ _ _ fun m b hb => ?_
  rw [hexVal_of_isHexDigit ((isHexDigit_iff b).2 (hdigits b hb))]

section
variable {l r : List (List Byte)} (hn : l.length + r.length ≤ 8)
  (hok : ∀ x ∈ eightGroups l r, groupOk x = true)
include hn hok

/-- Where a group stands, its value lands (rule R105). -/
theorem entGroup_eightGroups {i : Nat} {x : List Byte} (hx : (eightGroups l r)[i]? = some x) :
    (entGroup (foldGroups (eightGroups l r)) i).toNat = groupVal x := by
  obtain ⟨hi, rfl⟩ := List.getElem?_eq_some_iff.1 hx
  have hlen := eightGroups_length hn
  exact entGroup_foldGroups hlen hok i (hlen ▸ hi)

theorem entGroup_left {i : Nat} (hi : i < l.length) :
    (entGroup (foldGroups (eightGroups l r)) i).toNat = groupVal (l.getD i []) := by
  refine entGroup_eightGroups hn hok ?_
  rw [eightGroups, List.append_assoc, List.getElem?_append_left hi]
  simp [hi]

theorem entGroup_zero {i : Nat} (hl : l.length ≤ i) (hr : i < 8 - r.length) :
    entGroup (foldGroups (eightGroups l r)) i = 0 := by
  refine BitVec.eq_of_toNat_eq ((entGroup_eightGroups hn hok (x := [0x30]) ?_).trans rfl)
  rw [eightGroups, List.append_assoc, List.getElem?_append_right hl,
    List.getElem?_append_left (by rw [List.length_replicate]; omega),
    List.getElem?_replicate_of_lt (by omega)]

theorem entGroup_right {i : Nat} (hi : i < r.length) :
    (entGroup (foldGroups (eightGroups l r)) (8 - r.length + i)).toNat =
      groupVal (r.getD i []) := by
  have hlen : (l ++ List.replicate (8 - (l.length + r.length)) ([0x30] : List Byte)).length =
      8 - r.length := by
    rw [List.length_append, List.length_replicate]; omega
  refine entGroup_eightGroups hn hok ?_
  rw [eightGroups, List.getElem?_append_right (by omega), hlen, Nat.add_sub_cancel_left]
  simp [hi]

end

theorem getD_mem_eightGroups_left {l r : List (List Byte)} {i : Nat} (hi : i < l.length) :
    l.getD i [] ∈ eightGroups l r := by
  rw [List.getD_eq_getElem l [] hi]
  simp [eightGroups]

theorem getD_mem_eightGroups_right {l r : List (List Byte)} {i : Nat} (hi : i < r.length) :
    r.getD i [] ∈ eightGroups l r := by
  rw [List.getD_eq_getElem r [] hi]
  simp [eightGroups]

/-- Settles O39: the pieces of a side are those of its split; `parseFn_one` and `parseFn_two` are
the cuts; then the counts, the first bad group, and the place of each group in the fold. -/
theorem groupsAreCountedCheckedAndFolded : Obligations.GroupsAreCountedCheckedAndFolded := by
  unfold Obligations.GroupsAreCountedCheckedAndFolded
  refine ⟨fun side => ?_, ?_, ?_, fun hasDc l r => ?_⟩
  · exact ⟨_, split side [colonByte], splitFrom_ne_nil (by simp) side [],
      not_mem_of_mem_splitFrom side [] (by simp), (intercalate_split (by simp) side).symm, rfl⟩
  · rintro s _ hne hnone ⟨ps, hps, hcolon, hside, rfl⟩
    rw [parseFn_one hne (mt (dcolon_infix_iff _).1 hnone), hside]
    exact congrArg (assembleGroups false · []) (groupTokens_intercalate hps hcolon)
  · rintro s _ _ _ _ hcut hleft hright ⟨ps, hps, hpcolon, rfl, rfl⟩ ⟨qs, hqs, hqcolon, rfl, rfl⟩
    rw [parseFn_two hcut (mt (dcolon_infix_iff _).1 hleft) (mt (dcolon_infix_iff _).1 hright)]
    exact congrArg₂ (assembleGroups true) (groupTokens_intercalate hps hpcolon)
      (groupTokens_intercalate hqs hqcolon)
  · refine ⟨assembleGroups_tooMany hasDc, ?_, fun hcount => ⟨fun i x hi hx hbelow => ?_,
      fun hfits => ?_⟩⟩
    · rintro rfl
      exact assembleGroups_tooFew
    · exact assembleGroups_badGroup hcount hi (Bool.eq_false_iff.2 (mt (groupOk_iff x).1 hx))
        fun j y hj hy => (groupOk_iff y).2 (hbelow j y hj hy)
    · have hok : ∀ x ∈ eightGroups l r, groupOk x = true :=
        fun x hx => (groupOk_iff x).2 (hfits x hx)
      have hn : l.length + r.length ≤ 8 := by omega
      refine ⟨_, assembleGroups_ok hcount hok, fun i hi => ?_, fun i => entGroup_zero hn hok,
        fun i hi => ?_⟩
      · rw [entGroup_left hn hok hi]
        exact groupVal_of_groupOk (hok _ (getD_mem_eightGroups_left hi))
      · rw [entGroup_right hn hok hi]
        exact groupVal_of_groupOk (hok _ (getD_mem_eightGroups_right hi))

/-! ### The rendered text (rules R107, R108) -/

/-- Two colons in a row leave an empty piece between them. -/
theorem nil_mem_splitFrom_of_double (c : Byte) (a b cur : List Byte) :
    [] ∈ splitFrom [c] (a ++ [c, c] ++ b) cur 0 := by
  have hsep (y cur : List Byte) :
      splitFrom [c] (c :: y) cur 0 = cur.reverse :: splitFrom [c] y [] 0 :=
    splitFrom_sep (by simp) y cur
  induction a generalizing cur with
  | nil =>
    show [] ∈ splitFrom [c] (c :: c :: b) cur 0
    rw [hsep, hsep]
    simp
  | cons d a ih =>
    show [] ∈ splitFrom [c] (d :: (a ++ [c, c] ++ b)) cur 0
    by_cases hd : c = d
    · rw [← hd, hsep]
      exact List.mem_cons_of_mem _ (ih [])
    · rw [splitFrom_other (mt singleton_prefix_iff.1 hd)]
      exact ih (d :: cur)

/-- The eight groups of the rendered text, most significant first (rule R107). -/
def renderedGroups (v : Entropy) : List (List Byte) :=
  (List.range 8).map fun i => hexMin (entGroup v i)

theorem renderFn_eq_intercalate (v : Entropy) :
    renderFn v = [colonByte].intercalate (renderedGroups v) := rfl

theorem renderedGroups_length (v : Entropy) : (renderedGroups v).length = 8 := by
  simp [renderedGroups]

theorem renderedGroups_ne_nil (v : Entropy) : renderedGroups v ≠ [] :=
  List.ne_nil_of_length_pos (by rw [renderedGroups_length]; decide)

theorem mem_renderedGroups {v : Entropy} {x : List Byte} (h : x ∈ renderedGroups v) :
    ∃ g, x = hexMin g := by
  obtain ⟨i, -, rfl⟩ := List.mem_map.1 h
  exact ⟨_, rfl⟩

theorem hexMin_ne_nil (g : BitVec 16) : hexMin g ≠ [] :=
  List.ne_nil_of_length_pos (hexMin_length g).1

theorem colonByte_notMem_hexMin (g : BitVec 16) : colonByte ∉ hexMin g := by
  intro h
  obtain ⟨d, hd⟩ := mem_hexMin h
  exact digitByte_ne_colon d hd.symm

/-- A rendered group that begins with `0` is `0`: no leading zero (rule R107). -/
theorem hexMin_of_head?_zero {g : BitVec 16} (h : (hexMin g).head? = some 0x30) :
    hexMin g = [0x30] := by
  obtain ⟨d, ds, heq, -, hzero, -⟩ := hexMin_cases g
  rw [heq, List.map_cons, List.head?_cons, Option.some.injEq, digitByte_eq_zero_iff] at h
  rw [heq, hzero h, h]
  rfl

theorem colonByte_notMem_renderedGroups (v : Entropy) :
    ∀ x ∈ renderedGroups v, colonByte ∉ x := by
  intro x hx
  obtain ⟨g, rfl⟩ := mem_renderedGroups hx
  exact colonByte_notMem_hexMin g

theorem groupOk_renderedGroups (v : Entropy) : ∀ x ∈ renderedGroups v, groupOk x = true := by
  intro x hx
  obtain ⟨g, rfl⟩ := mem_renderedGroups hx
  exact groupOk_hexMin g

theorem not_dcolon_infix_renderFn (v : Entropy) : ¬ [colonByte, colonByte] <:+: renderFn v := by
  rintro ⟨a, b, h⟩
  have hnil : [] ∈ split (renderFn v) [colonByte] :=
    h ▸ nil_mem_splitFrom_of_double colonByte a b []
  rw [renderFn_eq_intercalate, split_intercalate (renderedGroups_ne_nil v)
    (colonByte_notMem_renderedGroups v)] at hnil
  obtain ⟨g, hg⟩ := mem_renderedGroups hnil
  exact hexMin_ne_nil g hg.symm

/-- Settles O42: the groups are those of `hexMin`; an empty group would stand between two colons. -/
theorem renderedTextIsExpandedForm : Obligations.RenderedTextIsExpandedForm := by
  unfold Obligations.RenderedTextIsExpandedForm
  intro v
  obtain ⟨hmin, hmax⟩ := renderFn_length v
  refine ⟨⟨⟨(renderedGroups v).toArray, renderedGroups_length v⟩, rfl, fun i => ?_⟩, hmin, hmax,
    mt (dcolon_infix_iff _).2 (not_dcolon_infix_renderFn v)⟩
  have hi : (⟨(renderedGroups v).toArray, renderedGroups_length v⟩ : Vector _ 8)[i] =
      hexMin (entGroup v i) := by simp [renderedGroups]
  obtain ⟨-, -, hdigits⟩ := (groupOk_iff _).1 (groupOk_hexMin (entGroup v i))
  rw [hi]
  exact ⟨(hexMin_length _).1, (hexMin_length _).2, hdigits, groupVal_hexMin _, hexMin_of_head?_zero⟩

/-! ### Parsing what was rendered (rule R110) -/

theorem mem_renderFn {v : Entropy} {b : Byte} (h : b ∈ renderFn v) :
    b = colonByte ∨ ∃ d, b = digitByte d := by
  rcases mem_intercalate h with h | ⟨x, hx, hb⟩
  · exact .inl (by simpa using h)
  · obtain ⟨g, rfl⟩ := mem_renderedGroups hx
    exact .inr (mem_hexMin hb)

theorem isWs_digitByte (d : BitVec 4) : isWs (digitByte d) = false := by
  revert d; decide

theorem trim_renderFn (v : Entropy) : trim (renderFn v) = renderFn v := by
  refine trim_eq_self fun b hb => ?_
  rcases mem_renderFn hb with rfl | ⟨d, rfl⟩
  · rfl
  · exact isWs_digitByte d

theorem map_lower_renderFn (v : Entropy) : (renderFn v).map lower = renderFn v := by
  refine (List.map_congr_left fun b hb => ?_).trans (List.map_id _)
  rcases mem_renderFn hb with rfl | ⟨d, rfl⟩
  · rfl
  · exact lower_digitByte d

theorem groupTokens_renderFn (v : Entropy) : groupTokens (renderFn v) = renderedGroups v := by
  rw [renderFn_eq_intercalate, groupTokens_intercalate (renderedGroups_ne_nil v)
    (colonByte_notMem_renderedGroups v), List.filter_eq_self]
  intro x hx
  obtain ⟨g, rfl⟩ := mem_renderedGroups hx
  simpa using hexMin_ne_nil g

/-- An entropy is its eight groups. -/
theorem entropy_ext_entGroup {v w : Entropy} (h : ∀ i < 8, entGroup v i = entGroup w i) :
    v = w := by
  apply BitVec.eq_of_getLsbD_eq
  intro k hk
  have hbit := congrArg (·.getLsbD (k % 16)) (h (7 - k / 16) (by omega))
  have hlt : k % 16 < 16 := Nat.mod_lt k (by decide)
  have hpos : 112 - 16 * (7 - k / 16) + k % 16 = k := by omega
  simpa [entGroup, BitVec.getLsbD_extractLsb', hlt, hpos] using hbit

theorem foldGroups_renderedGroups (v : Entropy) : foldGroups (renderedGroups v) = v := by
  refine entropy_ext_entGroup fun i hi => BitVec.eq_of_toNat_eq ?_
  rw [entGroup_foldGroups (renderedGroups_length v) (groupOk_renderedGroups v) i hi]
  simp [renderedGroups, groupVal_hexMin]

theorem assembleGroups_renderedGroups (v : Entropy) :
    assembleGroups false (renderedGroups v) [] = .ok v := by
  have height : eightGroups (renderedGroups v) [] = renderedGroups v := by
    simp [eightGroups, renderedGroups_length]
  rw [assembleGroups_ok (.inl (by simp [renderedGroups_length]))
    (height ▸ groupOk_renderedGroups v), height, foldGroups_renderedGroups]

/-- `parse_fn` undoes `render_fn` (rule R110). -/
theorem parseFn_renderFn (v : Entropy) : parseFn (renderFn v) = .ok v := by
  have hlower : (trim (renderFn v)).map lower = renderFn v := by
    rw [trim_renderFn, map_lower_renderFn]
  have hne : trim (renderFn v) ≠ [] := by
    rw [trim_renderFn]
    exact List.ne_nil_of_length_pos (Nat.lt_of_lt_of_le (by decide) (renderFn_length v).1)
  have hnone : ¬ [colonByte, colonByte] <:+: (trim (renderFn v)).map lower := by
    rw [hlower]
    exact not_dcolon_infix_renderFn v
  rw [parseFn_one hne hnone, hlower, groupTokens_renderFn,
    assembleGroups_renderedGroups]

/-! ### The commands (rules R106, R109) -/

theorem exec_parse_ok {s : State} {v : Entropy} (h : parseFn s.textString = .ok v) :
    exec .parse s = .next ((s.setEnt v).setStatus 0) := by
  rw [exec_eq_finish (by decide), stepsOf, parseStep, h]
  rfl

theorem exec_parse_error {s : State} {c : Cause} (h : parseFn s.textString = .error c) :
    exec .parse s = .next ((s.setEnt 0).setStatus c.status) := by
  rw [exec_eq_finish (by decide), stepsOf, parseStep, h]
  rfl

/-- RENDER writes the text of `ENT`, zeros past it, and its length (rule R109). -/
theorem exec_render (s : State) : ∃ t, exec .render s = .next t ∧
    t.textLen.toNat = (renderFn s.ent).length ∧ t.textString = renderFn s.ent ∧
    (∀ i : Fin 64, t.text[i] = (renderFn s.ent).getD i 0) ∧
    t = ((s.setText t.text).setTextLen t.textLen).setStatus 0 := by
  obtain ⟨t, ht, hlen, hstring, hbytes, hframe⟩ := renderStep_ok s
  refine ⟨t.setStatus 0, ?_, hlen, hstring, hbytes, congrArg (·.setStatus 0) hframe⟩
  rw [exec_eq_finish (by decide), stepsOf, ht, finish_ok]

/-- Settles O41: `exec_render`, clause by clause. -/
theorem renderWritesTextAndLength : Obligations.RenderWritesTextAndLength := by
  unfold Obligations.RenderWritesTextAndLength
  intro s
  obtain ⟨t, ht, hlen, hstring, hbytes, hframe⟩ := exec_render s
  exact ⟨t, ht, hlen, hbytes, hstring, hframe⟩

/-- Settles O43: the text of RENDER is what PARSE reads, the value of PARSE what RENDER writes. -/
theorem parseOfRenderIsTheValue : Obligations.ParseOfRenderIsTheValue := by
  unfold Obligations.ParseOfRenderIsTheValue
  refine ⟨parseFn_renderFn, fun s => ?_, fun s v hv => ?_⟩
  · obtain ⟨t, ht, -, hstring, -⟩ := exec_render s
    exact ⟨t, _, ht, exec_parse_ok (hstring ▸ parseFn_renderFn s.ent), rfl, rfl⟩
  · obtain ⟨u, hu, -, hstring, -⟩ := exec_render ((s.setEnt v).setStatus 0)
    exact ⟨_, u, exec_parse_ok hv, hu, hstring⟩

/-- A `STATUS` value is its four fields at their places (rule R34). -/
theorem toNat_eq_status_fields (st : StatusBits) :
    st.toNat = (statusErr st).toNat + 16 * (statusSub st).toNat + 256 * (statusInfo st).toNat +
      65536 * (statusHit st).toNat := by
  have hlt := st.isLt
  simp only [statusErr, statusSub, statusInfo, statusHit, BitVec.extractLsb'_toNat,
    Nat.shiftRight_eq_div_pow]
  omega

/-- Settles O34: `STATUS` by its fields; PARSE by what `parseFn` answers, whose errors are those of
`parseFn_error`. -/
theorem parseWritesEntropyOrReports : Obligations.ParseWritesEntropyOrReports := by
  unfold Obligations.ParseWritesEntropyOrReports
  refine ⟨fun err sub info hit => ⟨?_, statusErr_mkStatus _ _ _ _, statusSub_mkStatus _ _ _ _,
    statusInfo_mkStatus _ _ _ _, statusHit_mkStatus _ _ _ _⟩, fun s => ⟨fun v => exec_parse_ok,
    exec_parse_error, exec_parse_error, fun n => exec_parse_error, fun n => exec_parse_error,
    fun i => exec_parse_error, fun c hc => ?_⟩⟩
  · rw [toNat_eq_status_fields, statusErr_mkStatus, statusSub_mkStatus, statusInfo_mkStatus,
      statusHit_mkStatus]
  · rcases parseFn_error hc with hc | hc | ⟨n, -, -, hc⟩ | ⟨n, hn, hc⟩ | ⟨i, hi, hc⟩
    · exact .inl hc
    · exact .inr (.inl hc)
    · exact .inr (.inr (.inl ⟨n, hc⟩))
    · exact .inr (.inr (.inr (.inl ⟨n, Nat.le_of_lt_succ hn, hc⟩)))
    · exact .inr (.inr (.inr (.inr ⟨i, Nat.le_of_lt_succ hi, hc⟩)))

end Sys2Proof.Machine

/-! ## Entropy and its bytes (rules R120 to R123) -/

namespace Sys2Proof.Machine

/-! ### The two functions (rules R120, R123) -/

theorem getElem_toBytes (v : Entropy) {i : Nat} (h : i < 16) : (toBytes v)[i] = entByte v i := by
  simp [toBytes]

theorem fromBytes_toBytes (v : Entropy) : fromBytes (toBytes v) = v :=
  entropy_ext fun i => (entByte_fromBytes (toBytes v) i).trans (getElem_toBytes v i.isLt)

theorem toBytes_fromBytes (b : EntropyBytes) : toBytes (fromBytes b) = b :=
  Vector.ext fun i hi => (getElem_toBytes (fromBytes b) hi).trans (entByte_fromBytes b ⟨i, hi⟩)

/-! ### The bytes word by word (rules R52, R54) -/

/-- A word is its four lanes. -/
theorem eq_of_lane {v w : Word} (h : ∀ m : Fin 4, lane v m = lane w m) : v = w := by
  rw [← cat4_lane v, ← cat4_lane w]
  exact congrArg₂ _ (congrArg₂ _ (congrArg₂ _ (h 0) (h 1)) (h 2)) (h 3)

/-- The lanes of word `j` of an entropy are its bytes `4j .. 4j+3`. -/
theorem lane_entWord (v : Entropy) (j m : Fin 4) : lane (entWord v j) m = entByte v (4 * j + m) := by
  have hplace : 96 - 32 * j.val + (24 - 8 * m.val) = 120 - 8 * (4 * j.val + m.val) := by omega
  ext k hk
  have hlt : 24 - 8 * m.val + k < 32 := by omega
  simp [lane, entWord, entByte, hlt, ← hplace, Nat.add_assoc]

theorem laneWord_toBytes (v : Entropy) (j : Fin 4) : laneWord (toBytes v) j = entWord v j := by
  refine eq_of_lane fun m => ?_
  rw [lane_laneWord_of_le (toBytes v) m (by omega), getElem_toBytes, lane_entWord]

/-! ### The commands (rules R121 to R123) -/

theorem exec_e2b (s : State) : exec .e2b s = .next ((s.setBytes (toBytes s.ent)).setStatus 0) := by
  rw [exec_eq_finish (by decide), stepsOf, e2bStep, finish_ok]

theorem exec_b2e (s : State) : exec .b2e s = .next ((s.setEnt (fromBytes s.bytes)).setStatus 0) := by
  rw [exec_eq_finish (by decide), stepsOf, b2eStep, finish_ok]

theorem eq_of_exec_e2b {s t : State} (h : exec .e2b s = .next t) :
    t = (s.setBytes (toBytes s.ent)).setStatus 0 :=
  (Host.Outcome.next.inj ((exec_e2b s).symm.trans h)).symm

theorem eq_of_exec_b2e {s t : State} (h : exec .b2e s = .next t) :
    t = (s.setEnt (fromBytes s.bytes)).setStatus 0 :=
  (Host.Outcome.next.inj ((exec_b2e s).symm.trans h)).symm

/-- Settles O16: E2B writes `toBytes`, whose elements are the entropy's bytes. -/
theorem e2bWritesBigEndianBytes : Obligations.E2bWritesBigEndianBytes := by
  unfold Obligations.E2bWritesBigEndianBytes
  exact fun s => ⟨_, exec_e2b s, fun i => getElem_toBytes s.ent i.isLt, rfl⟩

/-- Settles O17: B2E writes `fromBytes`, of which each byte is the one folded in. -/
theorem b2eConcatenatesTheBytes : Obligations.B2eConcatenatesTheBytes := by
  unfold Obligations.B2eConcatenatesTheBytes
  exact fun s => ⟨_, exec_b2e s, entByte_fromBytes s.bytes, rfl⟩

/-- Settles O18: the commands apply the two functions, which undo each other; the words of the bytes
agree with those of the entropy lane by lane. -/
theorem entropyAndBytesAreInverses : Obligations.EntropyAndBytesAreInverses := by
  unfold Obligations.EntropyAndBytesAreInverses
  refine ⟨fromBytes_toBytes, toBytes_fromBytes, fun s t u => ⟨fun ht j => ?_, fun ht hu => ?_,
    fun ht hu => ?_⟩⟩
  · simp [eq_of_exec_e2b ht, readReg, laneWord_toBytes]
  · simp [eq_of_exec_b2e hu, eq_of_exec_e2b ht, fromBytes_toBytes]
  · simp [eq_of_exec_e2b hu, eq_of_exec_b2e ht, toBytes_fromBytes]

end Sys2Proof.Machine

/-! ## The hash and the checksum (rules R130, R134 to R137) -/

namespace Sys2Proof.Machine

/-! ### The message block (rule R134) -/

theorem messageBlock_length (b : EntropyBytes) : (messageBlock b).length = 16 := rfl

/-- The block's first four words are those of the message, its bytes big-endian. -/
theorem messageBlock_message (b : EntropyBytes) (j : Fin 4) :
    (messageBlock b)[j.val]? = some
      (b[4 * j.val] ++ b[4 * j.val + 1] ++ b[4 * j.val + 2] ++ b[4 * j.val + 3]) := by
  have hword : (messageBlock b)[j.val]? = some (laneWord b j) := by fin_cases j <;> rfl
  have hbyte {i : Nat} (h : i < 16) : byteAt b i = b[i] := byteAt_of_lt b h
  rw [hword, laneWord, hbyte, hbyte, hbyte, hbyte]

/-- The zeros between the padding bit and the length. -/
theorem messageBlock_zeros (b : EntropyBytes) {t : Nat} (h5 : 5 ≤ t) (h14 : t ≤ 14) :
    (messageBlock b)[t]? = some 0 := by
  interval_cases t <;> rfl

/-- Settles O20: the words of the literal block. -/
theorem messageBlockIsPaddedTo512Bits : Obligations.MessageBlockIsPaddedTo512Bits := by
  unfold Obligations.MessageBlockIsPaddedTo512Bits
  exact fun b => ⟨messageBlock_length b, messageBlock_message b, rfl,
    fun _ => messageBlock_zeros b, rfl⟩

/-! ### The message schedule (rule R135) -/

/-- `W[t-16] + s0(W[t-15]) + W[t-7] + s1(W[t-2])`, of the words oldest first. -/
def scheduleWord (w : List Word) (t : Nat) : Word :=
  w.getD (t - 16) 0 + smallSigma0 (w.getD (t - 15) 0) + w.getD (t - 7) 0 +
    smallSigma1 (w.getD (t - 2) 0)

/-- Every word past the first 16 obeys the recurrence. -/
def IsSchedule (w : List Word) : Prop :=
  ∀ t, 16 ≤ t → t < w.length → w.getD t 0 = scheduleWord w t

/-- The recurrence looks back only. -/
theorem scheduleWord_append (w x : List Word) {t : Nat} (h16 : 16 ≤ t) (h : t ≤ w.length) :
    scheduleWord (w ++ x) t = scheduleWord w t := by
  have hpos : 0 < t := Nat.lt_of_lt_of_le (by decide) h16
  have hold {k : Nat} (hk : 0 < k) : (w ++ x).getD (t - k) 0 = w.getD (t - k) 0 :=
    List.getD_append w x 0 _ (Nat.lt_of_lt_of_le (Nat.sub_lt hpos hk) h)
  rw [scheduleWord, hold (k := 16) (by decide), hold (k := 15) (by decide),
    hold (k := 7) (by decide), hold (k := 2) (by decide), scheduleWord]

theorem IsSchedule.snoc {w : List Word} (hw : IsSchedule w) :
    IsSchedule (w ++ [scheduleWord w w.length]) := by
  intro t ht hlt
  rw [List.length_append, List.length_singleton] at hlt
  rcases Nat.lt_succ_iff_lt_or_eq.1 hlt with hold | rfl
  · rw [List.getD_append _ _ _ _ hold, scheduleWord_append w _ ht hold.le, hw t ht hold]
  · rw [scheduleWord_append w _ ht le_rfl, List.getD_append_right _ _ _ _ le_rfl]
    simp

/-- `k + 1` words back from the end, as the newest-first list holds it. -/
theorem getD_reverse_back (w : List Word) {k : Nat} (h : k < w.length) :
    w.reverse.getD (w.length - (k + 1)) 0 = w.getD k 0 := by
  have hk : w.length - 1 - (w.length - (k + 1)) = k := by omega
  rw [List.getD_eq_getElem?_getD, List.getElem?_reverse (by omega), hk, List.getD_eq_getElem?_getD]

/-- One more word of the schedule, in the order of the rule. -/
theorem extendSchedule_succ {w : List Word} (n : Nat) (h16 : 16 ≤ w.length) :
    extendSchedule (n + 1) w = extendSchedule n (scheduleWord w.reverse w.length :: w) := by
  have hback {k : Nat} (hk : k < 16) :
      w.reverse.getD (w.length - (k + 1)) 0 = w.getD k 0 := getD_reverse_back w (by omega)
  have hword : scheduleWord w.reverse w.length = w.getD 15 0 + smallSigma0 (w.getD 14 0) +
      w.getD 6 0 + smallSigma1 (w.getD 1 0) := by
    rw [scheduleWord, hback (k := 15) (by decide), hback (k := 14) (by decide),
      hback (k := 6) (by decide), hback (k := 1) (by decide)]
  rw [hword, extendSchedule]

theorem extendSchedule_length (n : Nat) (w : List Word) :
    (extendSchedule n w).length = w.length + n := by
  induction n generalizing w with
  | zero => rfl
  | succ n ih => rw [extendSchedule, ih, List.length_cons]; omega

theorem extendSchedule_suffix (n : Nat) (w : List Word) : w <:+ extendSchedule n w := by
  induction n generalizing w with
  | zero => exact List.suffix_rfl
  | succ n ih => exact (List.suffix_cons _ w).trans (ih _)

theorem IsSchedule.extend {w : List Word} (hw : IsSchedule w.reverse)
    (h16 : 16 ≤ w.length) (n : Nat) : IsSchedule (extendSchedule n w).reverse := by
  induction n generalizing w with
  | zero => exact hw
  | succ n ih =>
    have hsnoc := hw.snoc
    rw [List.length_reverse, ← List.reverse_cons] at hsnoc
    rw [extendSchedule_succ n h16]
    exact ih hsnoc (Nat.le_succ_of_le h16)

section
variable {block : List Word} (h : block.length = 16)
include h

theorem schedule_length : (schedule block).length = 64 := by
  rw [schedule, List.length_reverse, extendSchedule_length, List.length_reverse, h]

theorem schedule_isSchedule : IsSchedule (schedule block) := by
  have hblock : IsSchedule block.reverse.reverse := by
    intro t ht hlt
    rw [List.reverse_reverse] at hlt
    omega
  exact hblock.extend (by rw [List.length_reverse, h]) 48

end

theorem prefix_schedule (block : List Word) : block <+: schedule block := by
  have hsuffix := List.reverse_prefix.2 (extendSchedule_suffix 48 block.reverse)
  rwa [List.reverse_reverse] at hsuffix

/-- Settles O21: the schedule begins with the block, and every extension keeps the recurrence. -/
theorem scheduleObeysItsRecurrence : Obligations.ScheduleObeysItsRecurrence := by
  unfold Obligations.ScheduleObeysItsRecurrence
  intro block h
  refine ⟨schedule_length h, fun t ht => ?_, fun t ht hlt => ?_⟩
  · exact (List.prefix_iff_getElem?.1 (prefix_schedule block) t (h ▸ ht)).trans
      (List.getElem?_eq_getElem (h ▸ ht)).symm
  · exact schedule_isSchedule h t ht (by rwa [schedule_length h])

/-! ### The rounds (rule R135) -/

theorem hashRounds_append (x y : List (Word × Word)) (v : Working) :
    hashRounds (x ++ y) v = hashRounds y (hashRounds x v) := by
  induction x generalizing v with
  | nil => rfl
  | cons kw x ih => exact ih _

/-- The working variables before round `t`, after the `t` rounds before it. -/
def workingAt (b : EntropyBytes) (t : Nat) : Working :=
  hashRounds ((roundConstants.zip (schedule (messageBlock b))).take t) initialHash

theorem workingAt_zero (b : EntropyBytes) : workingAt b 0 = initialHash := rfl

theorem roundConstants_length : roundConstants.length = 64 := rfl

theorem messageSchedule_length (b : EntropyBytes) : (schedule (messageBlock b)).length = 64 :=
  schedule_length (messageBlock_length b)

theorem rounds_length (b : EntropyBytes) :
    (roundConstants.zip (schedule (messageBlock b))).length = 64 := by
  rw [List.length_zip, roundConstants_length, messageSchedule_length, Nat.min_self]

theorem workingAt_last (b : EntropyBytes) : workingAt b 64 = compressed b := by
  rw [workingAt, List.take_of_length_le (rounds_length b).le, compressed]

theorem workingAt_succ (b : EntropyBytes) {t : Nat} (h : t < 64) :
    workingAt b (t + 1) = hashRound (workingAt b t) (roundConstants.getD t 0)
      ((schedule (messageBlock b)).getD t 0) := by
  have hk : t < roundConstants.length := h
  have hw : t < (schedule (messageBlock b)).length := by rwa [messageSchedule_length]
  have hkw : t < (roundConstants.zip (schedule (messageBlock b))).length := by rwa [rounds_length]
  rw [workingAt, List.take_succ_eq_append_getElem hkw, hashRounds_append, List.getElem_zip,
    List.getD_eq_getElem _ _ hk, List.getD_eq_getElem _ _ hw, workingAt]
  rfl

/-! ### The digest and the checksum (rules R130, R135, R137) -/

/-- The working variables in the order of the digest words. -/
def Working.words (v : Working) : Vector Word 8 := #v[v.a, v.b, v.c, v.d, v.e, v.f, v.g, v.h]

theorem digestWords_getD (b : EntropyBytes) (i : Fin 8) :
    (digestWords b).getD i 0 = initialHash.words[i] + (workingAt b 64).words[i] := by
  rw [workingAt_last, digestWords]
  generalize compressed b = v
  fin_cases i <;> rfl

/-- Digest byte `4i + m` is byte `m` of digest word `i`, the most significant first. -/
theorem getElem_hash256 (b : EntropyBytes) (i : Fin 8) (m : Fin 4) :
    (hash256 b)[4 * i.val + m.val] = lane ((digestWords b).getD i 0) m := by
  have hdiv : (4 * i.val + m.val) / 4 = i := by omega
  have hmod : (4 * i.val + m.val) % 4 = m := by omega
  rw [hash256, Vector.getElem_ofFn, hdiv, hmod]

theorem hash256_eq_sum (b : EntropyBytes) (i : Fin 8) (m : Fin 4) :
    (hash256 b)[4 * i.val + m.val] =
      (initialHash.words[i] + (workingAt b 64).words[i]).extractLsb' (24 - 8 * m) 8 := by
  rw [getElem_hash256, digestWords_getD, lane]

theorem cksum4_eq (b : EntropyBytes) : cksum4 b = (hash256 b)[0].extractLsb' 4 4 := by
  rw [cksum4, byteAt_of_lt _ (by decide)]

theorem toNat_cksum4 (b : EntropyBytes) : (cksum4 b).toNat = (hash256 b)[0].toNat / 16 := by
  have hlt := (hash256 b)[0].isLt
  rw [cksum4_eq, BitVec.extractLsb'_toNat, Nat.shiftRight_eq_div_pow, Nat.mod_eq_of_lt (by omega)]

/-- The checksum is the top nibble of the first sum (rule R137). -/
theorem cksum4_eq_sum (b : EntropyBytes) :
    cksum4 b = (initialHash.a + (workingAt b 64).a).extractLsb' 28 4 := by
  have hbyte : (hash256 b)[0] = (initialHash.a + (workingAt b 64).a).extractLsb' 24 8 :=
    hash256_eq_sum b 0 0
  rw [cksum4_eq, hbyte]
  ext i hi
  have hlt : 4 + i < 8 := by omega
  simp [hlt, ← Nat.add_assoc]

theorem exec_cksum (s : State) : exec .cksum s = .next ((s.setChk (cksum4 s.bytes)).setStatus 0) := by
  rw [exec_eq_finish (by decide), stepsOf, cksumStep, finish_ok]

/-- What CKSUM leaves as it was, for a checksum that is a variable: the kernel would compute the
digest in its place. -/
theorem setChk_setStatus_frame (s : State) (v : Checksum) :
    (s.setChk v).setStatus 0 = { s with chk := ((s.setChk v).setStatus 0).chk, status := 0 } := rfl

/-- Settles O19: CKSUM writes `cksum4`. -/
theorem cksumTakesTheHighNibble : Obligations.CksumTakesTheHighNibble := by
  unfold Obligations.CksumTakesTheHighNibble
  exact fun s => ⟨_, exec_cksum s, toNat_cksum4 s.bytes, setChk_setStatus_frame s _⟩

/-- Settles O22: the sequence is `workingAt`. -/
theorem digestIsTheCompressedBlock : Obligations.DigestIsTheCompressedBlock := by
  unfold Obligations.DigestIsTheCompressedBlock
  exact fun b => ⟨workingAt b, workingAt_zero b, fun t => workingAt_succ b, hash256_eq_sum b,
    cksum4_eq_sum b⟩

end Sys2Proof.Machine

/-! ## The mnemonic codec (rules R151 to R165) -/

namespace Sys2Proof.Machine

/-! ### A command from how its steps end (rules R9, R240) -/

theorem exec_of_steps_ok {i : Instr} (hi : i ≠ .lookup) {s t : State} (h : stepsOf i s = .ok t) :
    exec i s = .next (t.setStatus 0) := by
  rw [exec_eq_finish hi, h, finish_ok]

theorem exec_of_steps_error {i : Instr} (hi : i ≠ .lookup) {s : State} {c : Cause}
    (h : stepsOf i s = .error c) : exec i s = .next (raise (dests i) c s) := by
  rw [exec_eq_finish hi, h, finish_error]

/-! ### PACK and UNPACK (rules R152 to R154) -/

/-- The twelve slices of a packed value, most significant first (rule R151). -/
def slices (p : Packed) : Vector Index 12 := Vector.ofFn fun k => slice p k

theorem getElem_slices (p : Packed) {k : Nat} (h : k < 12) : (slices p)[k] = slice p k := by
  simp [slices]

theorem slices_foldIndices (v : Vector Index 12) : slices (foldIndices v) = v :=
  Vector.ext fun k hk => (getElem_slices _ hk).trans (slice_foldIndices v ⟨k, hk⟩)

theorem exec_pack (s : State) :
    exec .pack s = .next ((s.setIdx (slices (packed s.ent s.chk))).setStatus 0) :=
  exec_of_steps_ok (by decide) rfl

/-- UNPACK's step in terms of the packed value that the indices make up. -/
theorem unpackStep_of_packed {s : State} {e : Entropy} {c : Checksum}
    (h : foldIndices s.idx = packed e c) : unpackStep s = .ok ((s.setChk c).setEnt e) := by
  rw [unpackStep, h, packed_ent, packed_chk]

theorem exec_unpack {s : State} {e : Entropy} {c : Checksum} (h : foldIndices s.idx = packed e c) :
    exec .unpack s = .next (((s.setChk c).setEnt e).setStatus 0) :=
  exec_of_steps_ok (i := .unpack) (by decide) (unpackStep_of_packed h)

/-- The indices of every state make up a packed value. -/
theorem exists_foldIndices_eq_packed (v : Vector Index 12) : ∃ e c, foldIndices v = packed e c :=
  ⟨_, _, (packed_split (foldIndices v)).symm⟩

/-- PACK, then UNPACK (rule R154). -/
theorem exec_unpack_of_exec_pack {s t : State} (h : exec .pack s = .next t) :
    exec .unpack t = .next (((t.setChk s.chk).setEnt s.ent).setStatus 0) := by
  obtain rfl := Host.Outcome.next.inj ((exec_pack s).symm.trans h)
  exact exec_unpack (foldIndices_slices _)

/-- Settles O23: PACK writes `slices`. -/
theorem packWritesTheSlices : Obligations.PackWritesTheSlices := by
  unfold Obligations.PackWritesTheSlices
  exact fun s => ⟨_, exec_pack s, fun k => getElem_slices _ k.isLt, rfl⟩

/-- Settles O24: UNPACK writes the two parts of the folded indices, whose slices are the indices. -/
theorem unpackConcatenatesTheIndices : Obligations.UnpackConcatenatesTheIndices := by
  unfold Obligations.UnpackConcatenatesTheIndices
  intro s
  obtain ⟨e, c, hp⟩ := exists_foldIndices_eq_packed s.idx
  refine ⟨_, exec_unpack hp, fun k => ?_, rfl⟩
  calc slice (packed e c) k = slice (foldIndices s.idx) k := by rw [hp]
    _ = s.idx[k] := slice_foldIndices s.idx k

/-- Settles O25: folding and slicing undo each other. -/
theorem packAndUnpackAreInverses : Obligations.PackAndUnpackAreInverses := by
  unfold Obligations.PackAndUnpackAreInverses
  refine fun s t u => ⟨fun ht hu => ?_, fun ht hu => ?_⟩
  · obtain rfl := Host.Outcome.next.inj ((exec_unpack_of_exec_pack ht).symm.trans hu)
    exact ⟨rfl, rfl⟩
  · obtain ⟨e, c, hp⟩ := exists_foldIndices_eq_packed s.idx
    obtain rfl := Host.Outcome.next.inj ((exec_unpack hp).symm.trans ht)
    obtain rfl := Host.Outcome.next.inj ((exec_pack _).symm.trans hu)
    calc slices (packed e c) = slices (foldIndices s.idx) := by rw [hp]
      _ = s.idx := slices_foldIndices s.idx

/-! ### VERIFY (rules R156, R157, R165) -/

theorem verifyStep_of_eq {s : State} (h : cksum4 (toBytes s.ent) = s.chk) :
    verifyStep s = .ok s := by
  rw [verifyStep, verifyFn, if_pos (beq_iff_eq.2 h)]

theorem verifyStep_of_ne {s : State} (h : cksum4 (toBytes s.ent) ≠ s.chk) :
    verifyStep s = .error .checksum := by
  rw [verifyStep, verifyFn, if_neg (mt beq_iff_eq.1 h)]

theorem exec_verify_ok {s : State} (h : cksum4 (toBytes s.ent) = s.chk) :
    exec .verify s = .next (s.setStatus 0) :=
  exec_of_steps_ok (i := .verify) (by decide) (verifyStep_of_eq h)

theorem exec_verify_error {s : State} (h : cksum4 (toBytes s.ent) ≠ s.chk) :
    exec .verify s = .next (s.setStatus 0x00003) :=
  exec_of_steps_error (i := .verify) (by decide) (verifyStep_of_ne h)

/-- VERIFY's two answers in one. -/
theorem exec_verify (s : State) : exec .verify s =
    .next (s.setStatus (if s.chk = cksum4 (toBytes s.ent) then 0 else 0x00003)) := by
  split
  next h => exact exec_verify_ok h.symm
  next h => exact exec_verify_error (Ne.symm h)

/-- Settles O26: `exec_verify_ok` and `exec_verify_error`. -/
theorem verifyComparesAndWritesNothing : Obligations.VerifyComparesAndWritesNothing := by
  unfold Obligations.VerifyComparesAndWritesNothing
  exact fun s => ⟨exec_verify_ok, exec_verify_error⟩

/-- The checksum is in the low 4 bits: what is cut out above them is the entropy's. -/
theorem extractLsb'_packed_congr (e : Entropy) (c d : Checksum) {start : Nat} (h : 4 ≤ start)
    (len : Nat) : (packed e c).extractLsb' start len = (packed e d).extractLsb' start len :=
  (BitVec.extractLsb'_append_eq_of_le h).trans (BitVec.extractLsb'_append_eq_of_le h).symm

/-- The first eleven indices hold entropy only. -/
theorem slice_packed_congr (e : Entropy) (c d : Checksum) {k : Nat} (h : k < 11) :
    slice (packed e c) k = slice (packed e d) k :=
  extractLsb'_packed_congr e c d (by omega) 11

/-- The last index is the low 11 bits, so its high 7 bits are bits 10:4. -/
theorem extractLsb'_slice_last (p : Packed) :
    (slice p 11).extractLsb' 4 7 = p.extractLsb' 4 7 := by
  ext i hi
  simp [slice]

/-- Settles O33: PACK and UNPACK give back the entropy and the claimed checksum, which VERIFY compares
with the true one; the checksum reaches the low 4 bits of the last index only. -/
theorem everyOtherChecksumOfAnEntropyFails : Obligations.EveryOtherChecksumOfAnEntropyFails := by
  unfold Obligations.EveryOtherChecksumOfAnEntropyFails
  intro s c
  generalize hd : cksum4 (toBytes s.ent) = d
  have hpack := exec_pack { s with chk := c }
  refine ⟨_, _, _, hpack, exec_unpack_of_exec_pack hpack, exec_verify _, rfl, ?_, fun k => ?_, ?_⟩
  · rw [← hd]
    rfl
  · exact (getElem_slices _ (by omega)).trans (slice_packed_congr s.ent c d k.isLt)
  · have hlast : (slices (packed s.ent c))[11] = slice (packed s.ent c) 11 := getElem_slices _ _
    calc (slices (packed s.ent c))[11].extractLsb' 4 7
      _ = (packed s.ent c).extractLsb' 4 7 := by rw [hlast, extractLsb'_slice_last]
      _ = (packed s.ent d).extractLsb' 4 7 := extractLsb'_packed_congr s.ent c d le_rfl 7
      _ = (slice (packed s.ent d) 11).extractLsb' 4 7 := (extractLsb'_slice_last _).symm

/-! ### The wordlist's read port (rules R11, R36) -/

section
variable {wl : List WordKey} {i : Index}

theorem wlAt_of_getElem? {w : WordKey} (h : wl[i.toNat]? = some w) : wlAt wl i = w := by
  rw [wlAt, List.getD_eq_getElem?_getD, h, Option.getD_some]

theorem getElem?_eq_wlAt (h : i.toNat < wl.length) : wl[i.toNat]? = some (wlAt wl i) := by
  rw [wlAt, List.getD_eq_getElem _ _ h, List.getElem?_eq_getElem h]

/-- Eleven bits reach no further than a wordlist of the size of rule R5. -/
theorem index_lt_of_valid (h : Wordlist.valid wl) : i.toNat < wl.length := by
  rw [h.size]
  exact i.isLt

end

/-! ### The wordlist's match port (rules R158, R159) -/

theorem cam_eq_idxOf? (wl : List WordKey) (k : WordKey) :
    cam wl k = (wl.idxOf? (foldKey k)).map (BitVec.ofNat 11) := rfl

theorem idxOf?_eq_some_iff_getElem? {α : Type} [BEq α] [LawfulBEq α] {l : List α} {a : α} {n : Nat} :
    l.idxOf? a = some n ↔ l[n]? = some a ∧ ∀ j, j < n → l[j]? ≠ some a := by
  rw [List.idxOf?_eq_some_iff]
  constructor
  · rintro ⟨hn, ha, hlow⟩
    refine ⟨List.getElem?_eq_some_iff.2 ⟨hn, ha⟩, fun j hj hja => ?_⟩
    obtain ⟨_, hja'⟩ := List.getElem?_eq_some_iff.1 hja
    exact hlow j hj hja'
  · rintro ⟨ha, hlow⟩
    obtain ⟨hn, ha⟩ := List.getElem?_eq_some_iff.1 ha
    exact ⟨hn, ha, fun j hj hja =>
      hlow j hj (List.getElem?_eq_some_iff.2 ⟨hj.trans hn, hja⟩)⟩

/-- The CAM misses a key exactly when no entry is its fold. -/
theorem cam_eq_none_iff (wl : List WordKey) (k : WordKey) : cam wl k = none ↔ foldKey k ∉ wl := by
  rw [cam_eq_idxOf?, Option.map_eq_none_iff, List.idxOf?_eq_none_iff]

/-- The CAM hits the lowest entry that is the key's fold; the bound lets an index name every entry. -/
theorem cam_eq_some_iff {wl : List WordKey} (hlen : wl.length ≤ 2048) (k : WordKey) (i : Index) :
    cam wl k = some i ↔
      wl[i.toNat]? = some (foldKey k) ∧ ∀ j, j < i.toNat → wl[j]? ≠ some (foldKey k) := by
  rw [← idxOf?_eq_some_iff_getElem?, cam_eq_idxOf?, Option.map_eq_some_iff]
  constructor
  · rintro ⟨n, hn, rfl⟩
    obtain ⟨hlt, -⟩ := List.idxOf?_eq_some_iff.1 hn
    rwa [BitVec.toNat_ofNat, Nat.mod_eq_of_lt (by omega)]
  · exact fun h => ⟨i.toNat, h, by rw [BitVec.ofNat_toNat, BitVec.setWidth_eq]⟩

/-- Settles O27: the key `f` is the fold of `k`. -/
theorem camFindsTheLowestExactMatch : Obligations.CamFindsTheLowestExactMatch := by
  unfold Obligations.CamFindsTheLowestExactMatch
  intro wl k f hlen hf
  obtain rfl : f = foldKey k :=
    Vector.ext fun j hj => (hf ⟨j, hj⟩).trans (foldKey_get k ⟨j, hj⟩).symm
  exact ⟨cam_eq_some_iff hlen k, cam_eq_none_iff wl k⟩

section
variable {wl : List WordKey} (hv : Wordlist.valid wl)
include hv

/-- Only a key that is canonical after folding can be found. -/
theorem cam_of_not_canonical {k : WordKey} (h : (foldKey k).canonical = false) :
    cam wl k = none := by
  refine (cam_eq_none_iff wl k).2 fun hmem => ?_
  rw [hv.keys _ hmem] at h
  cases h

/-- The index the CAM answers names the key's fold. -/
theorem getElem?_of_cam {k : WordKey} {i : Index} (h : cam wl k = some i) :
    wl[i.toNat]? = some (foldKey k) :=
  ((cam_eq_some_iff hv.size.le k i).1 h).1

/-- The CAM finds each entry where it stands, since it is canonical and stands nowhere else. -/
theorem cam_of_getElem? {k : WordKey} {i : Index} (h : wl[i.toNat]? = some k) :
    cam wl k = some i := by
  have hfold : foldKey k = k := foldKey_of_canonical (hv.keys k (List.mem_of_getElem? h))
  rw [cam_eq_some_iff hv.size.le, hfold]
  refine ⟨h, fun j hj hjk => ?_⟩
  have hsame : j = i.toNat :=
    (List.getElem?_inj (hj.trans (index_lt_of_valid hv)) hv.unique).1 (hjk.trans h.symm)
  exact hj.ne hsame

end

/-! ### LOOKUP and WORDAT (rules R163, R164) -/

theorem exec_lookup_hit {s : State} {i : Index} (h : cam s.wl s.key = some i) :
    exec .lookup s = .next ((s.setKidx i).setStatus 0x10000) := by
  rw [exec_lookup, lookupEffect, h, statusLookup_true]

theorem exec_lookup_miss {s : State} (h : cam s.wl s.key = none) :
    exec .lookup s = .next ((s.setKidx 0).setStatus 0) := by
  rw [exec_lookup, lookupEffect, h, statusLookup_false]

/-- Settles O31: `exec_lookup_hit` and `exec_lookup_miss`. -/
theorem lookupAnswersHitOrMiss : Obligations.LookupAnswersHitOrMiss := by
  unfold Obligations.LookupAnswersHitOrMiss
  exact fun s => ⟨fun i => exec_lookup_hit, exec_lookup_miss⟩

theorem exec_wordat_ok {s : State} {k : WordKey} (h : s.wl[s.kidx.toNat]? = some k) :
    exec .wordat s = .next ((s.setKey k).setStatus 0) := by
  obtain ⟨hlt, -⟩ := List.getElem?_eq_some_iff.1 h
  refine exec_of_steps_ok (by decide) ?_
  rw [stepsOf, wordatStep, if_neg (Nat.not_le.2 hlt), wlAt_of_getElem? h]

theorem exec_wordat_error {s : State} (h : s.wl.length ≤ s.kidx.toNat) :
    exec .wordat s = .next ((s.setKey zeroKey).setStatus 0x00004) := by
  have hstep : stepsOf .wordat s = .error (.internalInvariant 0) := by
    rw [stepsOf, wordatStep, if_pos h]
  exact exec_of_steps_error (by decide) hstep

/-- Settles O32: `exec_wordat_ok` and `exec_wordat_error`. -/
theorem wordatReadsOneEntry : Obligations.WordatReadsOneEntry := by
  unfold Obligations.WordatReadsOneEntry
  exact fun s => ⟨fun k => exec_wordat_ok, exec_wordat_error⟩

/-! ### The lowest slot with a property -/

section
variable {α : Type} {n : Nat} {v : Vector α n} {p : α → Bool}

theorem findIdx?_slots_eq_none (h : ∀ k : Fin n, p v[k] = false) : v.toList.findIdx? p = none := by
  refine List.findIdx?_eq_none_iff.2 fun x hx => ?_
  obtain ⟨k, hk, rfl⟩ := Vector.mem_iff_getElem.1 (Vector.mem_toList_iff.1 hx)
  exact h ⟨k, hk⟩

theorem findIdx?_slots_eq_some {k : Fin n} (hk : p v[k] = true)
    (hlow : ∀ j : Fin n, j < k → p v[j] = false) : v.toList.findIdx? p = some k.val := by
  refine List.findIdx?_eq_some_iff_getElem.2 ⟨by simp, hk, fun j hj => ?_⟩
  have hjn : p v[j] = false := hlow ⟨j, hj.trans k.isLt⟩ hj
  simp [hjn]

end

/-! ### What the codec's errors leave (rules R160, R161, R240) -/

theorem raise_idx2w (c : Cause) (s : State) : raise (dests .idx2w) c s =
    (s.setWord (Vector.replicate 12 zeroKey)).setStatus c.status := rfl

theorem raise_w2idx (c : Cause) (s : State) : raise (dests .w2idx) c s =
    (s.setIdx (Vector.replicate 12 0)).setStatus c.status := rfl

theorem status_internalInvariant (k : Nat) :
    (Cause.internalInvariant k).status = mkStatus 4 0 (BitVec.ofNat 8 k) 0 := rfl

theorem status_wordCount (n : BitVec 8) : (Cause.wordCount n).status = mkStatus 2 1 n 0 := rfl

theorem status_unknownWord (k : Nat) :
    (Cause.unknownWord k).status = mkStatus 2 2 (BitVec.ofNat 8 k) 0 := rfl

/-! ### IDX2W (rule R160) -/

theorem idx2wStep_of_entries {s : State} {w : Vector WordKey 12}
    (h : ∀ k : Fin 12, s.wl[s.idx[k].toNat]? = some w[k]) : idx2wStep s = .ok (s.setWord w) := by
  have hnone : (s.idx.toList.findIdx? fun i => decide (s.wl.length ≤ i.toNat)) = none :=
    findIdx?_slots_eq_none fun k => by
      obtain ⟨hlt, -⟩ := List.getElem?_eq_some_iff.1 (h k)
      exact decide_eq_false (Nat.not_le.2 hlt)
  have hw : (Vector.ofFn fun k : Fin 12 => wlAt s.wl s.idx[k]) = w :=
    Vector.ext fun k hk => by
      rw [Vector.getElem_ofFn]
      exact wlAt_of_getElem? (h ⟨k, hk⟩)
  rw [idx2wStep, hnone, ← hw]

theorem idx2wStep_of_lowest_past_end {s : State} {k : Fin 12} (hk : s.wl.length ≤ s.idx[k].toNat)
    (hlow : ∀ j : Fin 12, j < k → s.idx[j].toNat < s.wl.length) :
    idx2wStep s = .error (.internalInvariant k) := by
  have hsome : (s.idx.toList.findIdx? fun i => decide (s.wl.length ≤ i.toNat)) = some k.val :=
    findIdx?_slots_eq_some (decide_eq_true hk) fun j hj => decide_eq_false (Nat.not_le.2 (hlow j hj))
  rw [idx2wStep, hsome]

theorem exec_idx2w_ok {s : State} {w : Vector WordKey 12}
    (h : ∀ k : Fin 12, s.wl[s.idx[k].toNat]? = some w[k]) :
    exec .idx2w s = .next ((s.setWord w).setStatus 0) :=
  exec_of_steps_ok (i := .idx2w) (by decide) (idx2wStep_of_entries h)

theorem exec_idx2w_error {s : State} {k : Fin 12} (hk : s.wl.length ≤ s.idx[k].toNat)
    (hlow : ∀ j : Fin 12, j < k → s.idx[j].toNat < s.wl.length) :
    exec .idx2w s = .next ((s.setWord (Vector.replicate 12 zeroKey)).setStatus
      (mkStatus 4 0 (BitVec.ofNat 8 k) 0)) := by
  rw [exec_of_steps_error (i := .idx2w) (by decide) (idx2wStep_of_lowest_past_end hk hlow),
    raise_idx2w, status_internalInvariant]

/-- Settles O28: `exec_idx2w_ok` and `exec_idx2w_error`; the entries of a valid wordlist are
canonical. -/
theorem idx2wReadsTheEntries : Obligations.Idx2wReadsTheEntries := by
  unfold Obligations.Idx2wReadsTheEntries
  exact fun s => ⟨fun w h => ⟨exec_idx2w_ok h, fun hv k => hv.keys _ (List.mem_of_getElem? (h k))⟩,
    fun k => exec_idx2w_error⟩

/-! ### W2IDX (rule R161) -/

theorem w2idxStep_of_count {s : State} (hn : s.nwords ≠ 12) :
    w2idxStep s = .error (.wordCount s.nwords) :=
  if_pos fun h => hn (BitVec.eq_of_toNat_eq h)

theorem exec_w2idx_wordCount {s : State} (hn : s.nwords ≠ 12) :
    exec .w2idx s = .next ((s.setIdx (Vector.replicate 12 0)).setStatus
      (mkStatus 2 1 s.nwords 0)) := by
  rw [exec_of_steps_error (i := .w2idx) (by decide) (w2idxStep_of_count hn), raise_w2idx,
    status_wordCount]

section
variable {s : State} (hn : s.nwords = 12)
include hn

theorem w2idxStep_of_lowest_miss {k : Fin 12} (hk : cam s.wl s.word[k] = none)
    (hlow : ∀ j : Fin 12, j < k → cam s.wl s.word[j] ≠ none) :
    w2idxStep s = .error (.unknownWord k) := by
  have hsome : (s.word.toList.findIdx? fun w => (cam s.wl w).isNone) = some k.val :=
    findIdx?_slots_eq_some (Option.isNone_iff_eq_none.2 hk) fun j hj =>
      Option.isNone_eq_false_iff.2 (Option.isSome_iff_ne_none.2 (hlow j hj))
  rw [w2idxStep, if_neg (by rw [hn]; decide), hsome]

theorem w2idxStep_of_hits {v : Vector Index 12}
    (h : ∀ k : Fin 12, cam s.wl s.word[k] = some v[k]) : w2idxStep s = .ok (s.setIdx v) := by
  have hnone : (s.word.toList.findIdx? fun w => (cam s.wl w).isNone) = none :=
    findIdx?_slots_eq_none fun k => by rw [h k, Option.isNone_some]
  have hv : (Vector.ofFn fun k : Fin 12 => (cam s.wl s.word[k]).getD 0) = v :=
    Vector.ext fun k hk => by
      rw [Vector.getElem_ofFn, h ⟨k, hk⟩, Option.getD_some]
      rfl
  rw [w2idxStep, if_neg (by rw [hn]; decide), hnone, ← hv]

theorem exec_w2idx_unknownWord {k : Fin 12} (hk : cam s.wl s.word[k] = none)
    (hlow : ∀ j : Fin 12, j < k → cam s.wl s.word[j] ≠ none) :
    exec .w2idx s = .next ((s.setIdx (Vector.replicate 12 0)).setStatus
      (mkStatus 2 2 (BitVec.ofNat 8 k) 0)) := by
  rw [exec_of_steps_error (i := .w2idx) (by decide) (w2idxStep_of_lowest_miss hn hk hlow),
    raise_w2idx, status_unknownWord]

theorem exec_w2idx_ok {v : Vector Index 12} (h : ∀ k : Fin 12, cam s.wl s.word[k] = some v[k]) :
    exec .w2idx s = .next ((s.setIdx v).setStatus 0) :=
  exec_of_steps_ok (i := .w2idx) (by decide) (w2idxStep_of_hits hn h)

end

/-- Settles O29: the three `exec_w2idx` lemmas, and `cam_of_not_canonical`. -/
theorem w2idxCountsThenLooksUp : Obligations.W2idxCountsThenLooksUp := by
  unfold Obligations.W2idxCountsThenLooksUp
  exact fun s => ⟨fun hv k => cam_of_not_canonical hv, exec_w2idx_wordCount,
    fun hn => ⟨fun k => exec_w2idx_unknownWord hn, fun v => exec_w2idx_ok hn⟩⟩

/-! ### IDX2W and W2IDX undo each other (rule R162) -/

/-- Twelve hits are twelve indices. -/
theorem exists_indices_of_hits {s : State} (h : ∀ k : Fin 12, cam s.wl s.word[k] ≠ none) :
    ∃ v : Vector Index 12, ∀ k : Fin 12, cam s.wl s.word[k] = some v[k] := by
  choose f hf using fun k => Option.ne_none_iff_exists'.1 (h k)
  exact ⟨Vector.ofFn f, fun k => by rw [hf k]; simp⟩

section
variable {s : State} (hv : Wordlist.valid s.wl)
include hv

/-- Every index names an entry of a valid wordlist, so IDX2W reads twelve. -/
theorem getElem?_index_of_valid (k : Fin 12) :
    s.wl[s.idx[k].toNat]? = some (s.idx.map (wlAt s.wl))[k] := by
  rw [getElem?_eq_wlAt (index_lt_of_valid hv)]
  simp

/-- IDX2W with a valid wordlist completes, and W2IDX then finds every word where it was read. -/
theorem exec_w2idx_of_idx2w : ∃ t, exec .idx2w s = .next t ∧ t.status = 0 ∧
    exec .w2idx { t with nwords := 12 } = .next { t with nwords := 12 } :=
  ⟨_, exec_idx2w_ok (getElem?_index_of_valid hv), rfl,
    exec_w2idx_ok (s := { (s.setWord (s.idx.map (wlAt s.wl))).setStatus 0 with nwords := 12 }) rfl
      fun k => cam_of_getElem? hv (getElem?_index_of_valid hv k)⟩

/-- W2IDX of twelve words that hit, then IDX2W, folds the words. -/
theorem exec_idx2w_of_w2idx (hn : s.nwords = 12) (h : ∀ k : Fin 12, cam s.wl s.word[k] ≠ none) :
    ∃ t, exec .w2idx s = .next t ∧
      exec .idx2w t = .next ((t.setWord (s.word.map foldKey)).setStatus 0) := by
  obtain ⟨v, hits⟩ := exists_indices_of_hits h
  have hentry (k : Fin 12) : s.wl[v[k].toNat]? = some (s.word.map foldKey)[k] := by
    rw [getElem?_of_cam hv (hits k)]
    simp
  exact ⟨_, exec_w2idx_ok hn hits, exec_idx2w_ok (s := (s.setIdx v).setStatus 0) hentry⟩

end

/-- Settles O30: each command finds what the other wrote. -/
theorem indicesAndWordsAreInverses : Obligations.IndicesAndWordsAreInverses := by
  unfold Obligations.IndicesAndWordsAreInverses
  refine fun s hv => ⟨exec_w2idx_of_idx2w hv, fun hn h => ?_⟩
  obtain ⟨t, ht, hu⟩ := exec_idx2w_of_w2idx hv hn h
  exact ⟨t, _, ht, hu, rfl, rfl, fun k j => by simp [foldKey]⟩

end Sys2Proof.Machine

/-! ## The composite commands (rules R180 to R185) -/

namespace Sys2Proof.Machine

theorem eq_slices {p : Packed} {v : Vector Index 12} (h : ∀ k : Fin 12, v[k] = slice p k) :
    v = slices p :=
  Vector.ext fun k hk => (h ⟨k, hk⟩).trans (getElem_slices p hk).symm

/-! ### GENW and ENC (rules R181, R183) -/

/-- What E2B, CKSUM and PACK leave: bytes, checksum and indices written (rule R181). -/
def State.encoded (s : State) (b : EntropyBytes) (c : Checksum) (v : Vector Index 12) : State :=
  ((s.setBytes b).setChk c).setIdx v

/-! The bytes and the checksum are variables in what follows: with `toBytes` and `cksum4` written out
in their places, comparing two states would evaluate them. -/

theorem e2bStep_of_bytes {s : State} {b : EntropyBytes} (hb : toBytes s.ent = b) :
    e2bStep s = .ok (s.setBytes b) := by
  rw [e2bStep, hb]

theorem cksumStep_of_checksum {s : State} {c : Checksum} (hc : cksum4 s.bytes = c) :
    cksumStep s = .ok (s.setChk c) := by
  rw [cksumStep, hc]

theorem packStep_of_slices {s : State} {v : Vector Index 12}
    (hv : ∀ k : Fin 12, v[k] = slice (packed s.ent s.chk) k) : packStep s = .ok (s.setIdx v) := by
  rw [eq_slices hv]
  rfl

section
variable {s : State} {b : EntropyBytes} {c : Checksum} {v : Vector Index 12}
  (hb : toBytes s.ent = b) (hc : cksum4 b = c) (hv : ∀ k : Fin 12, v[k] = slice (packed s.ent c) k)
include hb hc hv

/-- GENW is IDX2W over the bytes, checksum and indices that E2B, CKSUM and PACK write. -/
theorem genwSteps_eq_idx2wStep : genwSteps s = idx2wStep (s.encoded b c v) := by
  have hcksum : cksumStep (s.setBytes b) = .ok ((s.setBytes b).setChk c) :=
    cksumStep_of_checksum hc
  have hpack : packStep ((s.setBytes b).setChk c) = .ok (s.encoded b c v) :=
    packStep_of_slices hv
  rw [genwSteps, e2bStep_of_bytes hb, ok_then, hcksum, ok_then, hpack, ok_then]

theorem genwSteps_of_entries {w : Vector WordKey 12}
    (hw : ∀ k : Fin 12, s.wl[v[k].toNat]? = some w[k]) :
    genwSteps s = .ok ((s.encoded b c v).setWord w) :=
  (genwSteps_eq_idx2wStep hb hc hv).trans (idx2wStep_of_entries (s := s.encoded b c v) hw)

theorem genwSteps_of_lowest_past_end {k : Fin 12} (hk : s.wl.length ≤ v[k].toNat)
    (hlow : ∀ j : Fin 12, j < k → v[j].toNat < s.wl.length) :
    genwSteps s = .error (.internalInvariant k) :=
  (genwSteps_eq_idx2wStep hb hc hv).trans
    (idx2wStep_of_lowest_past_end (s := s.encoded b c v) hk hlow)

theorem exec_genw_ok {w : Vector WordKey 12} (hw : ∀ k : Fin 12, s.wl[v[k].toNat]? = some w[k]) :
    exec .genw s = .next (((s.encoded b c v).setWord w).setStatus 0) :=
  exec_of_steps_ok (i := .genw) (by decide) (genwSteps_of_entries hb hc hv hw)

theorem exec_genw_error {k : Fin 12} (hk : s.wl.length ≤ v[k].toNat)
    (hlow : ∀ j : Fin 12, j < k → v[j].toNat < s.wl.length) :
    exec .genw s = .next (raise (dests .genw) (.internalInvariant k) s) :=
  exec_of_steps_error (i := .genw) (by decide) (genwSteps_of_lowest_past_end hb hc hv hk hlow)

end

/-- ENC on a text that PARSE accepts is GENW of its value. -/
theorem encSteps_of_parse_ok {s : State} {e : Entropy} (h : parseFn s.textString = .ok e) :
    encSteps s = genwSteps (s.setEnt e) := by
  rw [encSteps, parseStep, h, ok_then]

theorem exec_enc_parse_error {s : State} {c : Cause} (h : parseFn s.textString = .error c) :
    exec .enc s = .next (raise (dests .enc) c s) := by
  refine exec_of_steps_error (i := .enc) (by decide) ?_
  rw [stepsOf, encSteps, parseStep, h, error_then]

section
variable {s : State} {e : Entropy} {b : EntropyBytes} {c : Checksum} {v : Vector Index 12}
  (he : parseFn s.textString = .ok e) (hb : toBytes e = b) (hc : cksum4 b = c)
  (hv : ∀ k : Fin 12, v[k] = slice (packed e c) k)
include he hb hc hv

theorem exec_enc_ok {w : Vector WordKey 12} (hw : ∀ k : Fin 12, s.wl[v[k].toNat]? = some w[k]) :
    exec .enc s = .next ((((s.setEnt e).encoded b c v).setWord w).setStatus 0) :=
  exec_of_steps_ok (i := .enc) (by decide)
    ((encSteps_of_parse_ok he).trans (genwSteps_of_entries (s := s.setEnt e) hb hc hv hw))

theorem exec_enc_error {k : Fin 12} (hk : s.wl.length ≤ v[k].toNat)
    (hlow : ∀ j : Fin 12, j < k → v[j].toNat < s.wl.length) :
    exec .enc s = .next (raise (dests .enc) (.internalInvariant k) s) :=
  exec_of_steps_error (i := .enc) (by decide)
    ((encSteps_of_parse_ok he).trans
      (genwSteps_of_lowest_past_end (s := s.setEnt e) hb hc hv hk hlow))

end

/-- Settles O44: `exec_genw_ok` and `exec_genw_error`. -/
theorem genwWritesTheMnemonic : Obligations.GenwWritesTheMnemonic := by
  unfold Obligations.GenwWritesTheMnemonic
  intro s v
  generalize hb : toBytes s.ent = b
  generalize hc : cksum4 b = c
  exact fun hv => ⟨fun w => exec_genw_ok hb hc hv, fun k => exec_genw_error hb hc hv⟩

/-- Settles O46: PARSE's five errors by `exec_enc_parse_error`, its value by `exec_enc_ok` and
`exec_enc_error`. -/
theorem encParsesThenEncodes : Obligations.EncParsesThenEncodes := by
  unfold Obligations.EncParsesThenEncodes
  refine fun s => ⟨exec_enc_parse_error, exec_enc_parse_error, fun n => exec_enc_parse_error,
    fun n => exec_enc_parse_error, fun i => exec_enc_parse_error, fun e v he => ?_⟩
  generalize hb : toBytes e = b
  generalize hc : cksum4 b = c
  exact fun hv => ⟨fun w => exec_enc_ok he hb hc hv, fun k => exec_enc_error he hb hc hv⟩

/-! ### GETE and DEC (rules R182, R184) -/

/-- What W2IDX and UNPACK leave: the indices of the words, and the entropy and checksum they hold
(rule R182). -/
def State.decoded (s : State) (v : Vector Index 12) (e : Entropy) (c : Checksum) : State :=
  ((s.setIdx v).setChk c).setEnt e

@[simp] theorem State.decoded_ent (s : State) (v : Vector Index 12) (e : Entropy) (c : Checksum) :
    (s.decoded v e c).ent = e := rfl

theorem geteSteps_of_w2idx_error {s : State} {c : Cause} (h : w2idxStep s = .error c) :
    geteSteps s = .error c := by
  rw [geteSteps, h, error_then, error_then]

theorem exec_gete_error {s : State} {c : Cause} (h : geteSteps s = .error c) :
    exec .gete s = .next (raise (dests .gete) c s) :=
  exec_of_steps_error (i := .gete) (by decide) h

/-- DEC reports GETE's errors. -/
theorem exec_dec_error {s : State} {c : Cause} (h : geteSteps s = .error c) :
    exec .dec s = .next (raise (dests .dec) c s) := by
  refine exec_of_steps_error (i := .dec) (by decide) ?_
  rw [stepsOf, decSteps, h, error_then]

/-- DEC is GETE, then RENDER of the entropy it left. -/
theorem exec_dec_ok {s u : State} (h : geteSteps s = .ok u) : ∃ t, exec .dec s = .next t ∧
    t.textString = renderFn u.ent ∧ (∀ i : Fin 64, t.textLen.toNat ≤ i.val → t.text[i] = 0) ∧
    t = ((u.setText t.text).setTextLen t.textLen).setStatus 0 := by
  obtain ⟨t, ht, hlen, hstring, hbytes, hframe⟩ := renderStep_ok u
  have hsteps : stepsOf .dec s = .ok t := by rw [stepsOf, decSteps, h, ok_then, ht]
  refine ⟨t.setStatus 0, exec_of_steps_ok (by decide) hsteps, hstring, fun i hi => ?_,
    congrArg (·.setStatus 0) hframe⟩
  rw [State.setStatus_textLen, hlen] at hi
  rw [State.setStatus_text, hbytes, List.getD_eq_default _ _ hi]

section
variable {s : State} {v : Vector Index 12} {e : Entropy} {c : Checksum} (hn : s.nwords = 12)
  (hits : ∀ k : Fin 12, cam s.wl s.word[k] = some v[k])
  (hv : ∀ k : Fin 12, v[k] = slice (packed e c) k)
include hn hits hv

/-- With twelve hits GETE is VERIFY of what the indices hold. -/
theorem geteSteps_of_hits : geteSteps s = verifyStep (s.decoded v e c) := by
  have hfold : foldIndices v = packed e c := by
    rw [eq_slices hv]
    exact foldIndices_slices _
  rw [geteSteps, w2idxStep_of_hits hn hits, ok_then, unpackStep_of_packed (s := s.setIdx v) hfold,
    ok_then, State.decoded]

theorem geteSteps_of_checksum_eq (h : cksum4 (toBytes e) = c) :
    geteSteps s = .ok (s.decoded v e c) :=
  (geteSteps_of_hits hn hits hv).trans (verifyStep_of_eq (s := s.decoded v e c) h)

theorem geteSteps_of_checksum_ne (h : cksum4 (toBytes e) ≠ c) : geteSteps s = .error .checksum :=
  (geteSteps_of_hits hn hits hv).trans (verifyStep_of_ne (s := s.decoded v e c) h)

theorem exec_gete_ok (h : cksum4 (toBytes e) = c) :
    exec .gete s = .next ((s.decoded v e c).setStatus 0) :=
  exec_of_steps_ok (i := .gete) (by decide) (geteSteps_of_checksum_eq hn hits hv h)

end

/-- Settles O45: GETE's errors are W2IDX's, then VERIFY's; `exec_gete_ok` without one. -/
theorem geteReadsTheMnemonic : Obligations.GeteReadsTheMnemonic := by
  unfold Obligations.GeteReadsTheMnemonic
  refine fun s => ⟨fun hn => ?_, fun hn => ⟨fun k hk hlow => ?_, fun v e c hits hv =>
    ⟨exec_gete_ok hn hits hv, fun hc => ?_⟩⟩⟩
  · rw [exec_gete_error (geteSteps_of_w2idx_error (w2idxStep_of_count hn))]
    rfl
  · rw [exec_gete_error (geteSteps_of_w2idx_error (w2idxStep_of_lowest_miss hn hk hlow))]
    rfl
  · rw [exec_gete_error (geteSteps_of_checksum_ne hn hits hv hc)]
    rfl

/-- Settles O47: GETE's errors, and RENDER of the entropy where GETE has none. -/
theorem decDecodesThenRenders : Obligations.DecDecodesThenRenders := by
  unfold Obligations.DecDecodesThenRenders
  refine fun s => ⟨fun hn => ?_, fun hn => ⟨fun k hk hlow => ?_, fun v e c hits hv =>
    ⟨fun hc => ?_, fun hc => ?_⟩⟩⟩
  · rw [exec_dec_error (geteSteps_of_w2idx_error (w2idxStep_of_count hn))]
    rfl
  · rw [exec_dec_error (geteSteps_of_w2idx_error (w2idxStep_of_lowest_miss hn hk hlow))]
    rfl
  · rw [exec_dec_error (geteSteps_of_checksum_ne hn hits hv hc)]
    rfl
  · obtain ⟨t, ht, htext, hpad, hframe⟩ := exec_dec_ok (geteSteps_of_checksum_eq hn hits hv hc)
    rw [State.decoded_ent] at htext
    exact ⟨t, ht, htext, hpad, hframe⟩

/-! ### A composite against its steps issued one by one (rule R180) -/

/-- No command reads `STATUS`, and every command overwrites it (rules R8, R35). -/
theorem exec_setStatus (i : Instr) (s : State) (st : StatusBits) :
    exec i (s.setStatus st) = exec i s := by
  obtain ⟨t, ht⟩ := exec_next i s
  obtain ⟨t', ht'⟩ := exec_next i (s.setStatus st)
  have hsame (r : DataReg) : sameReg s (s.setStatus st) r :=
    (sameReg_setStatus s s st r).2 (sameReg_refl s r)
  have ⟨hst, hdests⟩ := exec_congr ⟨fun r _ => hsame r, rfl⟩ ht ht'
  have hreg (r : DataReg) : sameReg t t' r := exec_sameReg (hsame r) (hdests r) ht ht'
  obtain ⟨hcmd, hwl, hport, hreply⟩ := (exec_wrote ht).2
  obtain ⟨hcmd', hwl', hport', hreply'⟩ := (exec_wrote ht').2
  have hout : sameOutside t t' := ⟨hcmd'.trans hcmd.symm, hwl'.trans hwl.symm,
    hport'.trans hport.symm, hreply'.trans hreply.symm⟩
  rw [ht, ht', State.eq_of_sameReg hreg hout hst.symm]

section
variable {i j : Instr} {s t : State}

/-- A command whose steps complete leaves the next command the state they reach. -/
theorem exec_after_ok {u : State} (hj : j ≠ .lookup) (hu : stepsOf j s = .ok u)
    (h : exec j s = .next t) : exec i t = exec i u := by
  obtain rfl := Host.Outcome.next.inj ((exec_of_steps_ok hj hu).symm.trans h)
  exact exec_setStatus i u 0

/-- A command that reports no error has taken all its steps. -/
theorem stepsOf_ok_of_statusErr (hj : j ≠ .lookup) (h : exec j s = .next t)
    (ht : statusErr t.status = 0) : ∃ u, stepsOf j s = .ok u := by
  rcases exec_cases h with ⟨hl, -⟩ | ⟨-, u, hu, -⟩ | ⟨-, c, -, rfl⟩
  · exact absurd hl hj
  · exact ⟨u, hu⟩
  · rw [raise_status, c.statusErr_status] at ht
    exact absurd ht c.err_ne_zero

/-- A command that reports an error names its steps' cause. -/
theorem stepsOf_error_of_statusErr (hj : j ≠ .lookup) (h : exec j s = .next t)
    (ht : statusErr t.status ≠ 0) : ∃ c, stepsOf j s = .error c ∧ t.status = c.status := by
  rcases exec_cases h with ⟨hl, -⟩ | ⟨-, u, -, rfl⟩ | ⟨-, c, hc, rfl⟩
  · exact absurd hl hj
  · exact absurd rfl ht
  · exact ⟨c, hc, rfl⟩

/-- An error of the first step is the composite's. -/
theorem exec_of_first_error (hi : i ≠ .lookup) (hj : j ≠ .lookup)
    {rest : State → Except Cause State} (hsteps : stepsOf i s = stepsOf j s >>= rest)
    (h : exec j s = .next t) (ht : statusErr t.status ≠ 0) :
    exec i s = .next (raisedAs i t.status s) := by
  obtain ⟨c, hc, hst⟩ := stepsOf_error_of_statusErr hj h ht
  rw [hst]
  exact exec_of_steps_error hi (by rw [hsteps, hc, error_then])

/-- A composite that is left with its last step ends as that step does, or reports its error. -/
theorem exec_of_last_step (hi : i ≠ .lookup) (hj : j ≠ .lookup) {u : State}
    (hsteps : stepsOf i s = stepsOf j u) (h : exec j u = .next t) :
    exec i s = .next (if statusErr t.status = 0 then t else raisedAs i t.status s) := by
  split
  next ht =>
    obtain ⟨x, hx⟩ := stepsOf_ok_of_statusErr hj h ht
    rw [exec_of_steps_ok hi (hsteps.trans hx), ← exec_of_steps_ok hj hx, h]
  next ht =>
    obtain ⟨c, hc, hst⟩ := stepsOf_error_of_statusErr hj h ht
    rw [hst]
    exact exec_of_steps_error hi (hsteps.trans hc)

/-- All of `STATUS` is zero when its error code is; LOOKUP alone may set `HIT` beside it. -/
theorem status_eq_zero_of_statusErr (hi : i ≠ .lookup) (h : exec i s = .next t)
    (ht : statusErr t.status = 0) : t.status = 0 := by
  obtain ⟨u, hu⟩ := stepsOf_ok_of_statusErr hi h ht
  obtain rfl := Host.Outcome.next.inj ((exec_of_steps_ok hi hu).symm.trans h)
  rfl

end

section
variable {s s1 s2 s3 s4 : State}

theorem exec_genw_of_steps (h1 : exec .e2b s = .next s1) (h2 : exec .cksum s1 = .next s2)
    (h3 : exec .pack s2 = .next s3) (h4 : exec .idx2w s3 = .next s4) :
    exec .genw s = .next (if statusErr s4.status = 0 then s4 else raisedAs .genw s4.status s) := by
  generalize hb : toBytes s.ent = b
  generalize hc : cksum4 b = c
  have hv (k : Fin 12) : (slices (packed s.ent c))[k] = slice (packed s.ent c) k :=
    getElem_slices _ k.isLt
  have he2b : stepsOf .e2b s = .ok (s.setBytes b) := e2bStep_of_bytes hb
  have hcksum : stepsOf .cksum (s.setBytes b) = .ok ((s.setBytes b).setChk c) :=
    cksumStep_of_checksum hc
  have hpack : stepsOf .pack ((s.setBytes b).setChk c) =
      .ok (s.encoded b c (slices (packed s.ent c))) := packStep_of_slices hv
  rw [exec_after_ok (by decide) he2b h1] at h2
  rw [exec_after_ok (by decide) hcksum h2] at h3
  rw [exec_after_ok (by decide) hpack h3] at h4
  exact exec_of_last_step (i := .genw) (j := .idx2w) (by decide) (by decide)
    (genwSteps_eq_idx2wStep hb hc hv) h4

theorem exec_gete_of_first_error (h1 : exec .w2idx s = .next s1) (hst : statusErr s1.status ≠ 0) :
    exec .gete s = .next (raisedAs .gete s1.status s) :=
  exec_of_first_error (i := .gete) (j := .w2idx) (by decide) (by decide)
    (bind_assoc (w2idxStep s) unpackStep verifyStep) h1 hst

theorem exec_gete_of_steps (h1 : exec .w2idx s = .next s1) (hst : statusErr s1.status = 0)
    (h2 : exec .unpack s1 = .next s2) (h3 : exec .verify s2 = .next s3) :
    exec .gete s = .next (if statusErr s3.status = 0 then s3 else raisedAs .gete s3.status s) := by
  obtain ⟨u, hu⟩ := stepsOf_ok_of_statusErr (by decide) h1 hst
  obtain ⟨e, c, hp⟩ := exists_foldIndices_eq_packed u.idx
  have hunpack : stepsOf .unpack u = .ok ((u.setChk c).setEnt e) := unpackStep_of_packed hp
  have hsteps : stepsOf .gete s = stepsOf .verify ((u.setChk c).setEnt e) :=
    calc (stepsOf .w2idx s >>= stepsOf .unpack) >>= stepsOf .verify
      _ = stepsOf .verify ((u.setChk c).setEnt e) := by rw [hu, ok_then, hunpack, ok_then]
  rw [exec_after_ok (by decide) hu h1] at h2
  rw [exec_after_ok (by decide) hunpack h2] at h3
  exact exec_of_last_step (by decide) (by decide) hsteps h3

/-- A composite of two steps, the first of which reports no error. -/
theorem exec_of_two_steps {i j k : Instr} (hi : i ≠ .lookup) (hj : j ≠ .lookup) (hk : k ≠ .lookup)
    (hsteps : stepsOf i s = stepsOf j s >>= stepsOf k) (h1 : exec j s = .next s1)
    (hst : statusErr s1.status = 0) (h2 : exec k s1 = .next s2) :
    exec i s = .next (if statusErr s2.status = 0 then s2 else raisedAs i s2.status s) := by
  obtain ⟨u, hu⟩ := stepsOf_ok_of_statusErr hj h1 hst
  rw [exec_after_ok hj hu h1] at h2
  exact exec_of_last_step hi hk (by rw [hsteps, hu, ok_then]) h2

theorem exec_dec_of_steps (h1 : exec .gete s = .next s1) (hst : statusErr s1.status = 0)
    (h2 : exec .render s1 = .next s2) : exec .dec s = .next s2 := by
  have hok : statusErr s2.status = 0 := by
    obtain rfl := Host.Outcome.next.inj
      ((exec_of_steps_ok (i := .render) (by decide) rfl).symm.trans h2)
    rfl
  rw [exec_of_two_steps (by decide) (by decide) (by decide) rfl h1 hst h2, if_pos hok]

end

/-- No source of a composite is one of its destinations (rule R72). -/
theorem composite_sources_notMem_dests : ∀ i ∈ [Instr.genw, .gete, .enc, .dec],
    ∀ r ∈ sources i, r ∉ dests i := by
  simp [sources, dests]

/-- Settles O48: each composite by its first error or its last step. -/
theorem compositeIsItsStepsInOrder : Obligations.CompositeIsItsStepsInOrder := by
  unfold Obligations.CompositeIsItsStepsInOrder
  refine fun s s1 s2 s3 s4 => ⟨exec_genw_of_steps, exec_gete_of_first_error, exec_gete_of_steps,
    exec_of_first_error (by decide) (by decide) rfl,
    exec_of_two_steps (by decide) (by decide) (by decide) rfl,
    exec_of_first_error (by decide) (by decide) rfl, exec_dec_of_steps, fun i t hi h => ?_⟩
  have hlookup : i ≠ .lookup := ne_of_mem_of_not_mem hi (by decide)
  exact ⟨fun r hr => (exec_wrote h).1 r (composite_sources_notMem_dests i hi r hr),
    status_eq_zero_of_statusErr hlookup h⟩

/-! ### The sentence round trip (rule R185) -/

/-- Settles O49: DEC finds each word where ENC read it, so it decodes the indices ENC encoded. -/
theorem sentenceRoundTrip : Obligations.SentenceRoundTrip := by
  unfold Obligations.SentenceRoundTrip
  intro s e hvalid he
  generalize hb : toBytes e = b
  generalize hc : cksum4 b = c
  obtain ⟨v, hv⟩ : ∃ v : Vector Index 12, ∀ k : Fin 12, v[k] = slice (packed e c) k :=
    ⟨slices (packed e c), fun k => getElem_slices _ k.isLt⟩
  obtain ⟨w, hw⟩ : ∃ w : Vector WordKey 12, ∀ k : Fin 12, s.wl[v[k].toNat]? = some w[k] :=
    ⟨_, getElem?_index_of_valid (s := s.setIdx v) hvalid⟩
  have hits (k : Fin 12) : cam s.wl w[k] = some v[k] := cam_of_getElem? hvalid (hw k)
  let t := (((s.setEnt e).encoded b c v).setWord w).setStatus 0
  have hgete : geteSteps (t.setNwords 12) = .ok ((t.setNwords 12).decoded v e c) :=
    geteSteps_of_checksum_eq rfl hits hv (hb ▸ hc)
  obtain ⟨u, hu, htext, -, hframe⟩ := exec_dec_ok hgete
  exact ⟨t, u, exec_enc_ok he hb hc hv hw, rfl, hu, congrArg State.status hframe,
    congrArg State.ent hframe, htext⟩

end Sys2Proof.Machine

/-! ## System commands: NOP, CLR and the illegal command word (rules R200 to R202) -/

namespace Sys2Proof

/-- The opcode map ends at `0x11` (rule R72). -/
theorem toNat_encode_le (i : Instr) : (encode i).toNat ≤ 0x11 := by cases i <;> decide

/-- A reserved bit or an opcode past the map is no command (rules R70, R74). -/
theorem exists_decode_eq_error {v : Word} (h : rsvField v ≠ 0 ∨ 0x11 < (opField v).toNat) :
    ∃ e, decode v = .error e := by
  cases hv : decode v with
  | error e => exact ⟨e, rfl⟩
  | ok i =>
    obtain ⟨hrsv, hop⟩ := (decode_eq_ok_iff v i).1 hv
    have hle : (opField v).toNat ≤ 0x11 := toNat_encode_of_decodeOp hop ▸ toNat_encode_le i
    exact absurd hle (Nat.not_le.2 (h.resolve_left (not_not.2 hrsv)))

end Sys2Proof

namespace Sys2Proof.Machine

/-! ### The step on the write of a command word (rules R33, R62, R74) -/

theorem runCommandWord_of_decode_error {v : Word} {e : IllegalWord} (h : decode v = .error e)
    (s : State) : runCommandWord v s = .next (raise [] (.illegalCommand (v.extractLsb' 0 8)) s) := by
  rw [runCommandWord, h]
  rfl

/-- The write of a command's word is the command, with the word in `CMD`. -/
theorem step_encode {s : State} {i : Instr} {rest : List PortEvent}
    (h : s.port = wr .cmd (encode i) :: rest) :
    step s = exec i { s with port := rest, cmd := encode i, reply := none } :=
  (step_commandWord h).trans (runCommandWord_of_decode (decode_encode i) _)

/-- The write of an illegal word is its report, with the word in `CMD`. -/
theorem step_illegalWord {s : State} {v : Word} {rest : List PortEvent} {e : IllegalWord}
    (h : s.port = wr .cmd v :: rest) (hv : decode v = .error e) :
    step s = .next (raise [] (.illegalCommand (v.extractLsb' 0 8))
      { s with port := rest, cmd := v, reply := none }) :=
  (step_commandWord h).trans (runCommandWord_of_decode_error hv _)

/-- With no destination, a report writes `STATUS` and nothing else (rule R240). -/
theorem raise_nil (c : Cause) (s : State) : raise [] c s = s.setStatus c.status := rfl

/-- Settles O6: neither kind of word decodes, and the report of an illegal word has no destination. -/
theorem illegalCommandWordIsReported : Obligations.IllegalCommandWordIsReported := by
  unfold Obligations.IllegalCommandWordIsReported
  intro s rest v hp hv
  obtain ⟨e, he⟩ := exists_decode_eq_error hv
  exact ⟨_, (step_illegalWord hp he).trans (congrArg _ (raise_nil _ _)), rfl⟩

/-! ### NOP and CLR (rules R200, R201) -/

theorem exec_nop (s : State) : exec .nop s = .next (s.setStatus 0) :=
  exec_of_steps_ok (by decide) rfl

/-- CLR's destinations are all of the block's registers but `CMD` and `STATUS` (rule R201). -/
theorem zeroRegs_dests_clr (s : State) : zeroRegs (dests .clr) s =
    { State.reset with
      cmd := s.cmd, status := s.status, wl := s.wl, port := s.port, reply := s.reply } := rfl

theorem exec_clr (s : State) : exec .clr s = .next
    { State.reset with cmd := s.cmd, wl := s.wl, port := s.port, reply := s.reply } := by
  have hsteps : stepsOf .clr s = .ok (zeroRegs (dests .clr) s) := rfl
  rw [exec_of_steps_ok (by decide) hsteps, zeroRegs_dests_clr]
  rfl

/-- Settles O14: `exec_nop`, and the port's step on NOP's word. -/
theorem nopOnlyClearsStatus : Obligations.NopOnlyClearsStatus := by
  unfold Obligations.NopOnlyClearsStatus
  exact ⟨exec_nop, fun _ _ hp => ⟨_, (step_encode (i := .nop) hp).trans (exec_nop _), rfl⟩⟩

/-- Settles O15: `exec_clr`, and the port's step on CLR's word. -/
theorem clrReachesResetStateButForCmd : Obligations.ClrReachesResetStateButForCmd := by
  unfold Obligations.ClrReachesResetStateButForCmd
  exact ⟨exec_clr, fun _ _ hp => ⟨_, (step_encode (i := .clr) hp).trans (exec_clr _), rfl⟩⟩

end Sys2Proof.Machine

/-! ## Decoding a sentence (rules R161, R180, R211 to R218) -/

namespace Sys2Proof.Machine

/-! ### Words of the wordlist (rules R6, R80) -/

/-- `x` is a word whose key `k` is an entry of `wl` (rule R80). -/
structure WordlistWord (wl : List WordKey) (x : List Byte) (k : WordKey) : Prop where
  entry : k ∈ wl
  key : keyOf x = some k
  noPad : (0 : Byte) ∉ x

theorem wordlistWord_iff (wl : List WordKey) (x : List Byte) (k : WordKey) :
    WordlistWord wl x k ↔
      k ∈ wl ∧ 1 ≤ x.length ∧ x.length ≤ 8 ∧ (0 : Byte) ∉ x ∧ ∀ j : Fin 8, k[j] = x.getD j 0 := by
  constructor
  · rintro ⟨hentry, hkey, hpad⟩
    obtain ⟨h1, h8, hbytes⟩ := (keyOf_eq_some_iff x k).1 hkey
    exact ⟨hentry, h1, h8, hpad, hbytes⟩
  · rintro ⟨hentry, h1, h8, hpad, hbytes⟩
    exact ⟨hentry, (keyOf_eq_some_iff x k).2 ⟨h1, h8, hbytes⟩, hpad⟩

theorem isWs_of_isLowerLetter {b : Byte} (h : b.isLowerLetter = true) : isWs b = false := by
  revert b; decide

theorem cam_ne_none_of_mem {wl : List WordKey} (hv : Wordlist.valid wl) {k : WordKey} (hk : k ∈ wl) :
    cam wl k ≠ none := by
  rw [Ne, cam_eq_none_iff, not_not, foldKey_of_canonical (hv.keys k hk)]
  exact hk

section
variable {wl : List WordKey} {x : List Byte} {k : WordKey} (h : WordlistWord wl x k)
include h

theorem WordlistWord.ne_nil : x ≠ [] := by
  obtain ⟨h1, -⟩ := (keyOf_eq_some_iff x k).1 h.key
  exact List.ne_nil_of_length_pos h1

/-- A word's bytes are bytes of its canonical key and none is the padding, so they are letters. -/
theorem WordlistWord.isWs_eq_false (hv : Wordlist.valid wl) {b : Byte} (hb : b ∈ x) :
    isWs b = false := by
  obtain ⟨-, h8, hbytes⟩ := (keyOf_eq_some_iff x k).1 h.key
  obtain ⟨i, hi, rfl⟩ := List.getElem_of_mem hb
  have hki : k[i]'(by omega) = x[i] := by
    simpa [hi] using hbytes ⟨i, by omega⟩
  have hmem : x[i] ∈ k.toList := by
    rw [← hki]
    simp
  rcases mem_canonical (hv.keys k h.entry) hmem with hletter | hpad
  · exact isWs_of_isLowerLetter hletter
  · exact absurd (hpad ▸ hb) h.noPad

theorem WordlistWord.loads (hv : Wordlist.valid wl) : referenceScheme.loads false wl x k :=
  .inl (.inl ⟨h.key, cam_ne_none_of_mem hv h.entry⟩)

end

/-! ### The plain join and its tokens (rule R218) -/

theorem sentenceTokens_formatWords {w : List (List Byte)}
    (h : ∀ x ∈ w, x ≠ [] ∧ ∀ b ∈ x, isWs b = false) : sentenceTokens (formatWords w) = w := by
  induction w with
  | nil => rfl
  | cons x rest ih =>
    obtain ⟨hx, hrest⟩ := List.forall_mem_cons.1 h
    obtain ⟨hne, hbytes⟩ := hx
    cases rest with
    | nil =>
      have hjoin : formatWords [x] = x ++ [] := by simp [formatWords]
      rw [hjoin, sentenceTokens_word hne hbytes (by simp), sentenceTokens_nil]
    | cons y rest =>
      have hjoin : formatWords (x :: y :: rest) = x ++ 0x20 :: formatWords (y :: rest) := by
        simp [formatWords]
      have hspace : isWs 0x20 = true := by decide
      have hhead : ∀ b, (0x20 :: formatWords (y :: rest)).head? = some b → isWs b = true :=
        fun b hb => Option.some.inj hb ▸ hspace
      rw [hjoin, sentenceTokens_word hne hbytes hhead, sentenceTokens_ws hspace, ih hrest]

theorem candidates_referenceScheme (toks : List (List Byte)) :
    referenceScheme.candidates toks = toks := by
  simp [Scheme.candidates, referenceScheme]

section
variable {wl : List WordKey} (hv : Wordlist.valid wl) {w : List (List Byte)}
include hv

theorem tokens_of_wordlistWords (hw : ∀ x ∈ w, ∃ k, WordlistWord wl x k) :
    sentenceTokens (formatWords w) = w :=
  sentenceTokens_formatWords fun x hx =>
    have ⟨_, hk⟩ := hw x hx
    ⟨hk.ne_nil, fun _ => hk.isWs_eq_false hv⟩

theorem unformat_formatWords (hlen : w.length = 12) (hw : ∀ x ∈ w, ∃ k, WordlistWord wl x k) :
    unformat wl (formatWords w) = some w := by
  rw [unformat, tokens_of_wordlistWords hv hw]
  refine if_pos ⟨hlen, List.all_eq_true.2 fun x hx => ?_⟩
  obtain ⟨k, hk⟩ := hw x hx
  simp only [hk.key]
  exact Option.isSome_iff_ne_none.2 (cam_ne_none_of_mem hv hk.entry)

theorem referenceScheme_loadsAll {keys : List WordKey}
    (hw : List.Forall₂ (WordlistWord wl) w keys) :
    referenceScheme.loadsAll false wl (sentenceTokens (formatWords w)) keys := by
  have hwords : ∀ x ∈ w, ∃ k, WordlistWord wl x k := by
    induction hw with
    | nil => nofun
    | cons h _ ih => exact List.forall_mem_cons.2 ⟨⟨_, h⟩, ih⟩
  rw [tokens_of_wordlistWords hv hwords, Scheme.loadsAll, candidates_referenceScheme]
  exact hw.imp fun _ _ h => h.loads hv

end

/-! ### What tokens load, part by part (rules R214, R216) -/

section
variable {sch : Scheme} {wl : List WordKey} {toks rest : List (List Byte)} {keys keys' : List WordKey}

theorem loads_false_iff {tok : List Byte} {key : WordKey} :
    sch.loads false wl tok key ↔ sch.accepts wl tok key := by
  simp [Scheme.loads]

theorem loadsAll_mono (misses : Bool) (h : sch.loadsAll false wl toks keys) :
    sch.loadsAll misses wl toks keys :=
  h.imp fun _ _ hl => .inl (loads_false_iff.1 hl)

theorem loadsAll_append {misses : Bool} (h : sch.loadsAll misses wl toks keys)
    (h' : sch.loadsAll misses wl rest keys') :
    sch.loadsAll misses wl (toks ++ rest) (keys ++ keys') := by
  rw [Scheme.loadsAll, Scheme.candidates, List.filter_append]
  exact List.rel_append h h'

theorem cam_ne_none_of_loadsAll (h : sch.loadsAll false wl toks keys) {key : WordKey}
    (hkey : key ∈ keys) : cam wl key ≠ none := by
  rw [Scheme.loadsAll] at h
  generalize sch.candidates toks = words at h
  induction h with
  | nil => cases hkey
  | cons hl _ ih =>
    rcases List.mem_cons.1 hkey with rfl | hkey
    · exact cam_of_accepts (loads_false_iff.1 hl)
    · exact ih hkey

/-- The key loaded for a token that misses is one the CAM misses too, for W2IDX to find. -/
theorem cam_eq_none_of_loads_misses {misses : Bool} {tok : List Byte} {key : WordKey}
    (hl : sch.loads misses wl tok key) (hmiss : sch.misses wl tok) : cam wl key = none := by
  rcases hl with haccept | ⟨-, -, hkey⟩
  · exact absurd hmiss (not_misses_of_accepts haccept)
  · exact hmiss.1 key hkey

end

/-! ### The two ways to decode, behind the run (rule R214) -/

section
variable {sch : Scheme} {misses : Bool} {s : State} {t : List Byte} {cmd : Instr}

theorem decodeSentence_of_loaded {u w : State} (hu : loadSentence sch misses t s = .ok u)
    (hw : exec cmd (issued cmd [rd .status] u) = .next w) :
    decodeSentence sch misses cmd t s =
      .ok { w with port := [], reply := some (w.status.setWidth 32) } := by
  rw [decodeSentence, hu, ok_then, perform_cmd_status hw]
  rfl

theorem decodeSentence_error {e : HostStop} (h : loadSentence sch misses t s = .error e) :
    decodeSentence sch misses cmd t s = .error e := by
  rw [decodeSentence, h, error_then]

/-- A run by indices goes through all tokens and leaves in `IDX` what the CAM answers to their keys. -/
theorem loadTokens_indices {toks : List (List Byte)} {keys : List WordKey}
    (hload : sch.loadsAll false s.wl toks keys) (hlen : keys.length ≤ 255) (rest : List (List Byte)) :
    ∃ u, loadTokens sch .indices (toks ++ rest) 0 s = loadTokens sch .indices rest keys.length u ∧
      u.wl = s.wl ∧
      ∀ (k : Fin 12) (hk : k.val < keys.length), cam s.wl keys[k.val] = some u.idx[k] := by
  obtain ⟨u, hrun, hgiven⟩ := loadTokens_loadsAll (h := .indices) (n := 0) hload (by omega) nofun rest
  rw [Nat.zero_add] at hrun
  refine ⟨u, hrun, hgiven.wl, fun k hk => ?_⟩
  have hslot := hgiven.slots k
  rwa [if_neg (by omega), Nat.sub_zero, List.getElem?_eq_getElem hk] at hslot

theorem decodeSentenceByIndices_loadsAll {keys : List WordKey}
    (hload : sch.loadsAll false s.wl (sch.tokens t) keys) (hlen : keys.length ≤ 255) :
    ∃ u, (∀ (k : Fin 12) (hk : k.val < keys.length), cam s.wl keys[k.val] = some u.idx[k]) ∧
      decodeSentenceByIndices sch t s =
        if keys.length = 12 then perform [cmdLine .unpack, cmdLine .verify, rd .status] u
        else .error (.raised (.wordCount (BitVec.ofNat 8 keys.length))) := by
  obtain ⟨u, hrun, -, hidx⟩ := loadTokens_indices hload hlen []
  rw [List.append_nil] at hrun
  refine ⟨u, hidx, ?_⟩
  rw [decodeSentenceByIndices, hrun]
  rfl

/-- With another count than twelve the host stops by itself. -/
theorem decodeSentenceByIndices_wordCount {keys : List WordKey}
    (hload : sch.loadsAll false s.wl (sch.tokens t) keys) (hlen : keys.length ≤ 255)
    (h12 : keys.length ≠ 12) : decodeSentenceByIndices sch t s =
      .error (.raised (.wordCount (BitVec.ofNat 8 keys.length))) := by
  obtain ⟨u, -, hdecode⟩ := decodeSentenceByIndices_loadsAll hload hlen
  rw [hdecode, if_neg h12]

/-- Twelve accepted words: the indices of the one way are those W2IDX finds on the other. -/
theorem decodeSentenceByIndices_agrees (hcmd : cmd = .gete ∨ cmd = .dec) {keys : List WordKey}
    (hload : sch.loadsAll false s.wl (sch.tokens t) keys) (h12 : keys.length = 12) {u w : State}
    (hn : u.nwords = 12) (hwl : u.wl = s.wl)
    (hword : ∀ k : Fin 12, u.word[k] = (keys[k.val]?).getD s.word[k])
    (hw : exec cmd u = .next w) :
    ∃ x, decodeSentenceByIndices sch t s = .ok x ∧ x.status = w.status ∧
      (x.status = 0 → x.ent = w.ent) := by
  obtain ⟨v, hidx, hdecode⟩ := decodeSentenceByIndices_loadsAll hload (by omega)
  obtain ⟨x, hperform, hstatus, hent⟩ := perform_unpack_verify v
  have hhits (k : Fin 12) : cam u.wl u.word[k] = some v.idx[k] := by
    have hk : k.val < keys.length := by omega
    rw [hwl, hword, List.getElem?_eq_getElem hk]
    exact hidx k hk
  obtain ⟨w', hw', hstatus', hent'⟩ := decode_hits hcmd hn hhits
  obtain rfl : w = w' := Host.Outcome.next.inj (hw.symm.trans hw')
  have hsame : x.status = w.status := hstatus.trans hstatus'.symm
  rw [hdecode, if_pos h12]
  exact ⟨x, hperform, hsame, fun h0 => hent.trans (hent' (hsame ▸ h0)).symm⟩

end

/-! ### A sentence with a token that misses (rule R216) -/

section
variable {sch : Scheme} {misses : Bool} {s : State} {t : List Byte} {cmd : Instr}
  {toks rest : List (List Byte)} {tok : List Byte} {keys : List WordKey}
  (htoks : sch.tokens t = toks ++ tok :: rest) (hfiller : tok ∉ sch.fillers)
  (hload : sch.loadsAll false s.wl toks keys) (hmiss : sch.misses s.wl tok)
include htoks hload

/-- Misses left to W2IDX: the run loads a key for every candidate, or a later token without a key ends it. -/
theorem loadSentence_leaves (hlen : keys.length ≤ 255)
    (hleft : sch.leavesMisses misses (sch.tokens t) = true) :
    (∃ keys', sch.loadsAll true s.wl (tok :: rest) keys') ∨
      ∃ k, loadSentence sch misses t s = .error (.raised (.unknownWord k)) := by
  obtain ⟨h, u, hh, hwl, herror⟩ :=
    loadSentence_error_of_loaded htoks (loadsAll_mono _ hload) hlen
  have hslots : keys.length + (sch.candidates (tok :: rest)).length ≤ 12 := by
    have htwelve := leavesMisses_length hleft
    rw [htoks, Scheme.candidates, List.filter_append, List.length_append] at htwelve
    rw [← hload.length_eq]
    exact htwelve.le
  obtain rfl : h = .wordsAndMisses := by
    rw [hleft] at hh
    cases h with
    | wordsAndMisses => rfl
    | words | indices => cases hh
  rcases loadTokens_leaves (s := u) hslots with ⟨keys', hload'⟩ | ⟨k, hk⟩
  · exact .inl ⟨keys', hwl ▸ hload'⟩
  · exact .inr ⟨k, herror _ hk⟩

include hfiller hmiss

theorem decodeSentenceByIndices_misses (hlen : keys.length ≤ 255) :
    decodeSentenceByIndices sch t s = .error (.raised (.unknownWord keys.length)) := by
  obtain ⟨u, hrun, hwl, -⟩ := loadTokens_indices hload hlen (tok :: rest)
  rw [decodeSentenceByIndices, htoks, hrun,
    loadTokens_misses (h := .indices) hfiller (hwl ▸ hmiss) nofun rest, error_then]

theorem decodeSentence_misses (hlen : keys.length ≤ 255)
    (hleft : sch.leavesMisses misses (sch.tokens t) = false) :
    decodeSentence sch misses cmd t s = .error (.raised (.unknownWord keys.length)) :=
  decodeSentence_error <| loadSentence_misses htoks hfiller (loadsAll_mono _ hload) hlen hmiss
    fun hleaves => absurd (hleft.symm.trans hleaves) Bool.false_ne_true

/-- A miss left to W2IDX stands in the slot of its candidate, and is the lowest that the CAM misses. -/
theorem decodeSentence_leaves (hcmd : cmd = .gete ∨ cmd = .dec)
    (hleft : sch.leavesMisses misses (sch.tokens t) = true) {keys' : List WordKey}
    (hload' : sch.loadsAll true s.wl (tok :: rest) keys') :
    ∃ v, decodeSentence sch misses cmd t s = .ok v ∧
      v.status = mkStatus 2 2 (BitVec.ofNat 8 keys.length) 0 := by
  have hall : sch.loadsAll (sch.leavesMisses misses (sch.tokens t)) s.wl (sch.tokens t)
      (keys ++ keys') := by
    rw [hleft, htoks]
    exact loadsAll_append (loadsAll_mono true hload) hload'
  have htwelve : (keys ++ keys').length = 12 :=
    hall.length_eq.symm.trans (leavesMisses_length hleft)
  rw [Scheme.loadsAll, candidates_word hfiller, List.forall₂_cons_left_iff] at hload'
  obtain ⟨key, keys', hkey, -, rfl⟩ := hload'
  obtain ⟨u, hu, hn, hword, -, hwl⟩ := loadSentence_loadsAll hall (by omega)
  rw [htwelve] at hn
  let k : Fin 12 := ⟨keys.length, by rw [List.length_append, List.length_cons] at htwelve; omega⟩
  have hmissed : cam u.wl u.word[k] = none := by
    rw [hword, hwl, List.getElem?_append_right le_rfl, Nat.sub_self]
    exact cam_eq_none_of_loads_misses hkey hmiss
  have hhits (j : Fin 12) (hj : j.val < keys.length) : cam u.wl u.word[j] ≠ none := by
    rw [hword, hwl, List.getElem?_append_left hj, List.getElem?_eq_getElem hj]
    exact cam_ne_none_of_loadsAll hload (List.getElem_mem hj)
  obtain ⟨w, hw, hstatus⟩ :=
    decode_unknownWord hcmd (s := issued cmd [rd .status] u) hn hmissed hhits
  exact ⟨_, decodeSentence_of_loaded hu hw, hstatus⟩

/-- The miss fails the decode in the host or, left to W2IDX, in the block, which names its slot. -/
theorem decodeSentence_unknownWord (hcmd : cmd = .gete ∨ cmd = .dec) (hlen : keys.length ≤ 255) :
    (∃ k, decodeSentence sch misses cmd t s = .error (.raised (.unknownWord k))) ∨
      ∃ v, decodeSentence sch misses cmd t s = .ok v ∧
        v.status = mkStatus 2 2 (BitVec.ofNat 8 keys.length) 0 := by
  cases hleft : sch.leavesMisses misses (sch.tokens t) with
  | false => exact .inl ⟨_, decodeSentence_misses htoks hfiller hload hmiss hlen hleft⟩
  | true =>
    rcases loadSentence_leaves htoks hload hlen hleft with ⟨keys', hload'⟩ | ⟨k, hk⟩
    · exact .inr (decodeSentence_leaves htoks hfiller hload hmiss hcmd hleft hload')
    · exact .inl ⟨k, decodeSentence_error hk⟩

end

/-- Settles O60: the plain join by its words' bytes, which are letters; the two ways to decode by the run
they share, whose keys the CAM answers with the indices W2IDX finds; a miss by who raises it. -/
theorem unformatUndoesFormat : Obligations.UnformatUndoesFormat := by
  unfold Obligations.UnformatUndoesFormat
  have hnotWs {b : Byte} (hb : charClass b ≠ .ws) : isWs b = false :=
    Bool.eq_false_iff.2 (mt (isWs_iff b).1 hb)
  refine ⟨fun _ => rfl, ⟨sentenceTokens_nil, fun b t hb => sentenceTokens_ws ((isWs_iff b).2 hb) t,
    fun x t hne hx ht => sentenceTokens_word hne (fun b hb => hnotWs (hx b hb))
      fun b hb => (isWs_iff b).2 (ht b hb)⟩,
    fun wl w hv hlen hw => ?_, fun wl w keys hv hw => ?_, fun sch misses s t keys cmd hcmd hlen => ?_⟩
  · exact unformat_formatWords hv hlen fun x hx => (hw x hx).imp fun k => (wordlistWord_iff wl x k).2
  · exact referenceScheme_loadsAll hv (hw.imp fun x k => (wordlistWord_iff wl x k).2)
  rw [← leavesMisses_eq]
  refine ⟨fun hload => ?_, fun toks rest tok htoks hfiller hload hmiss =>
    ⟨decodeSentenceByIndices_misses htoks hfiller hload hmiss hlen,
      decodeSentence_misses htoks hfiller hload hmiss hlen,
      decodeSentence_unknownWord htoks hfiller hload hmiss hcmd hlen⟩⟩
  obtain ⟨u, hu, hn, hword, -, hwl⟩ := loadSentence_loadsAll hload hlen
  obtain ⟨w, hw⟩ := exec_next cmd (issued cmd [rd .status] u)
  refine ⟨u, w, hu, hw, decodeSentence_of_loaded hu hw, fun h12 => ?_, fun hleft => ?_⟩
  · have hcount : (issued cmd [rd .status] u).nwords ≠ 12 := by
      show u.nwords ≠ 12
      rw [hn, Ne, ← BitVec.toNat_inj, BitVec.toNat_ofNat]
      show ¬ keys.length % 2 ^ 8 = 12
      omega
    obtain ⟨w', hw', hstatus⟩ := decode_wordCount hcmd hcount
    obtain rfl : w = w' := Host.Outcome.next.inj (hw.symm.trans hw')
    exact hstatus.trans (congrArg (mkStatus 2 1 · 0) hn)
  · rw [hleft] at hload
    refine ⟨decodeSentenceByIndices_wordCount hload hlen, fun h12 => ?_⟩
    rw [h12] at hn
    exact decodeSentenceByIndices_agrees hcmd hload h12 (u := issued cmd [rd .status] u) hn hwl
      hword hw

end Sys2Proof.Machine

/-! ## The length of a text that parses (rules R102 to R104, R269) -/

namespace Sys2Proof.Machine

/-! ### Colons without `::` -/

/-- Behind one more separator, pieces that put no two separators in a row are none of them empty, but for
the last. -/
theorem pieces_length_of_no_double_cons {c : Byte} {ps : List (List Byte)} (hne : ps ≠ [])
    (h : ¬ [c, c] <:+: c :: [c].intercalate ps) :
    ps.length ≤ (ps.filter fun p => !p.isEmpty).length + 1 := by
  induction ps with
  | nil => exact absurd rfl hne
  | cons p ps ih =>
    cases ps with
    | nil => simp
    | cons q qs =>
      rw [List.intercalate_cons_cons] at h
      cases p with
      | nil => exact absurd (List.prefix_append [c, c] _).isInfix h
      | cons b p =>
        have htail : c :: [c].intercalate (q :: qs) <:+:
            c :: (b :: p ++ [c] ++ [c].intercalate (q :: qs)) :=
          ⟨c :: b :: p, [], by simp⟩
        have hlen := ih (List.cons_ne_nil q qs) fun hi => h (hi.trans htail)
        simpa using hlen

/-- Pieces that put no two separators in a row are none of them empty, but for the first and the last. -/
theorem pieces_length_of_no_double {c : Byte} {ps : List (List Byte)}
    (h : ¬ [c, c] <:+: [c].intercalate ps) :
    ps.length ≤ (ps.filter fun p => !p.isEmpty).length + 2 := by
  match ps with
  | [] => simp
  | [p] => simp
  | p :: q :: qs =>
    rw [List.intercalate_cons_cons, List.append_assoc] at h
    have hlen := pieces_length_of_no_double_cons (List.cons_ne_nil q qs) fun hi =>
      h (hi.trans (List.suffix_append p _).isInfix)
    have hsub := ((List.sublist_cons_self p (q :: qs)).filter fun p => !p.isEmpty).length_le
    rw [List.length_cons]
    omega

/-- A side without `::` whose tokens are groups: four bytes and a colon for each, and one colon more. -/
theorem side_length_of_no_double {x : List Byte} (hx : ¬ [colonByte, colonByte] <:+: x)
    (hok : ∀ g ∈ groupTokens x, groupOk g = true) :
    x.length ≤ 5 * (groupTokens x).length + 1 := by
  have hjoin : [colonByte].intercalate (split x [colonByte]) = x := intercalate_split (by simp) x
  have hlen := length_intercalate_singleton colonByte (split x [colonByte])
  have hpieces := pieces_length_of_no_double (hjoin.symm ▸ hx)
  have hbytes : ((groupTokens x).map List.length).sum ≤ (groupTokens x).length * 4 := by
    simpa using List.sum_le_card_nsmul ((groupTokens x).map List.length) 4 fun n hn => by
      obtain ⟨g, hg, rfl⟩ := List.mem_map.1 hn
      exact ((groupOk_iff g).1 (hok g hg)).2.1
  rw [groupTokens, ← List.length_flatten, List.flatten_filter_not_isEmpty, List.length_flatten,
    ← groupTokens] at hbytes
  rw [hjoin] at hlen
  rw [← groupTokens] at hpieces
  omega

theorem splitFrom_append_sep {c : Byte} (x cur : List Byte) :
    splitFrom [c] (x ++ [c]) cur 0 = splitFrom [c] x cur 0 ++ [[]] := by
  induction x using split_induction (sep := [c]) (by simp) generalizing cur with
  | nil => exact splitFrom_sep (by simp) [] cur
  | sepc y ih =>
    rw [List.append_assoc, splitFrom_sep (by simp), splitFrom_sep (by simp), split, split, ih]
    rfl
  | other b rest hb ih =>
    have hb' : ¬ [c] <+: b :: (rest ++ [c]) := by rwa [singleton_prefix_iff] at hb ⊢
    rw [List.cons_append, splitFrom_other hb', splitFrom_other hb, ih]

/-- A colon at the end of a side makes no token. -/
theorem groupTokens_append_colon (x : List Byte) :
    groupTokens (x ++ [colonByte]) = groupTokens x := by
  simp [groupTokens, split, splitFrom_append_sep]

/-! ### The cut at `::` -/

/-- A piece before a double byte ends where the first such stands: with one more of the byte it holds
none. -/
theorem splitFrom_first_piece {c : Byte} {x cur p q : List Byte} {ps : List (List Byte)}
    (h : splitFrom [c, c] x cur 0 = p :: q :: ps) :
    ∃ a, p = cur.reverse ++ a ∧ a ++ [c] <+: x ∧ ¬ [c, c] <:+: a ++ [c] := by
  induction x using split_induction (sep := [c, c]) (by simp) generalizing cur with
  | nil => simp at h
  | sepc y _ =>
    rw [splitFrom_sep (by simp)] at h
    refine ⟨[], by simpa using (List.cons.inj h).1.symm, by simp, fun hi => ?_⟩
    simpa using hi.length_le
  | other b rest hb ih =>
    rw [splitFrom_other hb] at h
    obtain ⟨a, rfl, hpre, hno⟩ := ih h
    have hpre' : b :: (a ++ [c]) <+: b :: rest := List.cons_prefix_cons.2 ⟨rfl, hpre⟩
    refine ⟨b :: a, by simp, hpre', fun hi => ?_⟩
    rcases List.infix_cons_iff.1 hi with hi | hi
    · exact hb (hi.trans hpre')
    · exact hno hi

/-- A text in one piece holds no `::`. -/
theorem no_double_of_split_one {u a : List Byte}
    (h : split u [colonByte, colonByte] = [a]) : a = u ∧ ¬ [colonByte, colonByte] <:+: u := by
  refine ⟨by simpa [h] using intercalate_split (sep := [colonByte, colonByte]) (by simp) u,
    fun hi => ?_⟩
  have hlen := (two_pieces_iff (by simp) u []).2 ((dcolon_infix_iff u).1 hi)
  rw [← split, h] at hlen
  exact absurd hlen (by simp)

/-- A text in two pieces is cut at its leftmost `::` and holds no second one. -/
theorem no_double_of_split_two {u a b : List Byte}
    (h : split u [colonByte, colonByte] = [a, b]) :
    u = a ++ [colonByte, colonByte] ++ b ∧ ¬ [colonByte, colonByte] <:+: a ++ [colonByte] ∧
      ¬ [colonByte, colonByte] <:+: b := by
  have hu : u = a ++ [colonByte, colonByte] ++ b := by
    simpa [h] using (intercalate_split (sep := [colonByte, colonByte]) (by simp) u).symm
  refine ⟨hu, ?_, fun hi => ?_⟩
  · obtain ⟨a', ha, -, hno⟩ := splitFrom_first_piece h
    rwa [ha]
  · obtain ⟨y, z, rfl⟩ := (dcolon_infix_iff b).1 hi
    have hlen := (three_pieces_iff (sep := [colonByte, colonByte]) (by simp) u []).2
      ⟨a, y, z, by simp [hu]⟩
    rw [← split, h] at hlen
    exact absurd hlen (by simp)

/-! ### The bound -/

/-- A value is of at most eight tokens, each a group (rules R103, R104). -/
theorem tokens_of_assembleGroups_ok {hasDc : Bool} {l r : List (List Byte)} {v : Entropy}
    (h : assembleGroups hasDc l r = .ok v) :
    l.length + r.length ≤ 8 ∧ (∀ x ∈ l, groupOk x = true) ∧ ∀ x ∈ r, groupOk x = true := by
  have hok := groupOk_of_assembleGroups_ok h
  refine ⟨Nat.le_of_not_lt fun hmany => ?_, fun x hx => hok x (by simp [eightGroups, hx]),
    fun x hx => hok x (by simp [eightGroups, hx])⟩
  rw [assembleGroups_tooMany hasDc hmany] at h
  cases h

/-- Eight groups of four digits, a colon behind each on the left of `::` and before each on the right,
`::` itself and one colon at the very end: 43 bytes. -/
theorem parseLowered_ok_length {u : List Byte} {v : Entropy} (h : parseLowered u = .ok v) :
    u.length ≤ 43 := by
  rcases parseLowered_cases u with ⟨a, hs, hp⟩ | ⟨a, b, hs, hp⟩ | ⟨-, hp⟩
  · obtain ⟨rfl, hno⟩ := no_double_of_split_one hs
    obtain ⟨hcount, hok, -⟩ := tokens_of_assembleGroups_ok (hp.symm.trans h)
    have hside := side_length_of_no_double hno hok
    simp only [List.length_nil] at hcount
    omega
  · obtain ⟨rfl, hleft, hright⟩ := no_double_of_split_two hs
    obtain ⟨hcount, hokl, hokr⟩ := tokens_of_assembleGroups_ok (hp.symm.trans h)
    rw [← groupTokens_append_colon] at hokl
    have hl := side_length_of_no_double hleft hokl
    have hr := side_length_of_no_double hright hokr
    rw [groupTokens_append_colon] at hl
    simp only [List.length_append, List.length_cons, List.length_nil] at hl ⊢
    omega
  · rw [hp] at h; cases h

/-- Settles O40: `parseLowered_ok_length`, as folding keeps the length. -/
theorem acceptedTextIsAtMost43Bytes : Obligations.AcceptedTextIsAtMost43Bytes := by
  unfold Obligations.AcceptedTextIsAtMost43Bytes
  intro s v h
  by_cases ht : trim s = []
  · simp [ht]
  · rw [parseFn_of_trim_ne_nil ht] at h
    simpa using parseLowered_ok_length h

end Sys2Proof.Machine

/-! ## Reported errors and the reset pulse (rules R236, R240, R242, R260) -/

namespace Sys2Proof.Machine

/-! ### An error report (rules R240, R242) -/

theorem statusErr_statusLookup (hit : Bool) : statusErr (statusLookup hit) = 0 :=
  statusErr_mkStatus _ _ _ _

/-- A command that ends with an error raised one cause: LOOKUP and success leave `ERR` zero. -/
theorem exec_error {i : Instr} {s t : State} (h : exec i s = .next t)
    (herr : statusErr t.status ≠ 0) : ∃ c, stepsOf i s = .error c ∧ t = raise (dests i) c s := by
  rcases exec_cases h with ⟨-, rfl⟩ | ⟨-, u, -, rfl⟩ | ⟨-, hc⟩
  · rw [lookupEffect_status] at herr
    exact absurd (statusErr_statusLookup _) herr
  · exact absurd rfl herr
  · exact hc

/-- No command lists a register both as a source and as a destination (rule R72). -/
theorem sources_not_mem_dests (i : Instr) : ∀ r ∈ sources i, r ∉ dests i := by
  cases i <;> decide

/-- A command leaves its sources and the wordlist as they were. -/
theorem exec_agreeOn_sources {i : Instr} {s t : State} (h : exec i s = .next t) :
    AgreeOn (sources i) s t := by
  obtain ⟨hframe, -, hwl, -⟩ := exec_wrote h
  exact ⟨fun r hr => hframe r (sources_not_mem_dests i r hr), hwl⟩

/-- A command issued again, whether it failed or not, changes nothing more. -/
theorem exec_again {i : Instr} {s t : State} (h : exec i s = .next t) : exec i t = .next t := by
  obtain ⟨w, hw⟩ := exec_next i t
  obtain ⟨hstatus, hdests⟩ := exec_congr (exec_agreeOn_sources h) h hw
  obtain ⟨hframe, hout⟩ := exec_wrote hw
  have hreg (r : DataReg) : sameReg t w r := by
    by_cases hr : r ∈ dests i
    · exact hdests r hr
    · exact hframe r hr
  rw [hw, State.eq_of_sameReg hreg hout hstatus.symm]

/-- Settles O51: `raise_spec` for a command's error, and for an illegal word, which has no destination. -/
theorem errorsZeroTheDestinations : Obligations.ErrorsZeroTheDestinations := by
  unfold Obligations.ErrorsZeroTheDestinations
  refine ⟨fun i s t h herr => ?_, fun s t rest v e hp hv h => ?_⟩
  · obtain ⟨c, -, rfl⟩ := exec_error h herr
    obtain ⟨hzero, hsame, hout, hstatus⟩ := raise_spec (dests i) c s
    exact ⟨hzero, hsame, (exec_agreeOn_sources h).same, hout, c, hstatus⟩
  · obtain rfl := Host.Outcome.next.inj ((step_illegalWord hp hv).symm.trans h)
    exact ⟨fun r => by cases r <;> rfl, rfl, rfl, rfl⟩

/-- Settles O53: `exec_again`, and a command's `STATUS` is that of its sources. -/
theorem retryFailsIdentically : Obligations.RetryFailsIdentically := by
  unfold Obligations.RetryFailsIdentically
  intro i s t h _
  refine ⟨exec_again h, fun u hsame hwl => ?_⟩
  obtain ⟨w, hw⟩ := exec_next i u
  obtain ⟨hstatus, -⟩ := exec_congr ⟨hsame, hwl.symm⟩ h hw
  exact ⟨w, hw, hstatus.symm⟩

/-! ### InternalInvariant (rules R164, R236) -/

/-- Only InternalInvariant has the code 4 (rule R231). -/
theorem Cause.eq_internalInvariant_of_err {c : Cause} (h : c.err = 4) :
    ∃ k, c = .internalInvariant k := by
  cases c with
  | internalInvariant k => exact ⟨k, rfl⟩
  | _ => simp [Cause.err] at h

/-- InternalInvariant needs a table that some index is past. -/
theorem wl_length_lt_of_internalInvariant {i : Instr} {s : State} {k : Nat}
    (h : stepsOf i s = .error (.internalInvariant k)) : s.wl.length < 2048 := by
  rcases stepsOf_error h with h | ⟨-, h⟩ | ⟨_, h⟩ | h | ⟨_, j, -, hj⟩
  · simpa using parseFn_error h
  · cases h
  · cases h
  · cases h
  · exact hj.trans_lt j.isLt

/-- Settles O55: an 11-bit index is below 2048. -/
theorem internalInvariantIsUnreachable : Obligations.InternalInvariantIsUnreachable := by
  unfold Obligations.InternalInvariantIsUnreachable
  intro i s t hwl h herr
  obtain ⟨c, hc, rfl⟩ := exec_error h (by rw [herr]; decide)
  rw [raise_status, Cause.statusErr_status] at herr
  obtain ⟨k, rfl⟩ := Cause.eq_internalInvariant_of_err herr
  exact (wl_length_lt_of_internalInvariant hc).ne hwl

/-! ### The reset pulse (rules R260, R261) -/

theorem resetBlock_regIsZero (s : State) (r : DataReg) : regIsZero (resetBlock s) r := by
  have h := reset_regIsZero r
  cases r <;> exact h

/-- Settles O2: the step is `resetBlock`, whose registers are those of the reset state. -/
theorem resetPulseZeroesEveryRegister : Obligations.ResetPulseZeroesEveryRegister := by
  unfold Obligations.ResetPulseZeroesEveryRegister
  exact fun _ _ hp => ⟨_, step_reset hp, resetBlock_regIsZero _, rfl, rfl, rfl, rfl, rfl, rfl⟩

end Sys2Proof.Machine
